-- ==== Sys2Proof/Word.lean ====
section
/-! DEFINITION. The two machine words of the block: the 8-bit byte of a storage (R22) and the 32-bit identifier word (R60). -/

namespace Sys2Proof

/-- One byte of a storage (R22, R40). -/
abbrev Byte := BitVec 8

/-- A 32-bit word: the identifier word (R60), and every `u32` result. -/
abbrev Word := BitVec 32

end Sys2Proof
end

