-- ==== Sys2Proof/Config.lean ====
section
/-! DEFINITION. What an implementation fixes (00_scope.md R7): the source's constants as definitions, the identifier flags and
masks and the open yes/no parameters as one record that the state carries, and the open functions as opaque constants. -/

namespace Sys2Proof

/-- The host's byte order, parameter `HOST_ENDIAN` (R7, R42). -/
inductive Endian where
  | little
  | big
deriving DecidableEq, Repr, Inhabited

/-- The parameters of R7 that a claim must be able to quantify over: the flag and mask values, which the source does not
give (D1 to D3), and the parameters the spec leaves `OPEN` (D4, D17). No step changes them (R26, R43). -/
structure Params where
  /-- `HOST_ENDIAN`. -/
  hostEndian : Endian
  /-- `EFF_FLAG`. -/
  effFlag : Word
  /-- `RTR_FLAG`. -/
  rtrFlag : Word
  /-- `ERR_FLAG`. -/
  errFlag : Word
  /-- `SFF_MASK`. -/
  sffMask : Word
  /-- `EFF_MASK`. -/
  effMask : Word
  /-- `ERR_MASK`. -/
  errMask : Word
  /-- `RENDER_HEX_UPPER`. -/
  renderHexUpper : Bool
  /-- `RENDER_BYTE_PAD`. -/
  renderBytePad : Bool
deriving DecidableEq, Repr

/-- `ID_WIDTH`, the width of the identifier word (R7): `Word` has it. -/
@[simp] abbrev Config.idWidth : Nat := 32
/-- `SFF_BITS`, the numeric bits of a standard identifier (R7): `SFF_MASK` has them. -/
@[simp] abbrev Config.sffBits : Nat := 11
/-- `EFF_BITS`, the numeric bits of an extended identifier (R7): `EFF_MASK` has them. -/
@[simp] abbrev Config.effBits : Nat := 29
/-- `HASH_WIDTH` (R7). -/
@[simp] abbrev Config.hashWidth : Nat := 32
/-- `HEADER_LENGTH` (R7). -/
@[simp] abbrev Config.headerLength : Nat := 8
/-- `MAX_DATA_LENGTH` (R7). -/
@[simp] abbrev Config.maxDataLength : Nat := 8
/-- `MAX_FD_DATA_LENGTH` (R7). -/
@[simp] abbrev Config.maxFdDataLength : Nat := 64
/-- `MTU` (R7, R8). -/
@[simp] abbrev Config.mtu : Nat := 16
/-- `FD_MTU` (R7, R8). -/
@[simp] abbrev Config.fdMtu : Nat := 72
/-- `OFFSET_ID` (R7). -/
@[simp] abbrev Config.offsetId : Nat := 0
/-- `OFFSET_DATA_LENGTH` (R7). -/
@[simp] abbrev Config.offsetDataLength : Nat := 4
/-- `OFFSET_FLAGS` (R7). -/
@[simp] abbrev Config.offsetFlags : Nat := 5
/-- The offset of the two padding bytes (R41, R63). -/
@[simp] abbrev Config.offsetPadding : Nat := 6
/-- `OFFSET_DATA` (R7). -/
@[simp] abbrev Config.offsetData : Nat := 8
/-- `FLAG_BRS`, bit 0 of the flags byte (R7, R28). No rule interprets it. -/
def Config.flagBrs : Byte := 0x01
/-- `FLAG_ESI`, bit 1 of the flags byte (R7, R28). No rule interprets it. -/
def Config.flagEsi : Byte := 0x02

/-- `HOST_ENDIAN`, `OPEN` (R7, D4): which order the host has is not known. Log entry 4. -/
opaque Config.hostEndian : Endian
/-- `RENDER_HEX_UPPER`, `OPEN` (R7, D17). Log entry 4. -/
opaque Config.renderHexUpper : Bool
/-- `RENDER_BYTE_PAD`, `OPEN` (R7, D17). Log entry 4. -/
opaque Config.renderBytePad : Bool

/-- `frameHash`, `OPEN` (R182, R183): a function of the span's bytes alone, in their order. Log entry 7. -/
opaque Config.frameHash : List Byte → BitVec Config.hashWidth

/-- The part of `renderFrame` that R186 leaves open before the fixed text of a non-FD frame: a function of the frame, that
is of its descriptor's storage, base and size and of its bytes. Log entry 8. -/
opaque Config.renderBefore : Nat → Nat → Nat → List Byte → List Char
/-- The part of `renderFrame` that R186 leaves open after the fixed text of a non-FD frame. Log entry 8. -/
opaque Config.renderAfter : Nat → Nat → Nat → List Byte → List Char
/-- The text of an FD frame, which R186 leaves open but for its being one line. Log entry 8. -/
opaque Config.renderFd : Nat → Nat → Nat → List Byte → List Char

/-- The parameters with the flag and mask values of R7's table, and the `OPEN` ones at their opaque constants. -/
def Config.params : Params where
  hostEndian := Config.hostEndian
  effFlag := 0x80000000
  rtrFlag := 0x40000000
  errFlag := 0x20000000
  sffMask := 0x000007FF
  effMask := 0x1FFFFFFF
  errMask := 0x1FFFFFFF
  renderHexUpper := Config.renderHexUpper
  renderBytePad := Config.renderBytePad

end Sys2Proof
end

