-- ==== Sys2Proof/Syntax.lean ====
section
/-! DEFINITION. The operations of the block, one constructor per row of spec/opcode_table.json. The code word holds no operand
(30_encoding.md R81), so no constructor has an argument: operands are read from the interface ports (R32). -/

namespace Sys2Proof

/-- The 25 operations of R80, in the table's order. -/
inductive Instr where
  /-- ID_NUMERIC (R104). -/
  | idNumeric
  /-- ID_IS_EXT (R101). -/
  | idIsExt
  /-- ID_IS_ERR (R103). -/
  | idIsErr
  /-- ID_IS_RTR (R102). -/
  | idIsRtr
  /-- ID_ERR_CAUSE (R105). -/
  | idErrCause
  /-- ID_PACK (R106). -/
  | idPack
  /-- V_RAW_ID (R121). -/
  | vRawId
  /-- V_ID (R122). -/
  | vId
  /-- V_FLAGS (R123). -/
  | vFlags
  /-- V_DLEN (R124). -/
  | vDlen
  /-- V_BASE (R125). -/
  | vBase
  /-- V_SIZE (R126). -/
  | vSize
  /-- V_IS_FD (R130). -/
  | vIsFd
  /-- V_IS_EXT (R127). -/
  | vIsExt
  /-- V_IS_ERR (R128). -/
  | vIsErr
  /-- V_ERR_CAUSE (R129). -/
  | vErrCause
  /-- V_IS_RTR (R132). -/
  | vIsRtr
  /-- V_COPY_BUF (R141). -/
  | vCopyBuf
  /-- V_COPY_ARR (R142). -/
  | vCopyArr
  /-- V_REGION (R143). -/
  | vRegion
  /-- DECODE (R156). -/
  | decode
  /-- ENCODE (R160). -/
  | encode
  /-- EQUALS (R180). -/
  | equals
  /-- HASH (R182). -/
  | hash
  /-- RENDER (R185). -/
  | render
deriving DecidableEq, Repr

end Sys2Proof
end

