-- ==== Sys2Proof/Decode.lean ====
section
/-! DEFINITION. From a code on `op[7:0]` to an operation (30_encoding.md R80 to R82), and the encoder back. -/

namespace Sys2Proof

/-- Why bytes are no operation. -/
inductive DecodeError where
  /-- One of the 231 codes that select no operation (R82). -/
  | unassigned (code : Byte)
  /-- No code is presented. -/
  | noCode
deriving DecidableEq, Repr

/-- The operation map of R80: the code and the operation it selects, in the table's order. -/
def opTable : List (Byte × Instr) :=
  [(0x01, .idNumeric), (0x02, .idIsExt), (0x03, .idIsErr), (0x04, .idIsRtr), (0x05, .idErrCause), (0x06, .idPack)] ++
  [(0x10, .vRawId), (0x11, .vId), (0x12, .vFlags), (0x13, .vDlen), (0x14, .vBase), (0x15, .vSize), (0x16, .vIsFd)] ++
  [(0x17, .vIsExt), (0x18, .vIsErr), (0x19, .vErrCause), (0x1A, .vIsRtr), (0x1B, .vCopyBuf), (0x1C, .vCopyArr)] ++
  [(0x1D, .vRegion), (0x20, .decode), (0x21, .encode), (0x30, .equals), (0x31, .hash), (0x32, .render)]

/-- The operation that an 8-bit code selects; a code outside the map is unassigned (R80, R82). -/
def decodeOp (code : Byte) : Except DecodeError Instr :=
  match opTable.find? (fun row => row.1 == code) with
  | some row => .ok row.2
  | none => .error (.unassigned code)

/-- Decoding of a list of bytes: every code is one byte long (R81), and the rest is handed back. -/
def decode : List Byte → Except DecodeError (Instr × List Byte)
  | [] => .error .noCode
  | code :: rest =>
    match decodeOp code with
    | .ok i => .ok (i, rest)
    | .error e => .error e

/-- The code of an operation, from the table of R80. -/
def opCode : Instr → Byte
  | .idNumeric => 0x01
  | .idIsExt => 0x02
  | .idIsErr => 0x03
  | .idIsRtr => 0x04
  | .idErrCause => 0x05
  | .idPack => 0x06
  | .vRawId => 0x10
  | .vId => 0x11
  | .vFlags => 0x12
  | .vDlen => 0x13
  | .vBase => 0x14
  | .vSize => 0x15
  | .vIsFd => 0x16
  | .vIsExt => 0x17
  | .vIsErr => 0x18
  | .vErrCause => 0x19
  | .vIsRtr => 0x1A
  | .vCopyBuf => 0x1B
  | .vCopyArr => 0x1C
  | .vRegion => 0x1D
  | .decode => 0x20
  | .encode => 0x21
  | .equals => 0x30
  | .hash => 0x31
  | .render => 0x32

/-- The code word of an operation: one byte, with no operand in it (R81). -/
def encode (i : Instr) : List Byte := [opCode i]

/-- The first code byte of the bits `w`, of which `nbits` are given and the rest are 0. -/
def tableCode (nbits w : Nat) : Byte := BitVec.ofNat 8 (w % 2 ^ nbits)

/-- The operation that `decode` reads from the bits `w` of an opcode-table row of `nbits` bits. -/
def decodeTableWord (nbits w : Nat) : Option Instr :=
  match decode [tableCode nbits w] with
  | .ok (i, _) => some i
  | .error _ => none

end Sys2Proof
end

