-- ==== Sys2Proof/Machine/State.lean ====
section
/-! DEFINITION. The state of the machine as plain data: the storages, the live descriptors and the fault mark (10_state.md), the
operation interface (R32), and the host agent's program, statement index and slots (R90). -/

namespace Sys2Proof.Machine

/-- The bytes of one storage, as (address, byte) pairs in canonical form: addresses strictly rising, no listed byte 0. An
address that is not listed reads 0 (R162; log entry 2). -/
abbrev Memory := List Host.Cell

/-- A storage: a byte array of fixed capacity, a byte-addressed space of its own (R11, R22, R40). -/
structure Storage where
  /-- `cap(s)`. -/
  cap : Nat
  /-- `s[0 .. cap-1]`. -/
  mem : Memory
deriving DecidableEq, Repr

/-- A frame-view descriptor `View(s, base, size)` (R23). -/
structure View where
  /-- The storage handle `s`. -/
  storage : Nat
  /-- The frame's offset in the storage. -/
  base : Nat
  /-- `MTU` or `FD_MTU`. -/
  size : Nat
  /-- The model's own: tells a descriptor from another over the same region (R24, R165; log entry 3). -/
  tag : Nat
deriving DecidableEq, Repr

/-- A part of a result, and what a slot holds (R32, R85). -/
inductive Value where
  /-- A 1-bit value. -/
  | bool (b : Bool)
  /-- An 8-bit value. -/
  | byte (b : Byte)
  /-- A 32-bit value. -/
  | word (w : Word)
  /-- A natural. -/
  | nat (n : Nat)
  /-- A storage handle. -/
  | storage (h : Nat)
  /-- A frame-view descriptor. -/
  | view (v : View)
  /-- A byte list (R85): written out, or the bytes a HOST_READ gave the host (R50). -/
  | bytes (l : List Byte)
  /-- A string, as its characters. -/
  | text (t : List Char)
  /-- The status of a failed operation, written `!<ErrorName>` (R85). -/
  | failed (status : BitVec 3)
deriving DecidableEq, Repr

/-- The operand ports of the operation interface (R32). -/
inductive Port where
  | raw | packExt | packRtr | packErr | packValue | view | view2 | s | base | limit | id | flags | src | offset | length | dst | dpos | dcap
deriving DecidableEq, Repr

/-- An event that the sticky fault mark records (R30). -/
inductive FaultEvent where
  /-- OutOfContract: a host write into the region of a live descriptor (R206 a), with the write's first address. DESIGN CHOICE: R206
  says "the storage and the address" and not which address (log entry 13). -/
  | hostWrite (storage addr : Nat)
  /-- OutOfContract: a payload copy found the region's data length outside its bounds (R206 b, R140). -/
  | brokenSpan (v : View)
  /-- OutOfContract: a payload copy's destination overlaps a live region (R206 c, R140), with the destination's first address.
  DESIGN CHOICE, as for a host write (log entry 13). -/
  | liveDestination (storage addr : Nat)
  /-- OutOfContract: a memory primitive used outside a storage (R11). -/
  | outsideStorage (storage addr : Nat)
  /-- IllegalOperation: an unassigned operation code (R82). -/
  | illegalOp (code : Byte)
  /-- IllegalOperation: a view operand that is not live (R24, R83). -/
  | illegalView (v : View)
  /-- IllegalOperation: a storage operand that names no storage (R83). -/
  | illegalStorage (h : Nat)
  /-- IllegalOperation: an ill-formed DECODE region operand (R83, R156). -/
  | illegalRegion (h base limit : Nat)
  /-- IllegalOperation: a value that its port cannot hold: no descriptor on a view port, no storage on a storage port, no natural of a
  region on its port (R83, R207), or no number of the port's width on another (93_implementation_defined.md; log entry 14). -/
  | illegalOperand (p : Port) (v : Value)
  /-- IllegalOperation: a port of the operation's format given two operands, where it holds one value (R32;
  93_implementation_defined.md; log entry 14). -/
  | repeatedOperand (p : Port)
deriving DecidableEq, Repr

/-- An error result: returned to the host, and the run goes on (R200 to R205). -/
inductive ErrorResult where
  /-- InvalidLength, with the remaining length (R201). -/
  | invalidLength (size : Nat)
  /-- PayloadTooLong, with the declared length (R202). -/
  | payloadTooLong (length : Nat)
  /-- BufferOverflow, with the data-length byte (R203). -/
  | bufferOverflow (length : Nat)
  /-- SourceOutOfRange, with `(offset, length)` (R204). -/
  | sourceOutOfRange (offset length : Nat)
  /-- DestinationOutOfRange, with `dst` (R205). -/
  | destinationOutOfRange (dst : Nat)
deriving DecidableEq, Repr

/-- How an operation fails: what `raise E(info)` gives (R12, R200). -/
inductive Failure where
  /-- An error result. -/
  | error (e : ErrorResult)
  /-- A sticky model fault. -/
  | fault (e : FaultEvent)
deriving DecidableEq, Repr

/-- What stands on the ports (R32). -/
structure Ports where
  /-- The operation code `op[7:0]`. -/
  op : Byte
  /-- `raw[31:0]`. -/
  raw : Word
  /-- `pack_ext`. -/
  packExt : Bool
  /-- `pack_rtr`. -/
  packRtr : Bool
  /-- `pack_err`. -/
  packErr : Bool
  /-- `pack_value[31:0]`. -/
  packValue : Word
  /-- `view`. -/
  view : View
  /-- `view2`. -/
  view2 : View
  /-- DECODE's storage handle. -/
  s : Nat
  /-- DECODE's region base. -/
  base : Nat
  /-- DECODE's region limit. -/
  limit : Nat
  /-- ENCODE's identifier word. -/
  id : Word
  /-- ENCODE's FD flags byte. -/
  flags : Byte
  /-- ENCODE's payload source storage. -/
  src : Nat
  /-- ENCODE's payload source offset. -/
  offset : Nat
  /-- ENCODE's payload length. -/
  length : Nat
  /-- A copy's destination storage. -/
  dst : Nat
  /-- A copy's destination position. -/
  dpos : Nat
  /-- A copy's destination capacity. -/
  dcap : Nat
deriving DecidableEq, Repr

/-- An operand of a statement: a value written out, or the name of an earlier slot (R85). -/
inductive Operand where
  | lit (v : Value)
  | slot (n : Nat)
deriving DecidableEq, Repr

/-- A statement of a host program (R85, R90): the issue of an operation, or a host action (R50). Slots are named by numbers. -/
inductive Statement where
  /-- `(<slot>, …) = <op> name=value, …`; no slot discards the result. -/
  | issue (dests : List Nat) (code : Byte) (args : List (Port × Operand))
  /-- SUPPLY(cap, bytes): a new storage, its handle in the slot. -/
  | supply (dest : Option Nat) (cap bytes : Operand)
  /-- HOST_READ(s, a, n): the bytes in the slot. -/
  | hostRead (dest : Option Nat) (s a n : Operand)
  /-- HOST_WRITE(s, a, bytes). -/
  | hostWrite (s a bytes : Operand)
  /-- DROP(v). -/
  | drop (v : Operand)
deriving DecidableEq, Repr

/-- Why the machine stops with a fault. -/
inductive Fault where
  /-- Raised by the step of a machine whose fault mark is not empty: the run ended in a fault stop (R30, R90), and what the real
  block does then is not said (R241). Safe: nothing is claimed of what follows. -/
  | runStopped (first : FaultEvent)
  /-- Raised by ENCODE when its own re-validation fails, which 93_implementation_defined.md requires to be a fault; R163 says that
  it never happens. Safe. -/
  | factoryBug (f : Failure)
deriving DecidableEq, Repr

/-- Why a step has no meaning. -/
inductive Refusal where
  /-- An operation that exec gives no meaning. Safe. -/
  | notModelled (mnemonic : String)
  /-- Raised by the step of an issue whose slots are not as many as the result's parts, or repeat (R85 syntax). Safe. -/
  | slotCount
  /-- Raised by the step of an issue that does not present a port of the operation's format (R81). Safe. -/
  | portMissing (p : Port)
  /-- Raised by the step of a statement that reads a slot nothing was put in (R85 "an earlier slot"). Safe. -/
  | slotUnset (n : Nat)
  /-- Raised by the step of a statement that reads a failed statement's slot, which R90 forbids. Safe. -/
  | slotFailed (n : Nat)
  /-- Raised by the step of a host action whose operand is of another kind (R50). Safe. -/
  | actionKind
  /-- Raised by the step of a SUPPLY with `len(bytes)` not `cap`, which R50 does not allow. Safe. -/
  | supplyLength
  /-- Raised by the step of a host action on a handle that names no storage, which R50 does not allow. Safe. -/
  | actionStorage (h : Nat)
  /-- Raised by the step of a DROP of a descriptor that is not live, which R50 does not allow. Safe. -/
  | dropNotLive (v : View)
deriving DecidableEq, Repr

/-- The whole machine. -/
structure State where
  /-- The parameters of R7 that no step changes. -/
  params : Params
  /-- The storages (R22); a storage's handle is its index (DESIGN CHOICE, log entry 12). -/
  storages : List Storage
  /-- The set of live descriptors (R24), in the order of construction. -/
  live : List View
  /-- The model's own: the next descriptor's tag (log entry 3). -/
  nextTag : Nat
  /-- The sticky fault mark: every event recorded, in order (R30). -/
  fault : List FaultEvent
  /-- What stands on the interface's input ports (R32). -/
  ports : Ports
  /-- The `status` port of the last operation (R32, R200). -/
  status : BitVec 3
  /-- The `result` port of the last operation, part by part; no part after a failure (R12, R32). -/
  result : List Value
  /-- What the last operation's failure recorded (R211); nothing after an OK. -/
  info : Option Failure
  /-- The host program (R90). -/
  program : List Statement
  /-- The host's statement index (R21, R90). -/
  pc : Nat
  /-- The host's slots (R85), by rising name. -/
  slots : List (Nat × Value)
deriving DecidableEq, Repr

/-- A descriptor that is never live at reset: what a view port holds before any operation is presented (log entry 5). -/
def View.blank : View := ⟨0, 0, 0, 0⟩

/-- The ports before any operation is presented, where R230 gives them no meaning (log entry 5). -/
def Ports.reset : Ports where
  op := 0
  raw := 0
  packExt := false
  packRtr := false
  packErr := false
  packValue := 0
  view := View.blank
  view2 := View.blank
  s := 0
  base := 0
  limit := 0
  id := 0
  flags := 0
  src := 0
  offset := 0
  length := 0
  dst := 0
  dpos := 0
  dcap := 0

/-- The machine right after reset (R31, R230): `live` and `fault` empty, no storage, the constants at their values. -/
def State.reset : State where
  params := Config.params
  storages := []
  live := []
  nextTag := 0
  fault := []
  ports := Ports.reset
  status := 0
  result := []
  info := none
  program := []
  pc := 0
  slots := []

end Sys2Proof.Machine
end

