-- ==== Sys2Proof/Machine/Ops.lean ====
section
/-! DEFINITION. The named operations over memory, storages, descriptors and the interface: every read and write of state goes
through them. Reporting a failure, the block's only exception, is the one operation `State.raise` (60_exceptions.md R211). -/

namespace Sys2Proof.Machine

/-! ### Memory in canonical form -/

/-- The byte at an address; an address not listed reads 0 (log entry 2). -/
def Memory.get : Memory → Nat → Byte
  | [], _ => 0
  | (k, c) :: rest, a => if a = k then c else Memory.get rest a

/-- One byte written, the canonical form kept: a 0 is not listed. -/
def Memory.put : Memory → Nat → Byte → Memory
  | [], a, b => if b = 0 then [] else [(a, b)]
  | (k, c) :: rest, a, b =>
    if a < k then
      if b = 0 then (k, c) :: rest else (a, b) :: (k, c) :: rest
    else if a = k then
      if b = 0 then rest else (a, b) :: rest
    else (k, c) :: Memory.put rest a b

/-- The bytes at `n` consecutive addresses. -/
def Memory.readBytes (m : Memory) (a : Nat) : Nat → List Byte
  | 0 => []
  | n + 1 => m.get a :: Memory.readBytes m (a + 1) n

/-- A list of bytes written at consecutive addresses. -/
def Memory.writeBytes (m : Memory) (a : Nat) : List Byte → Memory
  | [] => m
  | b :: rest => Memory.writeBytes (m.put a b) (a + 1) rest

/-- Addresses rise strictly from `lo` on, and no listed byte is 0. -/
def Memory.wfFrom : Nat → Memory → Bool
  | _, [] => true
  | lo, (k, c) :: rest => decide (lo ≤ k) && decide (c ≠ 0) && Memory.wfFrom (k + 1) rest

/-- The canonical form. -/
def Memory.wf (m : Memory) : Bool := Memory.wfFrom 0 m

/-- Every listed address lies below the capacity. -/
def Memory.below (cap : Nat) (m : Memory) : Bool := m.all (fun c => decide (c.1 < cap))

/-- A storage's bytes are canonical and lie inside its capacity. -/
def Storage.wf (st : Storage) : Bool := st.mem.wf && st.mem.below st.cap

/-- A storage of the given capacity that holds the bytes from address 0 on, and 0 after them (R50 SUPPLY, R162). -/
def Storage.ofBytes (cap : Nat) (bytes : List Byte) : Storage := ⟨cap, Memory.writeBytes [] 0 bytes⟩

/-! ### Byte order -/

/-- `Word32([b0, b1, b2, b3])` (R42). -/
def word32 (e : Endian) (b0 b1 b2 b3 : Byte) : Word :=
  match e with
  | .little => b0.zeroExtend 32 ||| b1.zeroExtend 32 <<< 8 ||| b2.zeroExtend 32 <<< 16 ||| b3.zeroExtend 32 <<< 24
  | .big => b3.zeroExtend 32 ||| b2.zeroExtend 32 <<< 8 ||| b1.zeroExtend 32 <<< 16 ||| b0.zeroExtend 32 <<< 24

/-- `Bytes32(w)`: the bytes that `word32` assembles to `w` (R42). -/
def bytes32 (e : Endian) (w : Word) : List Byte :=
  match e with
  | .little => [w.extractLsb' 0 8, w.extractLsb' 8 8, w.extractLsb' 16 8, w.extractLsb' 24 8]
  | .big => [w.extractLsb' 24 8, w.extractLsb' 16 8, w.extractLsb' 8 8, w.extractLsb' 0 8]

/-! ### Storages -/

/-- `cap(s)`; a handle that names no storage has no byte. -/
def State.cap (s : State) (h : Nat) : Nat :=
  match s.storages[h]? with
  | some st => st.cap
  | none => 0

/-- The byte at an address of a storage, where there is one: the model's read of one byte. -/
def State.byteAt (s : State) (h a : Nat) : Option Byte :=
  match s.storages[h]? with
  | some st => if a < st.cap then some (st.mem.get a) else none
  | none => none

/-- What `f` gives of a storage in which the `n` bytes from `a` on exist; `OutOfContract` where they do not (R11). -/
def State.withRoom {α : Type} (s : State) (h a n : Nat) (f : Storage → α) : Except Failure α :=
  match s.storages[h]? with
  | some st => if a + n ≤ st.cap then .ok (f st) else .error (.fault (.outsideStorage h a))
  | none => .error (.fault (.outsideStorage h a))

/-- `MemRead(s:a, n)` (R11). -/
def State.memRead (s : State) (h a n : Nat) : Except Failure (List Byte) :=
  s.withRoom h a n (fun st => st.mem.readBytes a n)

/-- `MemRead(s:a, 1)[0]` (R11, R74). -/
def State.readByte (s : State) (h a : Nat) : Except Failure Byte :=
  s.withRoom h a 1 (fun st => st.mem.get a)

/-- `Word32(MemRead(s:a, 4))`, in the order `HOST_ENDIAN` (R11, R42). -/
def State.readWord (s : State) (h a : Nat) : Except Failure Word :=
  s.withRoom h a 4 (fun st =>
    word32 s.params.hostEndian (st.mem.get a) (st.mem.get (a + 1)) (st.mem.get (a + 2)) (st.mem.get (a + 3)))

/-- A storage's bytes changed; its capacity is fixed (R11, R22). -/
def State.setStorage (s : State) (h : Nat) (st : Storage) : State := { s with storages := s.storages.set h st }

/-- `MemWrite(s:a, n, v)` with `n` the bytes' number (R11). -/
def State.memWrite (s : State) (h a : Nat) (bytes : List Byte) : Except Failure State :=
  s.withRoom h a bytes.length (fun st => s.setStorage h ⟨st.cap, st.mem.writeBytes a bytes⟩)

/-- A new storage (R22, R162). DESIGN CHOICE: its handle, of which the spec gives no value, is the number of storages before it (log
entry 12). -/
def State.addStorage (s : State) (st : Storage) : State := { s with storages := s.storages ++ [st] }

/-! ### Live descriptors -/

/-- A descriptor made live (R24, R155), and the next tag moved on. -/
def State.addLive (s : State) (v : View) : State := { s with live := s.live ++ [v], nextTag := s.nextTag + 1 }

/-- A descriptor's lifetime ended (R50 DROP). -/
def State.dropLive (s : State) (v : View) : State := { s with live := s.live.filter (fun w => decide (w ≠ v)) }

/-- The `n` bytes of storage `h` from `a` on meet the descriptor's region (R49, R140). -/
def View.meets (v : View) (h a n : Nat) : Bool :=
  decide (v.storage = h) && decide (0 < n) && decide (a < v.base + v.size) && decide (v.base < a + n)

/-- The `n` bytes of storage `h` from `a` on meet the region of some live descriptor (R50, R140). -/
def State.meetsLive (s : State) (h a n : Nat) : Bool := s.live.any (fun v => v.meets h a n)

/-! ### The interface -/

/-- The status code of an error result (R200). -/
def ErrorResult.code : ErrorResult → BitVec 3
  | .invalidLength _ => 1
  | .payloadTooLong _ => 2
  | .bufferOverflow _ => 3
  | .sourceOutOfRange _ _ => 4
  | .destinationOutOfRange _ => 5

/-- The status code of a model fault (R200, R206, R207). -/
def FaultEvent.code : FaultEvent → BitVec 3
  | .hostWrite _ _ => 6
  | .brokenSpan _ => 6
  | .liveDestination _ _ => 6
  | .outsideStorage _ _ => 6
  | .illegalOp _ => 7
  | .illegalView _ => 7
  | .illegalStorage _ => 7
  | .illegalRegion _ _ _ => 7
  | .illegalOperand _ _ => 7
  | .repeatedOperand _ => 7

/-- The status code of a failure (R200). -/
def Failure.code : Failure → BitVec 3
  | .error e => e.code
  | .fault e => e.code

/-- An event recorded in the sticky fault mark (R30). -/
def State.record (s : State) (e : FaultEvent) : State := { s with fault := s.fault ++ [e] }

/-- `return v`: status OK and the result's parts (R12). -/
def State.answer (s : State) (parts : List Value) : State := { s with status := 0, result := parts, info := none }

/-- `raise E(info)`: the status and the recorded information, no result, nothing else changed but that a model fault is added to
the fault mark (R12, R211). The block has no other exception, and nothing to return from (R212). -/
def State.raise (s : State) (f : Failure) : State :=
  let t := { s with status := f.code, result := [], info := some f }
  match f with
  | .error _ => t
  | .fault e => t.record e

/-- The end of an operation that changes nothing but the interface. -/
def State.conclude (s : State) : Except Failure (List Value) → Host.Outcome State Fault Refusal
  | .ok parts => .next (s.answer parts)
  | .error f => .next (s.raise f)

/-- The end of an operation that changes the state: the new state with the result, or the old one with the failure (R211). -/
def State.commit (s : State) : Except Failure (State × List Value) → Host.Outcome State Fault Refusal
  | .ok (t, parts) => .next (t.answer parts)
  | .error f => .next (s.raise f)

/-- A view operation: refused where its descriptor is not live (R24, R120), else what `f` reads of it. -/
def State.onView (s : State) (f : View → Except Failure (List Value)) : Host.Outcome State Fault Refusal :=
  s.conclude (if s.ports.view ∈ s.live then f s.ports.view else .error (.fault (.illegalView s.ports.view)))

end Sys2Proof.Machine
end

