-- ==== Sys2Proof/Machine/Flags.lean ====
section
/-! DEFINITION. The flag computations: the identifier word's flags and fields (40_identifier_codec.md), and the FD classification
with the effective maximum (41_frame_view.md R130, R131). Derived on every use, never stored (10_state.md R29). -/

namespace Sys2Proof.Machine

/-- ID_IS_EXT's test (R101). -/
def idIsExt (p : Params) (raw : Word) : Bool := raw &&& p.effFlag != 0

/-- ID_IS_RTR's test (R102). -/
def idIsRtr (p : Params) (raw : Word) : Bool := raw &&& p.rtrFlag != 0

/-- ID_IS_ERR's test (R103). -/
def idIsErr (p : Params) (raw : Word) : Bool := raw &&& p.errFlag != 0

/-- ID_NUMERIC's extraction (R72, R104). -/
def idNumeric (p : Params) (raw : Word) : Word :=
  if raw &&& p.effFlag != 0 then raw &&& p.effMask else raw &&& p.sffMask

/-- ID_ERR_CAUSE's extraction, whatever the ERR bit holds (R73, R105). -/
def idErrCause (p : Params) (raw : Word) : Word := raw &&& p.errMask

/-- The mask that ID_PACK puts on its value (R106). -/
def packMask (p : Params) (ext err : Bool) : Word :=
  if err then p.errMask else if ext then p.effMask else p.sffMask

/-- ID_PACK's composition (R106). -/
def idPack (p : Params) (ext rtr err : Bool) (value : Word) : Word :=
  (if ext then p.effFlag else 0) ||| (if rtr then p.rtrFlag else 0) ||| (if err then p.errFlag else 0) |||
    (value &&& packMask p ext err)

/-- `isFdFrame` of a flags byte and a data-length byte (R130). -/
def fdClass (flags dlen : Byte) : Bool := flags != 0 || decide (Config.maxDataLength < dlen.toNat)

/-- `effectiveMaxDataLength` of a flags byte and a data-length byte (R131). -/
def effMaxLength (flags dlen : Byte) : Nat :=
  if fdClass flags dlen then Config.maxFdDataLength else Config.maxDataLength

end Sys2Proof.Machine
end

