-- ==== Sys2Proof/Machine/Codec.lean ====
section
/-! DEFINITION. The Identifier Codec operations (40_identifier_codec.md): total, pure, status always OK (R100). -/

namespace Sys2Proof.Machine

/-- ID_NUMERIC (R104). -/
def execIdNumeric (s : State) : Host.Outcome State Fault Refusal :=
  s.conclude (.ok [.word (idNumeric s.params s.ports.raw)])

/-- ID_IS_EXT (R101). -/
def execIdIsExt (s : State) : Host.Outcome State Fault Refusal :=
  s.conclude (.ok [.bool (idIsExt s.params s.ports.raw)])

/-- ID_IS_ERR (R103). -/
def execIdIsErr (s : State) : Host.Outcome State Fault Refusal :=
  s.conclude (.ok [.bool (idIsErr s.params s.ports.raw)])

/-- ID_IS_RTR (R102). -/
def execIdIsRtr (s : State) : Host.Outcome State Fault Refusal :=
  s.conclude (.ok [.bool (idIsRtr s.params s.ports.raw)])

/-- ID_ERR_CAUSE (R105). -/
def execIdErrCause (s : State) : Host.Outcome State Fault Refusal :=
  s.conclude (.ok [.word (idErrCause s.params s.ports.raw)])

/-- ID_PACK (R106). -/
def execIdPack (s : State) : Host.Outcome State Fault Refusal :=
  s.conclude (.ok [.word (idPack s.params s.ports.packExt s.ports.packRtr s.ports.packErr s.ports.packValue)])

end Sys2Proof.Machine
end

