-- ==== Sys2Proof/Machine/FrameView.lean ====
section
/-! DEFINITION. The Frame View operations (41_frame_view.md): field reads of the storage bytes as they are now (R48, R120), the
identifier delegations, the payload copies and the backing region. -/

namespace Sys2Proof.Machine

/-! ### Field reads shared by the operations -/

/-- The identifier word of a frame (R121). -/
def State.viewRawId (s : State) (v : View) : Except Failure Word := s.readWord v.storage (v.base + Config.offsetId)

/-- The flags byte of a frame (R123). -/
def State.viewFlags (s : State) (v : View) : Except Failure Byte := s.readByte v.storage (v.base + Config.offsetFlags)

/-- The data-length byte of a frame (R124). -/
def State.viewDlen (s : State) (v : View) : Except Failure Byte := s.readByte v.storage (v.base + Config.offsetDataLength)

/-- `isFdFrame`, from the current bytes (R130). -/
def State.viewIsFd (s : State) (v : View) : Except Failure Bool := do
  let flags ← s.viewFlags v
  let dlen ← s.viewDlen v
  return fdClass flags dlen

/-- The bytes of a frame's region (43_value_semantics.md `span`). -/
def State.viewSpan (s : State) (v : View) : Except Failure (List Byte) := s.memRead v.storage v.base v.size

/-- A view read that a codec function is applied to (R86). -/
def State.viewCodec (s : State) (f : Params → Word → Value) (v : View) : Except Failure (List Value) := do
  let raw ← s.viewRawId v
  return [f s.params raw]

/-! ### The operations -/

/-- V_RAW_ID (R121). -/
def execVRawId (s : State) : Host.Outcome State Fault Refusal := s.onView (s.viewCodec (fun _ raw => .word raw))

/-- V_ID (R122). -/
def execVId (s : State) : Host.Outcome State Fault Refusal := s.onView (s.viewCodec (fun p raw => .word (idNumeric p raw)))

/-- V_FLAGS (R123). -/
def execVFlags (s : State) : Host.Outcome State Fault Refusal :=
  s.onView (fun v => do
    let flags ← s.viewFlags v
    return [.byte flags])

/-- V_DLEN (R124). -/
def execVDlen (s : State) : Host.Outcome State Fault Refusal :=
  s.onView (fun v => do
    let dlen ← s.viewDlen v
    return [.byte dlen])

/-- V_BASE (R125). -/
def execVBase (s : State) : Host.Outcome State Fault Refusal := s.onView (fun v => .ok [.nat v.base])

/-- V_SIZE (R126). -/
def execVSize (s : State) : Host.Outcome State Fault Refusal := s.onView (fun v => .ok [.nat v.size])

/-- V_IS_FD (R130). -/
def execVIsFd (s : State) : Host.Outcome State Fault Refusal :=
  s.onView (fun v => do
    let fd ← s.viewIsFd v
    return [.bool fd])

/-- V_IS_EXT (R127). -/
def execVIsExt (s : State) : Host.Outcome State Fault Refusal := s.onView (s.viewCodec (fun p raw => .bool (idIsExt p raw)))

/-- V_IS_ERR (R128). -/
def execVIsErr (s : State) : Host.Outcome State Fault Refusal := s.onView (s.viewCodec (fun p raw => .bool (idIsErr p raw)))

/-- V_ERR_CAUSE (R129). -/
def execVErrCause (s : State) : Host.Outcome State Fault Refusal :=
  s.onView (s.viewCodec (fun p raw => .word (idErrCause p raw)))

/-- V_IS_RTR (R132). -/
def execVIsRtr (s : State) : Host.Outcome State Fault Refusal := s.onView (s.viewCodec (fun p raw => .bool (idIsRtr p raw)))

/-- A payload copy of a frame into `dst` at `dpos`, at most `dcap` bytes (R140): the changed state and the number of bytes
copied. The checks stand in R140's order; the operands' own checks stand before them (R83). For a destination that meets a live
region the address recorded is its first (DESIGN CHOICE, log entry 13). -/
def State.payloadCopy (s : State) (v : View) (dst dpos dcap : Nat) : Except Failure (State × List Value) :=
  if v ∉ s.live then .error (.fault (.illegalView v))
  else if s.storages.length ≤ dst then .error (.fault (.illegalStorage dst))
  else do
    let dlen ← s.viewDlen v
    let flags ← s.viewFlags v
    let n := min dlen.toNat dcap
    if v.size < Config.headerLength + dlen.toNat ∨ effMaxLength flags dlen < dlen.toNat then .error (.fault (.brokenSpan v))
    else if s.cap dst < dpos + n then .error (.error (.destinationOutOfRange dst))
    else if s.meetsLive dst dpos n then .error (.fault (.liveDestination dst dpos))
    else do
      let bytes ← s.memRead v.storage (v.base + Config.offsetData) n
      let t ← s.memWrite dst dpos bytes
      return (t, [.nat n])

/-- V_COPY_BUF (R141). -/
def execVCopyBuf (s : State) : Host.Outcome State Fault Refusal :=
  s.commit (s.payloadCopy s.ports.view s.ports.dst s.ports.dpos s.ports.dcap)

/-- V_COPY_ARR, with `dcap` the triple's length (R142). -/
def execVCopyArr (s : State) : Host.Outcome State Fault Refusal :=
  s.commit (s.payloadCopy s.ports.view s.ports.dst s.ports.dpos s.ports.dcap)

/-- V_REGION (R143). -/
def execVRegion (s : State) : Host.Outcome State Fault Refusal :=
  s.onView (fun v => .ok [.storage v.storage, .nat v.base, .nat v.size])

end Sys2Proof.Machine
end

