-- ==== Sys2Proof/Machine/Factory.lean ====
section
/-! DEFINITION. The Frame Factory and Validator operations (42_frame_factory.md): DECODE and ENCODE, both ending in `validate`. -/

namespace Sys2Proof.Machine

/-- VALIDATE(s, base, limit) (R151): the checks of R152, R153 and R154 in their order, and on success the provisional view,
which the caller makes live (R155). -/
def State.validate (s : State) (h base limit : Nat) : Except Failure View :=
  let size := limit - base
  let p : View := ⟨h, base, size, s.nextTag⟩
  if size ≠ Config.mtu ∧ size ≠ Config.fdMtu then .error (.error (.invalidLength size))
  else do
    let dlen ← s.viewDlen p
    let flags ← s.viewFlags p
    if effMaxLength flags dlen < dlen.toNat then .error (.error (.payloadTooLong dlen.toNat))
    else if limit < base + Config.headerLength + dlen.toNat then .error (.error (.bufferOverflow dlen.toNat))
    else return p

/-- A DECODE region operand is well formed: a storage, and `base ≤ limit ≤ cap(s)` (R83, R156). -/
def State.regionOk (s : State) (h base limit : Nat) : Bool :=
  decide (h < s.storages.length) && decide (base ≤ limit) && decide (limit ≤ s.cap h)

/-- DECODE's work (R156): the state with the new live descriptor, and the descriptor. -/
def State.decodeRegion (s : State) (h base limit : Nat) : Except Failure (State × List Value) :=
  if s.regionOk h base limit then do
    let v ← s.validate h base limit
    return (s.addLive v, [.view v])
  else .error (.fault (.illegalRegion h base limit))

/-- DECODE (R156). -/
def execDecode (s : State) : Host.Outcome State Fault Refusal :=
  s.commit (s.decodeRegion s.ports.s s.ports.base s.ports.limit)

/-- The size of an encoded frame's region, by the payload length alone (R71, R161). -/
def encodeSize (length : Nat) : Nat := if length ≤ Config.maxDataLength then Config.mtu else Config.fdMtu

/-- The bytes that ENCODE writes from offset 0 on: identifier, length, flags, padding, payload (R75, R162). -/
def frameBytes (e : Endian) (id : Word) (flags : Byte) (payload : List Byte) : List Byte :=
  bytes32 e id ++ [BitVec.ofNat 8 payload.length, flags, 0, 0] ++ payload

/-- ENCODE's argument checks, and the payload it reads (R83, R160, R164). -/
def State.encodePayload (s : State) (src offset length : Nat) : Except Failure (List Byte) :=
  if s.storages.length ≤ src then .error (.fault (.illegalStorage src))
  else if s.cap src < offset + length then .error (.error (.sourceOutOfRange offset length))
  else if Config.maxFdDataLength < length then .error (.error (.payloadTooLong length))
  else s.memRead src offset length

/-- The state with ENCODE's new storage, zero-filled and then written, at the next handle (R162). -/
def State.encodeStorage (s : State) (id : Word) (flags : Byte) (payload : List Byte) : State :=
  s.addStorage (Storage.ofBytes (encodeSize payload.length) (frameBytes s.params.hostEndian id flags payload))

/-- ENCODE (R160): a new storage, re-validated as a frame at base 0. A failing re-validation is a fault of the block (R163). -/
def execEncode (s : State) : Host.Outcome State Fault Refusal :=
  match s.encodePayload s.ports.src s.ports.offset s.ports.length with
  | .error f => .next (s.raise f)
  | .ok payload =>
    let t := s.encodeStorage s.ports.id s.ports.flags payload
    match t.validate s.storages.length 0 (encodeSize payload.length) with
    | .error f => .fault (.factoryBug f)
    | .ok v => .next ((t.addLive v).answer [.storage s.storages.length, .view v])

end Sys2Proof.Machine
end

