-- ==== Sys2Proof/Machine/Text.lean ====
section
/-! DEFINITION. The diagnostic text of a frame (43_value_semantics.md R185, R186): what the law fixes is built here, what it leaves
open comes from Config. -/

namespace Sys2Proof.Machine

/-- The digits of `n` in a base, most significant first, at most `fuel + 1` of them; no leading zero. -/
def digitsOf (base : Nat) : Nat → Nat → List Nat → List Nat
  | 0, n, acc => n % base :: acc
  | fuel + 1, n, acc => if n < base then n :: acc else digitsOf base fuel (n / base) (n % base :: acc)

/-- The character of a digit below 16. -/
def digitChar (upper : Bool) (d : Nat) : Char :=
  if d < 10 then Char.ofNat (48 + d) else if upper then Char.ofNat (55 + d) else Char.ofNat (87 + d)

/-- `hex(x)`: no prefix, no leading zeros, `hex(0) = "0"` (R186). A 32-bit word has at most 8 digits. -/
def hexText (p : Params) (n : Nat) : List Char := (digitsOf 16 7 n []).map (digitChar p.renderHexUpper)

/-- `hexb(b)`: a payload byte, with two digits where `RENDER_BYTE_PAD` says so (R186). -/
def hexByteText (p : Params) (b : Byte) : List Char :=
  if p.renderBytePad && decide (b.toNat < 16) then '0' :: hexText p b.toNat else hexText p b.toNat

/-- `dec(x)` (R186). A byte has at most 3 digits. -/
def decText (n : Nat) : List Char := (digitsOf 10 2 n []).map (digitChar false)

/-- `join(", ", l)` (R186). -/
def joinText : List (List Char) → List Char
  | [] => []
  | [t] => t
  | t :: u :: rest => t ++ [',', ' '] ++ joinText (u :: rest)

/-- The text that R186 fixes for a frame that is not FD-classified. -/
def frameText (p : Params) (id : Word) (flags dlen : Byte) (payload : List Byte) : List Char :=
  ['C', 'a', 'n', 'F', 'r', 'a', 'm', 'e', '(', 'I', 'D', '='] ++ hexText p id.toNat ++
  [',', ' ', 'F', 'L', 'A', 'G', 'S', '='] ++ hexText p flags.toNat ++
  [',', ' ', 'L', 'E', 'N', '='] ++ decText dlen.toNat ++
  [',', ' ', 'D', 'A', 'T', 'A', '=', '['] ++ joinText (payload.map (hexByteText p)) ++ [']', ')']

/-- A text without its line breaks: `renderFrame`'s text is one line (R186). -/
def oneLine (t : List Char) : List Char := t.filter (fun c => c != '\n')

/-- The identifier word of a span (R42, R63). -/
def spanRawId (e : Endian) (span : List Byte) : Word :=
  word32 e (span.getD 0 0) (span.getD 1 0) (span.getD 2 0) (span.getD 3 0)

/-- `renderFrame` of a descriptor and its region's bytes, for any renderer that obeys R186: a frame that is not FD-classified has
the fixed text with open text on either side, an FD frame has open text; all of it one line. -/
def renderFrame (p : Params) (v : View) (span : List Byte) : List Char :=
  let dlen := span.getD Config.offsetDataLength 0
  let flags := span.getD Config.offsetFlags 0
  let payload := (span.drop Config.offsetData).take dlen.toNat
  if fdClass flags dlen then oneLine (Config.renderFd v.storage v.base v.size span)
  else
    oneLine (Config.renderBefore v.storage v.base v.size span) ++
    frameText p (idNumeric p (spanRawId p.hostEndian span)) flags dlen payload ++
    oneLine (Config.renderAfter v.storage v.base v.size span)

end Sys2Proof.Machine
end

