-- ==== Sys2Proof/Machine/Values.lean ====
section
/-! DEFINITION. The Value Semantics operations (43_value_semantics.md): EQUALS, HASH, RENDER, each over the whole span. -/

namespace Sys2Proof.Machine

/-- EQUALS's comparison of two frames: sizes, then every byte of the regions (R180). -/
def State.viewEquals (s : State) (v w : View) : Except Failure (List Value) :=
  if v.size ≠ w.size then return [.bool false]
  else do
    let a ← s.viewSpan v
    let b ← s.viewSpan w
    return [.bool (a == b)]

/-- EQUALS (R180): `view` is checked to be live before `view2` (log entry 9). -/
def execEquals (s : State) : Host.Outcome State Fault Refusal :=
  s.onView (fun v =>
    if s.ports.view2 ∈ s.live then s.viewEquals v s.ports.view2
    else .error (.fault (.illegalView s.ports.view2)))

/-- HASH (R182). -/
def execHash (s : State) : Host.Outcome State Fault Refusal :=
  s.onView (fun v => do
    let span ← s.viewSpan v
    return [.word (Config.frameHash span)])

/-- RENDER (R185). -/
def execRender (s : State) : Host.Outcome State Fault Refusal :=
  s.onView (fun v => do
    let span ← s.viewSpan v
    return [.text (renderFrame s.params v span)])

end Sys2Proof.Machine
end

