-- ==== Sys2Proof/Machine/Dispatch.lean ====
section
/-! DEFINITION. One arm per operation of 30_encoding.md R80. -/

namespace Sys2Proof.Machine

def exec (i : Instr) (s : State) : Host.Outcome State Fault Refusal :=
  match i with
  | .idNumeric => Sys2Proof.Machine.execIdNumeric s
  | .idIsExt => Sys2Proof.Machine.execIdIsExt s
  | .idIsErr => Sys2Proof.Machine.execIdIsErr s
  | .idIsRtr => Sys2Proof.Machine.execIdIsRtr s
  | .idErrCause => Sys2Proof.Machine.execIdErrCause s
  | .idPack => Sys2Proof.Machine.execIdPack s
  | .vRawId => Sys2Proof.Machine.execVRawId s
  | .vId => Sys2Proof.Machine.execVId s
  | .vFlags => Sys2Proof.Machine.execVFlags s
  | .vDlen => Sys2Proof.Machine.execVDlen s
  | .vBase => Sys2Proof.Machine.execVBase s
  | .vSize => Sys2Proof.Machine.execVSize s
  | .vIsFd => Sys2Proof.Machine.execVIsFd s
  | .vIsExt => Sys2Proof.Machine.execVIsExt s
  | .vIsErr => Sys2Proof.Machine.execVIsErr s
  | .vErrCause => Sys2Proof.Machine.execVErrCause s
  | .vIsRtr => Sys2Proof.Machine.execVIsRtr s
  | .vCopyBuf => Sys2Proof.Machine.execVCopyBuf s
  | .vCopyArr => Sys2Proof.Machine.execVCopyArr s
  | .vRegion => Sys2Proof.Machine.execVRegion s
  | .decode => Sys2Proof.Machine.execDecode s
  | .encode => Sys2Proof.Machine.execEncode s
  | .equals => Sys2Proof.Machine.execEquals s
  | .hash => Sys2Proof.Machine.execHash s
  | .render => Sys2Proof.Machine.execRender s

end Sys2Proof.Machine
end

