-- ==== Sys2Proof/Machine/Operands.lean ====
section
/-! DEFINITION. The operand forms: which ports an operation's format names (30_encoding.md R81), how a statement's operands are
read from literals and slots and put on the ports (R32, R85), and what is wrong with an ill-formed statement. -/

namespace Sys2Proof.Machine

/-- The operation formats of R81. -/
inductive Format where
  | K | P | V | VC | VV | D | E
deriving DecidableEq, Repr

/-- The format of an operation (R80). -/
def formatOf : Instr → Format
  | .idNumeric => .K
  | .idIsExt => .K
  | .idIsErr => .K
  | .idIsRtr => .K
  | .idErrCause => .K
  | .idPack => .P
  | .vRawId => .V
  | .vId => .V
  | .vFlags => .V
  | .vDlen => .V
  | .vBase => .V
  | .vSize => .V
  | .vIsFd => .V
  | .vIsExt => .V
  | .vIsErr => .V
  | .vErrCause => .V
  | .vIsRtr => .V
  | .vCopyBuf => .VC
  | .vCopyArr => .VC
  | .vRegion => .V
  | .decode => .D
  | .encode => .E
  | .equals => .VV
  | .hash => .V
  | .render => .V

/-- The ports that a format names (R81). -/
def portsOf : Format → List Port
  | .K => [.raw]
  | .P => [.packExt, .packRtr, .packErr, .packValue]
  | .V => [.view]
  | .VC => [.view, .dst, .dpos, .dcap]
  | .VV => [.view, .view2]
  | .D => [.s, .base, .limit]
  | .E => [.id, .flags, .src, .offset, .length]

/-- How many parts an operation's result has (R80, R85). -/
def partsOf : Instr → Nat
  | .vRegion => 3
  | .encode => 2
  | _ => 1

/-- A value as a natural: bits, bytes and words unsigned (R10, R74); other values are no number. -/
def Value.number : Value → Option Nat
  | .bool b => some b.toNat
  | .byte b => some b.toNat
  | .word w => some w.toNat
  | .nat n => some n
  | .storage _ => none
  | .view _ => none
  | .bytes _ => none
  | .text _ => none
  | .failed _ => none

/-- A value as a number of `w` bits, where it fits. -/
def Value.bits (w : Nat) (v : Value) : Option (BitVec w) :=
  match Value.number v with
  | some n => if n < 2 ^ w then some (BitVec.ofNat w n) else none
  | none => none

/-- A value as a storage handle. -/
def Value.handle : Value → Option Nat
  | .storage h => some h
  | _ => none

/-- A value as a byte list. -/
def Value.byteList : Value → Option (List Byte)
  | .bytes l => some l
  | _ => none

/-- A value as a descriptor. -/
def Value.descriptor : Value → Option View
  | .view v => some v
  | _ => none

/-- One port given a value, where the value is of the port's kind and width (R32). -/
def Ports.put (p : Ports) (port : Port) (v : Value) : Option Ports :=
  match port with
  | .raw => (Value.bits 32 v).map (fun w => { p with raw := w })
  | .packExt => (Value.bits 1 v).map (fun w => { p with packExt := w == 1#1 })
  | .packRtr => (Value.bits 1 v).map (fun w => { p with packRtr := w == 1#1 })
  | .packErr => (Value.bits 1 v).map (fun w => { p with packErr := w == 1#1 })
  | .packValue => (Value.bits 32 v).map (fun w => { p with packValue := w })
  | .view => (Value.descriptor v).map (fun d => { p with view := d })
  | .view2 => (Value.descriptor v).map (fun d => { p with view2 := d })
  | .s => (Value.handle v).map (fun h => { p with s := h })
  | .base => (Value.number v).map (fun n => { p with base := n })
  | .limit => (Value.number v).map (fun n => { p with limit := n })
  | .id => (Value.bits 32 v).map (fun w => { p with id := w })
  | .flags => (Value.bits 8 v).map (fun w => { p with flags := w })
  | .src => (Value.handle v).map (fun h => { p with src := h })
  | .offset => (Value.number v).map (fun n => { p with offset := n })
  | .length => (Value.number v).map (fun n => { p with length := n })
  | .dst => (Value.handle v).map (fun h => { p with dst := h })
  | .dpos => (Value.number v).map (fun n => { p with dpos := n })
  | .dcap => (Value.number v).map (fun n => { p with dcap := n })

/-- What stands on a port, as a value. -/
def Ports.get (p : Ports) : Port → Value
  | .raw => .word p.raw
  | .packExt => .bool p.packExt
  | .packRtr => .bool p.packRtr
  | .packErr => .bool p.packErr
  | .packValue => .word p.packValue
  | .view => .view p.view
  | .view2 => .view p.view2
  | .s => .storage p.s
  | .base => .nat p.base
  | .limit => .nat p.limit
  | .id => .word p.id
  | .flags => .byte p.flags
  | .src => .storage p.src
  | .offset => .nat p.offset
  | .length => .nat p.length
  | .dst => .storage p.dst
  | .dpos => .nat p.dpos
  | .dcap => .nat p.dcap

/-- Every operand port, in R32's order. -/
def allPorts : List Port :=
  [.raw, .packExt, .packRtr, .packErr, .packValue, .view, .view2, .s, .base, .limit] ++
  [.id, .flags, .src, .offset, .length, .dst, .dpos, .dcap]

/-- The slot's value, where something was put in it. -/
def slotGet : List (Nat × Value) → Nat → Option Value
  | [], _ => none
  | (k, v) :: rest, n => if n = k then some v else slotGet rest n

/-- A value put in a slot; slots stay listed by rising name. -/
def slotPut : List (Nat × Value) → Nat → Value → List (Nat × Value)
  | [], n, v => [(n, v)]
  | (k, c) :: rest, n, v =>
    if n < k then (n, v) :: (k, c) :: rest
    else if n = k then (n, v) :: rest
    else (k, c) :: slotPut rest n v

/-- The value of an operand; a failed statement's slot is not read (R85, R90). -/
def operandValue (slots : List (Nat × Value)) : Operand → Except Refusal Value
  | .lit v => .ok v
  | .slot n =>
    match slotGet slots n with
    | none => .error (.slotUnset n)
    | some (.failed _) => .error (.slotFailed n)
    | some v => .ok v

/-- The values of the operands on the ports that a format names, in the order written; ports that it does not name are ignored, and
the operands on them not read (R81). -/
def readArgs (slots : List (Nat × Value)) (f : Format) : List (Port × Operand) → Except Refusal (List (Port × Value))
  | [] => .ok []
  | (port, o) :: rest =>
    if port ∈ portsOf f then
      match operandValue slots o with
      | .error r => .error r
      | .ok v =>
        match readArgs slots f rest with
        | .error r => .error r
        | .ok values => .ok ((port, v) :: values)
    else readArgs slots f rest

/-- Values put on their ports. A value that its port cannot hold, and a second value for one port, is an ill-formed operand,
IllegalOperation (R83, R207; log entries 9 and 14). -/
def latch : List (Port × Value) → Ports → Except FaultEvent Ports
  | [], p => .ok p
  | (port, v) :: rest, p =>
    if port ∈ rest.map Prod.fst then .error (.repeatedOperand port)
    else
      match Ports.put p port v with
      | none => .error (.illegalOperand port v)
      | some q => latch rest q

/-- The operands of a statement that presents on every port what already stands there. -/
def presentAll (p : Ports) : List (Port × Operand) := allPorts.map (fun port => (port, .lit (p.get port)))

/-- What is wrong with the form of an operation's issue (R81, R85): slots that are not as many as the result's parts or that
repeat, a port of the format not presented. -/
def issueProblem (i : Instr) (dests : List Nat) (args : List (Port × Operand)) : Option Refusal :=
  if (dests ≠ [] ∧ dests.length ≠ partsOf i) ∨ ¬ dests.Nodup then some .slotCount
  else
    match (portsOf (formatOf i)).find? (fun p => !(args.map Prod.fst).contains p) with
    | some p => some (.portMissing p)
    | none => none

/-- What is wrong with a statement's form. An issue of an unassigned code has none: the block refuses it (R82). -/
def statementProblem : Statement → Option Refusal
  | .issue dests code args =>
    match decodeOp code with
    | .ok i => issueProblem i dests args
    | .error _ => none
  | .supply _ _ _ => none
  | .hostRead _ _ _ _ => none
  | .hostWrite _ _ _ => none
  | .drop _ => none

end Sys2Proof.Machine
end

