-- ==== Sys2Proof/Machine/HostActions.lean ====
section
/-! DEFINITION. The host agent's side of a step: filling slots, moving the statement index (30_encoding.md R85, R90), and the host
actions of 20_memory.md R50. -/

namespace Sys2Proof.Machine

/-- Values put in slots, pairwise. -/
def slotPutAll (slots : List (Nat × Value)) : List Nat → List Value → List (Nat × Value)
  | n :: ns, v :: vs => slotPutAll (slotPut slots n v) ns vs
  | _, _ => slots

/-- What an operation's statement puts in its slots: the result's parts, or the status of a failed operation (R85, R90). DESIGN
CHOICE: R85 and R90 speak of one slot, and the status goes into every slot of a tuple (log entry 6). -/
def State.slotValues (s : State) (dests : List Nat) : List Value :=
  if s.status = 0 then s.result else dests.map (fun _ => .failed s.status)

/-- The slots changed. -/
def State.setSlots (s : State) (slots : List (Nat × Value)) : State := { s with slots := slots }

/-- The statement index after a statement: one further, but where the run has stopped at this statement (R90). -/
def State.advance (s : State) : State := if s.fault = [] then { s with pc := s.pc + 1 } else s

/-- The end of an operation's statement: its slots filled, the index moved. -/
def State.retire (s : State) (dests : List Nat) : State :=
  (s.setSlots (slotPutAll s.slots dests (s.slotValues dests))).advance

/-- The end of a host action that gives the host a value. -/
def State.give (s : State) (dest : Option Nat) (v : Value) : State :=
  match dest with
  | some n => (s.setSlots (slotPut s.slots n v)).advance
  | none => s.advance

/-- An operand of a host action as a storage handle that names a storage (R50). -/
def State.actionHandle (s : State) (o : Operand) : Except Refusal Nat :=
  match operandValue s.slots o with
  | .error r => .error r
  | .ok v =>
    match Value.handle v with
    | none => .error .actionKind
    | some h => if h < s.storages.length then .ok h else .error (.actionStorage h)

/-- An operand of a host action as a natural. -/
def State.actionNumber (s : State) (o : Operand) : Except Refusal Nat :=
  match operandValue s.slots o with
  | .error r => .error r
  | .ok v =>
    match Value.number v with
    | none => .error .actionKind
    | some n => .ok n

/-- An operand of a host action as a descriptor. -/
def State.actionView (s : State) (o : Operand) : Except Refusal View :=
  match operandValue s.slots o with
  | .error r => .error r
  | .ok v =>
    match Value.descriptor v with
    | none => .error .actionKind
    | some d => .ok d

/-- An operand of a host action as a byte list. -/
def State.actionBytes (s : State) (o : Operand) : Except Refusal (List Byte) :=
  match operandValue s.slots o with
  | .error r => .error r
  | .ok v =>
    match Value.byteList v with
    | none => .error .actionKind
    | some l => .ok l

/-- SUPPLY(cap, bytes): a new storage with those bytes (R50). -/
def hostSupply (dest : Option Nat) (cap : Nat) (bytes : List Byte) (s : State) : State :=
  (s.addStorage (Storage.ofBytes cap bytes)).give dest (.storage s.storages.length)

/-- HOST_READ(s, a, n): no effect on the block; the host has the bytes. Outside the storage it is the model fault of R11. -/
def hostRead (dest : Option Nat) (h a n : Nat) (s : State) : State :=
  match s.memRead h a n with
  | .ok bytes => s.give dest (.bytes bytes)
  | .error _ => (s.record (.outsideStorage h a)).advance

/-- HOST_WRITE(s, a, bytes): the bytes written, and OutOfContract recorded where they meet a live region (R50). The
address recorded is the write's first (DESIGN CHOICE, log entry 13). Outside the storage it is the model fault of R11, and nothing is written. -/
def hostWrite (h a : Nat) (bytes : List Byte) (s : State) : State :=
  match s.memWrite h a bytes with
  | .ok t => if s.meetsLive h a bytes.length then (t.record (.hostWrite h a)).advance else t.advance
  | .error _ => (s.record (.outsideStorage h a)).advance

/-- DROP(v) of a live descriptor (R50). -/
def hostDrop (v : View) (s : State) : State := (s.dropLive v).advance

end Sys2Proof.Machine
end

