-- ==== Sys2Proof/Machine/Run.lean ====
section
/-! DEFINITION. One statement of a host program (30_encoding.md R90): fetched at the statement index, checked for its form, and
run as one atomic step, an operation through the operation interface (R32) or a host action (R50). -/

namespace Sys2Proof.Machine

/-- The statement at the statement index; none after the last one (R90). -/
def State.fetch (s : State) : Option Statement := s.program[s.pc]?

/-- The code put on `op[7:0]` (R32). -/
def State.presentOp (s : State) (code : Byte) : State := { s with ports := { s.ports with op := code } }

/-- The operands and the code put on the ports (R32). -/
def State.present (s : State) (code : Byte) (ports : Ports) : State := { s with ports := { ports with op := code } }

/-- An issue that the block refuses before the operation begins: IllegalOperation, recorded, and nothing read or written (R82, R83). -/
def refuseIssue (dests : List Nat) (code : Byte) (e : FaultEvent) (s : State) : State :=
  ((s.presentOp code).raise (.fault e)).retire dests

/-- An operation issued (R32, R90): its operands put on the ports, the operation run, its slots filled. An unassigned code raises
IllegalOperation(op), whatever its operands (R82), and so does an operand that its port cannot hold or that is the port's second (R83). -/
def issue (dests : List Nat) (code : Byte) (args : List (Port × Operand)) (s : State) : Host.Outcome State Fault Refusal :=
  match decodeOp code with
  | .error _ => .next (refuseIssue dests code (.illegalOp code) s)
  | .ok i =>
    match readArgs s.slots (formatOf i) args with
    | .error r => .refused r
    | .ok values =>
      match latch values s.ports with
      | .error e => .next (refuseIssue dests code e s)
      | .ok ports =>
        match exec i (s.present code ports) with
        | .next t => .next (t.retire dests)
        | .fault f => .fault f
        | .refused r => .refused r

/-- A well-formed statement run. -/
def runForm (st : Statement) (s : State) : Host.Outcome State Fault Refusal :=
  match st with
  | .issue dests code args => issue dests code args s
  | .supply dest co bo =>
    match s.actionNumber co, s.actionBytes bo with
    | .ok cap, .ok bytes => if bytes.length = cap then .next (hostSupply dest cap bytes s) else .refused .supplyLength
    | .error r, _ => .refused r
    | _, .error r => .refused r
  | .hostRead dest so ao no =>
    match s.actionHandle so, s.actionNumber ao, s.actionNumber no with
    | .ok h, .ok a, .ok n => .next (hostRead dest h a n s)
    | .error r, _, _ => .refused r
    | _, .error r, _ => .refused r
    | _, _, .error r => .refused r
  | .hostWrite so ao bo =>
    match s.actionHandle so, s.actionNumber ao, s.actionBytes bo with
    | .ok h, .ok a, .ok bytes => .next (hostWrite h a bytes s)
    | .error r, _, _ => .refused r
    | _, .error r, _ => .refused r
    | _, _, .error r => .refused r
  | .drop vo =>
    match s.actionView vo with
    | .ok v => if v ∈ s.live then .next (hostDrop v s) else .refused (.dropNotLive v)
    | .error r => .refused r

/-- A statement run: refused by name where it is ill formed. -/
def runStatement (st : Statement) (s : State) : Host.Outcome State Fault Refusal :=
  match statementProblem st with
  | some r => .refused r
  | none => runForm st s

/-- One step of the machine. A recorded fault has stopped the run (R90); after the last statement nothing is presented and
nothing happens (log entry 6). -/
def runStep (s : State) : Host.Outcome State Fault Refusal :=
  match s.fault with
  | e :: _ => .fault (.runStopped e)
  | [] =>
    match s.fetch with
    | none => .next s
    | some st => runStatement st s

/-- A program with the statement at index `pc`; an index past its end is reached by repeating the statement. -/
def placeAt (program : List Statement) (pc : Nat) (st : Statement) : List Statement :=
  program.take pc ++ List.replicate (pc - program.length) st ++ st :: program.drop (pc + 1)

/-- The state with the issue of a code placed at the statement index; on every operand port it presents what stands there. -/
def placeIssue (s : State) (code : Byte) : State :=
  { s with program := placeAt s.program s.pc (.issue [] code (presentAll s.ports)) }

end Sys2Proof.Machine
end

