-- ==== Sys2Proof/Machine/Step.lean ====
section
/-! DEFINITION. The step of the machine, and the placing of one operation where the step fetches its next statement. -/

namespace Sys2Proof.Machine

/-- One statement of the host program (30_encoding.md R90). -/
def step (s : State) : Host.Outcome State Fault Refusal := runStep s

/-- The operation with the bits `w` placed at the statement index (log entry 6). -/
def State.withFetchWord (s : State) (nbits w : Nat) : State := placeIssue s (tableCode nbits w)

end Sys2Proof.Machine
end

