-- ==== Sys2Proof/Safety.lean ====
section
/-! DEFINITION. What counts as a safe run, and the invariants that claims use. -/

namespace Sys2Proof.Machine

/-- A run that no model fault has stopped (10_state.md R30, 30_encoding.md R90). -/
abbrev State.Clean (s : State) : Prop := s.fault = []

/-- The geometry of a descriptor: the first two invariants of R25. -/
abbrev View.Fits (v : View) (s : State) : Prop :=
  (v.size = Config.mtu ∨ v.size = Config.fdMtu) ∧ v.base + v.size ≤ s.cap v.storage

/-- The data length of a descriptor's region, as it is now: the last two invariants of R25. -/
def State.spanOk (s : State) (v : View) : Bool :=
  match s.byteAt v.storage (v.base + Config.offsetDataLength), s.byteAt v.storage (v.base + Config.offsetFlags) with
  | some dlen, some flags =>
    decide (dlen.toNat ≤ effMaxLength flags dlen) && decide (v.base + Config.headerLength + dlen.toNat ≤ v.base + v.size)
  | _, _ => false

/-- The invariants of live descriptors (R25): the geometry always, the data length as long as the host has honoured the ownership
contract, that is as long as no fault is recorded. -/
abbrev State.LiveInv (s : State) : Prop :=
  (∀ v ∈ s.live, v.Fits s) ∧ (s.Clean → ∀ v ∈ s.live, s.spanOk v = true)

/-- Every storage's bytes are in canonical form and inside its capacity (log entry 2). -/
abbrev State.MemWf (s : State) : Prop := ∀ st ∈ s.storages, st.wf = true

/-- Live descriptors have tags below the next one, strictly rising, so no two are equal (log entry 3). -/
abbrev State.TagsRise (s : State) : Prop :=
  (∀ v ∈ s.live, v.tag < s.nextTag) ∧ s.live.Pairwise (fun v w => v.tag < w.tag)

/-- The output ports tell one story: the status is the recorded failure's, or 0 with none; a failure gives no result; and a model
fault that was returned is in the fault mark (R12, R30, R200, R211). -/
def State.interfaceOk (s : State) : Bool :=
  match s.info with
  | none => decide (s.status = 0)
  | some (.error e) => decide (s.status = e.code) && decide (s.result = [])
  | some (.fault e) => decide (s.status = e.code) && decide (s.result = []) && decide (e ∈ s.fault)

/-! ### The words of the claims -/

/-- The flag and mask values of R7's table. -/
abbrev DefaultIds (p : Params) : Prop :=
  p.effFlag = 0x80000000 ∧ p.rtrFlag = 0x40000000 ∧ p.errFlag = 0x20000000 ∧
  p.sffMask = 0x000007FF ∧ p.effMask = 0x1FFFFFFF ∧ p.errMask = 0x1FFFFFFF

/-- The 231 codes that R82 lists. -/
abbrev Unassigned (code : Byte) : Prop :=
  code.toNat = 0x00 ∨ (0x07 ≤ code.toNat ∧ code.toNat ≤ 0x0F) ∨ (0x1E ≤ code.toNat ∧ code.toNat ≤ 0x1F) ∨
  (0x22 ≤ code.toNat ∧ code.toNat ≤ 0x2F) ∨ (0x33 ≤ code.toNat ∧ code.toNat ≤ 0xFF)

/-- `t` is `s` but for the output ports and the fault mark: no storage, descriptor, parameter, port or host state differs. -/
abbrev State.Keeps (s t : State) : Prop :=
  t.params = s.params ∧ t.storages = s.storages ∧ t.live = s.live ∧ t.nextTag = s.nextTag ∧ t.ports = s.ports ∧
  t.program = s.program ∧ t.pc = s.pc ∧ t.slots = s.slots

/-- The operation answers a next state with status OK and the result's parts, and changes nothing but the output ports. -/
abbrev Answers (i : Instr) (s : State) (parts : List Value) : Prop :=
  ∃ t, exec i s = .next t ∧ t.status = 0 ∧ t.result = parts ∧ t.info = none ∧ t.fault = s.fault ∧ s.Keeps t

/-- The operation answers a next state with the status code of a failure, no result and what the failure records, and changes
nothing but that a model fault is added to the fault mark (R211). -/
abbrev Raises (i : Instr) (s : State) (code : BitVec 3) (f : Failure) : Prop :=
  ∃ t, exec i s = .next t ∧ t.status = code ∧ t.result = [] ∧ t.info = some f ∧ s.Keeps t ∧
    t.fault = match f with
      | .error _ => s.fault
      | .fault e => s.fault ++ [e]

/-- A value as a number: a natural, or a word, byte or bit read unsigned (R10, R74). -/
abbrev IsNumber (v : Value) (n : Nat) : Prop :=
  v = .nat n ∨ (∃ w, v = .word w ∧ w.toNat = n) ∨ (∃ b, v = .byte b ∧ b.toNat = n) ∨ ∃ b, v = .bool b ∧ b.toNat = n

/-- A statement's operand is the value: written out, or standing in an earlier slot that holds no failed operation's status
(R85, R90). -/
abbrev State.Reads (s : State) (o : Operand) (v : Value) : Prop :=
  o = .lit v ∨ ∃ n, o = .slot n ∧ slotGet s.slots n = some v ∧ ∀ st, v ≠ .failed st

/-- A statement's operand is the number. -/
abbrev State.ReadsNumber (s : State) (o : Operand) (n : Nat) : Prop := ∃ v, s.Reads o v ∧ IsNumber v n

/-- A slot that an operand may not name: nothing was put in it, or a failed operation's status (R85, R90). -/
abbrev State.Unreadable (s : State) (n : Nat) : Prop :=
  slotGet s.slots n = none ∨ ∃ st, slotGet s.slots n = some (.failed st)

/-- A value that a port cannot hold (R32, R83; log entry 14). -/
abbrev Unfit (port : Port) (v : Value) : Prop :=
  match port with
  | .raw => ∀ n, IsNumber v n → 2 ^ 32 ≤ n
  | .packExt => ∀ n, IsNumber v n → 2 ≤ n
  | .packRtr => ∀ n, IsNumber v n → 2 ≤ n
  | .packErr => ∀ n, IsNumber v n → 2 ≤ n
  | .packValue => ∀ n, IsNumber v n → 2 ^ 32 ≤ n
  | .view => ∀ d, v ≠ .view d
  | .view2 => ∀ d, v ≠ .view d
  | .s => ∀ h, v ≠ .storage h
  | .base => ∀ n, ¬ IsNumber v n
  | .limit => ∀ n, ¬ IsNumber v n
  | .id => ∀ n, IsNumber v n → 2 ^ 32 ≤ n
  | .flags => ∀ n, IsNumber v n → 2 ^ 8 ≤ n
  | .src => ∀ h, v ≠ .storage h
  | .offset => ∀ n, ¬ IsNumber v n
  | .length => ∀ n, ¬ IsNumber v n
  | .dst => ∀ h, v ≠ .storage h
  | .dpos => ∀ n, ¬ IsNumber v n
  | .dcap => ∀ n, ¬ IsNumber v n

/-- A port that an issue gives more than one operand. -/
abbrev PresentedTwice (args : List (Port × Operand)) (port : Port) : Prop := 1 < (args.map Prod.fst).count port

/-- The end of an operation's statement, given the end of the operation: the slots filled and the index moved after a next state,
and a fault or a refusal handed on (R85, R90). -/
abbrev retired (dests : List Nat) : Host.Outcome State Fault Refusal → Host.Outcome State Fault Refusal
  | .next t => .next (t.retire dests)
  | .fault f => .fault f
  | .refused r => .refused r

/-- The Identifier Codec operations. -/
abbrev codecOps : List Instr := [.idNumeric, .idIsExt, .idIsErr, .idIsRtr, .idErrCause, .idPack]

/-- The operations of format V: the accessors, V_REGION, HASH and RENDER. -/
abbrev viewOps : List Instr :=
  [.vRawId, .vId, .vFlags, .vDlen, .vBase, .vSize, .vIsFd, .vIsExt, .vIsErr, .vErrCause, .vIsRtr, .vRegion, .hash, .render]

/-- The payload copies. -/
abbrev copyOps : List Instr := [.vCopyBuf, .vCopyArr]

/-- The state with another word on `raw`. -/
def State.withRaw (s : State) (w : Word) : State := { s with ports := { s.ports with raw := w } }

/-- The state with other values on ID_PACK's ports. -/
def State.withPack (s : State) (ext rtr err : Bool) (value : Word) : State :=
  { s with ports := { s.ports with packExt := ext, packRtr := rtr, packErr := err, packValue := value } }

/-- The state with another descriptor on `view`. -/
def State.withView (s : State) (v : View) : State := { s with ports := { s.ports with view := v } }

/-- The state with other descriptors on `view` and `view2`. -/
def State.withViews (s : State) (v w : View) : State := { s with ports := { s.ports with view := v, view2 := w } }

/-- The state with other values on a copy's destination ports. -/
def State.withCopy (s : State) (dst dpos dcap : Nat) : State :=
  { s with ports := { s.ports with dst := dst, dpos := dpos, dcap := dcap } }

/-- The state with other values on DECODE's ports. -/
def State.withRegion (s : State) (h base limit : Nat) : State :=
  { s with ports := { s.ports with s := h, base := base, limit := limit } }

/-- The effective maximum data length, as R130 and R131 give it from the flags and data-length bytes. -/
abbrev maxLength (flags dlen : Byte) : Nat := if flags ≠ 0 ∨ 8 < dlen.toNat then 64 else 8

end Sys2Proof.Machine
end

