-- ==== Sys2Proof/WellFormed.lean ====
section
/-! DEFINITION. Well-formedness. An operation has no operand field, so every one is well formed (30_encoding.md R81); what can be
ill formed is a statement of the host program (R85, R50), and each check refuses it by a name of its own. -/

namespace Sys2Proof

/-- Every operation is well formed: its code word holds nothing but the code (R81). -/
def Instr.WellFormed (_ : Instr) : Bool := true

/-- A statement of the form that R85 and R50 give. -/
def Machine.Statement.WellFormed (st : Machine.Statement) : Bool := (Machine.statementProblem st).isNone

end Sys2Proof
end

