-- ==== Sys2Proof/Certificates/Slice0/Obligations.lean ====
section
/-! DEFINITION. The statements for the provers, from the numbered rules of spec/. -/

open Sys2Proof Sys2Proof.Machine

/-! ### Codes and operations -/

/-- The operation map of R80, row by row: the code decodes to the operation, and the operation has the format. -/
def Obligations.TableCodesDecode : Prop :=
  ∀ row ∈ (
    [(0x01, .idNumeric, .K), (0x02, .idIsExt, .K), (0x03, .idIsErr, .K), (0x04, .idIsRtr, .K), (0x05, .idErrCause, .K)] ++
    [(0x06, .idPack, .P), (0x10, .vRawId, .V), (0x11, .vId, .V), (0x12, .vFlags, .V), (0x13, .vDlen, .V)] ++
    [(0x14, .vBase, .V), (0x15, .vSize, .V), (0x16, .vIsFd, .V), (0x17, .vIsExt, .V), (0x18, .vIsErr, .V)] ++
    [(0x19, .vErrCause, .V), (0x1A, .vIsRtr, .V), (0x1B, .vCopyBuf, .VC), (0x1C, .vCopyArr, .VC), (0x1D, .vRegion, .V)] ++
    [(0x20, .decode, .D), (0x21, .encode, .E), (0x30, .equals, .VV), (0x31, .hash, .V), (0x32, .render, .V)] :
      List (Byte × Instr × Format)),
    decode [row.1] = .ok (row.2.1, []) ∧ formatOf row.2.1 = row.2.2

/-- R81: every code is one fixed length of 8 bits with no operand in it, so decoding an operation's code gives the operation and
hands the rest back, and a code that decodes to an operation is that operation's code. -/
def Obligations.DecodeInvertsEncode : Prop :=
  (∀ (i : Instr) (rest : List Byte), i.WellFormed = true → decode (encode i ++ rest) = .ok (i, rest)) ∧
  (∀ (code : Byte) (i : Instr), decode [code] = .ok (i, []) → encode i = [code])

/-- R82: the listed codes are exactly those that select no operation, and presenting one raises IllegalOperation(op), a sticky
model fault, and changes nothing else of the block. That the statement index stays is the model's choice (log entry 6). -/
def Obligations.UnassignedCodesRaiseIllegalOperation : Prop :=
  (∀ code : Byte, Unassigned code ↔ ∀ i, decodeOp code ≠ .ok i) ∧
  ∀ (s : State) (dests : List Nat) (code : Byte) (args : List (Port × Operand)), Unassigned code → s.Clean →
    s.program[s.pc]? = some (.issue dests code args) →
    ∃ t, step s = .next t ∧ t.status = 7 ∧ t.result = [] ∧ t.info = some (.fault (.illegalOp code)) ∧
      t.fault = [.illegalOp code] ∧ t.storages = s.storages ∧ t.live = s.live ∧ t.nextTag = s.nextTag ∧
      t.params = s.params ∧ t.program = s.program ∧ t.pc = s.pc

/-! ### Reset, the step, the run -/

/-- R230: after reset no descriptor is live, no fault is recorded and no storage exists; R90: the statement index is 0; R7: the
parameters and constants have its table's values. That the flags and masks have them at reset is PRESUMED (log entry 4), and the
hash's width too is general knowledge (log entry 7). -/
def Obligations.ResetEmptiesTheBookkeeping : Prop :=
  State.reset.live = [] ∧ State.reset.fault = [] ∧ State.reset.storages = [] ∧ DefaultIds State.reset.params ∧ State.reset.pc = 0 ∧
  Config.headerLength = 8 ∧ Config.maxDataLength = 8 ∧ Config.maxFdDataLength = 64 ∧ Config.mtu = 16 ∧ Config.fdMtu = 72 ∧
  Config.idWidth = 32 ∧ Config.sffBits = 11 ∧ Config.effBits = 29 ∧ Config.hashWidth = 32 ∧
  Config.offsetId = 0 ∧ Config.offsetDataLength = 4 ∧ Config.offsetFlags = 5 ∧ Config.offsetData = 8

/-- The invariants that the steps keep hold after reset (R25, log entries 2 and 3). -/
def Obligations.ResetMeetsTheInvariants : Prop :=
  State.reset.LiveInv ∧ State.reset.MemWf ∧ State.reset.TagsRise ∧ State.reset.interfaceOk = true

/-- R32, R90: where the statement at the index is a well-formed issue of a code that decodes to an operation, and its operands go
on the ports, the step is that operation on those ports, and then the slots are filled and the index moved. Which value comes to
stand on which port is OperandsStandOnTheirPorts. -/
def Obligations.StepRunsTheDecodedOperation : Prop :=
  ∀ (s : State) (dests : List Nat) (code : Byte) (args : List (Port × Operand)) (i : Instr) (values : List (Port × Value))
    (ports : Ports),
    s.Clean → s.program[s.pc]? = some (.issue dests code args) → decode [code] = .ok (i, []) → i.WellFormed = true →
    Statement.WellFormed (.issue dests code args) = true → readArgs s.slots (formatOf i) args = .ok values →
    latch values s.ports = .ok ports →
    step s = match exec i (s.present code ports) with
      | .next t => .next (t.retire dests)
      | .fault f => .fault f
      | .refused r => .refused r

/-- R90, R241 and log entry 6: a recorded fault has stopped the run, and after the last statement nothing happens any more. -/
def Obligations.RunEndsAtAFaultOrAfterTheLastStatement : Prop :=
  (∀ (s : State) (e : FaultEvent) (rest : List FaultEvent), s.fault = e :: rest → step s = .fault (.runStopped e)) ∧
  (∀ s : State, s.Clean → s.program.length ≤ s.pc → step s = .next s)

/-- R90: the statement index goes up by 1 after each statement that records no fault, and never jumps; at a statement that records
one it stays (the model's choice, log entry 6). The program is not changed. -/
def Obligations.StatementIndexMovesByOne : Prop :=
  ∀ s t : State, s.pc < s.program.length → step s = .next t →
    t.program = s.program ∧ (t.fault = [] → t.pc = s.pc + 1) ∧ (t.fault ≠ [] → t.pc = s.pc)

/-- R85, R90: the parts of an operation's result go into the statement's slots, one each, or the status of a failed operation into its
slot; no other slot changes. An error result does not stop the run, a model fault does. That the status goes into every slot of a
tuple, that a model fault's status goes into slots too, and that the index stays at a model fault are the model's choices (log
entry 6). -/
def Obligations.ResultOrStatusGoesIntoTheSlots : Prop :=
  ∀ (s t : State) (dests : List Nat) (code : Byte) (args : List (Port × Operand)) (i : Instr) (values : List (Port × Value))
    (ports : Ports),
    s.Clean → s.program[s.pc]? = some (.issue dests code args) → decodeOp code = .ok i →
    Statement.WellFormed (.issue dests code args) = true → readArgs s.slots (formatOf i) args = .ok values →
    latch values s.ports = .ok ports →
    exec i (s.present code ports) = .next t →
    ∃ u, step s = .next u ∧
      (t.status = 0 → t.result.length = partsOf i) ∧ (dests = [] ∨ dests.length = partsOf i) ∧
      (∀ k d : Nat, dests[k]? = some d → slotGet u.slots d = if t.status = 0 then t.result[k]? else some (.failed t.status)) ∧
      (∀ n : Nat, n ∉ dests → slotGet u.slots n = slotGet s.slots n) ∧
      (t.status.toNat < 6 → u.Clean ∧ u.pc = s.pc + 1) ∧ (6 ≤ t.status.toNat → ¬ u.Clean ∧ u.pc = s.pc)

/-! ### Whole-machine invariants -/

/-- R25: the invariants of live descriptors stay true for as long as the host honours the ownership contract, whatever the step. -/
def Obligations.StepKeepsLiveDescriptorsValid : Prop :=
  ∀ s t : State, s.LiveInv → step s = .next t → t.LiveInv

/-- Log entry 2 (the model's): every storage stays in canonical form and inside its capacity. -/
def Obligations.StepKeepsMemoryCanonical : Prop :=
  ∀ s t : State, s.MemWf → step s = .next t → t.MemWf

/-- Log entry 3 (the model's), R24, R165: live descriptors stay pairwise distinct, with tags below the next one, so a construction
never returns a descriptor that is live already. -/
def Obligations.StepKeepsDescriptorsDistinct : Prop :=
  ∀ s t : State, s.TagsRise → step s = .next t → t.TagsRise ∧ t.live.Nodup

/-- R12, R30, R200, R211: status, result, recorded information and fault mark always tell one story. -/
def Obligations.StepKeepsTheInterfaceConsistent : Prop :=
  ∀ s t : State, s.interfaceOk = true → step s = .next t → t.interfaceOk = true

/-- R26, R43: no step changes a parameter, the byte order among them. -/
def Obligations.NoStepChangesAParameter : Prop :=
  ∀ s t : State, step s = .next t → t.params = s.params

/-- R22, R40: storages never vanish and their capacities are fixed; only a SUPPLY or a successful ENCODE adds one, one at a
time. -/
def Obligations.StoragesOnlyGrow : Prop :=
  ∀ s t : State, step s = .next t →
    (∀ h, h < s.storages.length → t.cap h = s.cap h) ∧
    (t.storages.length = s.storages.length ∨
      (t.storages.length = s.storages.length + 1 ∧
        ((∃ dest co bo, s.fetch = some (.supply dest co bo)) ∨
         (∃ dests args, s.fetch = some (.issue dests 0x21 args) ∧ t.status = 0))))

/-- R24: only a successful DECODE or ENCODE adds to the live descriptors, exactly the one it returns, and no operation takes one
away. -/
def Obligations.OnlyConstructionMakesDescriptorsLive : Prop :=
  ∀ (i : Instr) (s t : State), exec i s = .next t →
    t.live = s.live ∨
    (∃ v, t.live = s.live ++ [v] ∧ t.status = 0 ∧
      ((i = .decode ∧ t.result = [.view v]) ∨ (i = .encode ∧ ∃ f, t.result = [.storage f, .view v])))

/-- R236: no operation writes into a live region. -/
def Obligations.NoOperationWritesALiveRegion : Prop :=
  ∀ (i : Instr) (s t : State), s.LiveInv → exec i s = .next t →
    ∀ v ∈ s.live, ∀ k < v.size, t.byteAt v.storage (v.base + k) = s.byteAt v.storage (v.base + k)

/-- R49, R232, R236: a step that records no fault, whether an operation or a host action, leaves every byte of every live region as
it was. -/
def Obligations.CleanStepsLeaveLiveRegionsAlone : Prop :=
  ∀ s t : State, s.LiveInv → step s = .next t → t.Clean →
    ∀ v ∈ s.live, ∀ k < v.size, t.byteAt v.storage (v.base + k) = s.byteAt v.storage (v.base + k)

/-- R30, of the operations: the fault mark is empty at first; an operation clears nothing of it and adds at most one event to it,
exactly when it returns a model fault; and a state with a fault recorded is no successful end. That such a state has no next state is
the model's choice (log entry 6). The events that no operation returns are elsewhere: an unassigned code in
UnassignedCodesRaiseIllegalOperation, an operand that its port cannot hold in OperandsThatDoNotFitTheirPortsAreRefused, a host action in
HostWriteWritesAndReportsViolations and HostAccessPastTheCapacityIsOutOfContract. -/
def Obligations.FaultMarkIsSticky : Prop :=
  State.reset.fault = [] ∧
  (∀ (i : Instr) (s t : State), exec i s = .next t →
    (t.fault = s.fault ∧ t.status.toNat < 6) ∨
    (∃ e, t.fault = s.fault ++ [e] ∧ 6 ≤ t.status.toNat ∧ t.info = some (.fault e))) ∧
  (∀ s t : State, s.fault ≠ [] → step s ≠ .next t)

/-- R211: failures are precise: the state after a failed operation equals the state before it, but that a model fault is added to
the fault mark. Nothing is written, no descriptor becomes live, ENCODE allocates nothing. -/
def Obligations.FailuresArePrecise : Prop :=
  ∀ (i : Instr) (s t : State), exec i s = .next t → t.status ≠ 0 →
    s.Keeps t ∧ t.result = [] ∧
    ((t.status.toNat < 6 ∧ t.fault = s.fault ∧ ∃ e, t.info = some (.error e)) ∨
     (6 ≤ t.status.toNat ∧ ∃ e, t.info = some (.fault e) ∧ t.fault = s.fault ++ [e]))

/-- R208: the statuses each operation can return beyond OK. -/
def Obligations.StatusesByOperation : Prop :=
  ∀ (i : Instr) (s t : State), s.LiveInv → exec i s = .next t →
    (i ∈ codecOps → t.status = 0) ∧
    (i ∈ viewOps → t.status = 0 ∨ t.status = 7) ∧
    (i ∈ copyOps → t.status = 0 ∨ t.status = 5 ∨ t.status = 6 ∨ t.status = 7) ∧
    (i = .decode → t.status = 0 ∨ t.status = 1 ∨ t.status = 2 ∨ t.status = 3 ∨ t.status = 7) ∧
    (i = .encode → t.status = 0 ∨ t.status = 2 ∨ t.status = 4 ∨ t.status = 7) ∧
    (i = .equals → t.status = 0 ∨ t.status = 7)

/-- R163 and the whole operation set: every operation in every state answers a next state; in particular the re-validation inside
ENCODE never fails. -/
def Obligations.EveryOperationAnswers : Prop :=
  ∀ (i : Instr) (s : State), ∃ t, exec i s = .next t

/-- R83: an operation with an ill-formed operand is refused with IllegalOperation (7) before any other check, recording an operand
that is ill formed, and reads and writes nothing; other out-of-range operands, ENCODE's source range and a copy's destination range, are error results (4 and 5). -/
def Obligations.IllFormedOperandsAreRefused : Prop :=
  ∀ (i : Instr) (s : State),
    (formatOf i = .V → s.ports.view ∉ s.live → Raises i s 7 (.fault (.illegalView s.ports.view))) ∧
    (formatOf i = .VV → s.ports.view ∉ s.live ∨ s.ports.view2 ∉ s.live →
      ∃ v, (v = s.ports.view ∨ v = s.ports.view2) ∧ v ∉ s.live ∧ Raises i s 7 (.fault (.illegalView v))) ∧
    (formatOf i = .VC → s.ports.view ∉ s.live ∨ s.storages.length ≤ s.ports.dst →
      (s.ports.view ∉ s.live ∧ Raises i s 7 (.fault (.illegalView s.ports.view))) ∨
      (s.storages.length ≤ s.ports.dst ∧ Raises i s 7 (.fault (.illegalStorage s.ports.dst)))) ∧
    (i = .encode → s.storages.length ≤ s.ports.src → Raises i s 7 (.fault (.illegalStorage s.ports.src))) ∧
    (i = .decode →
      ¬ (s.ports.s < s.storages.length ∧ s.ports.base ≤ s.ports.limit ∧ s.ports.limit ≤ s.cap s.ports.s) →
      Raises i s 7 (.fault (.illegalRegion s.ports.s s.ports.base s.ports.limit))) ∧
    (i = .encode → s.ports.src < s.storages.length → s.ports.offset + s.ports.length > s.cap s.ports.src →
      Raises i s 4 (.error (.sourceOutOfRange s.ports.offset s.ports.length))) ∧
    (∀ dlen, formatOf i = .VC → s.LiveInv → s.Clean → s.ports.view ∈ s.live → s.ports.dst < s.storages.length →
      s.byteAt s.ports.view.storage (s.ports.view.base + 4) = some dlen →
      s.ports.dpos + min dlen.toNat s.ports.dcap > s.cap s.ports.dst →
      Raises i s 5 (.error (.destinationOutOfRange s.ports.dst)))

/-! ### The Identifier Codec -/

/-- R101, R102, R103: each flag test is true exactly when its flag is set, under R7's values the bits 31, 30 and 29. -/
def Obligations.FlagTestsReadTheirFlag : Prop :=
  encode .idIsExt = [0x02] ∧ encode .idIsRtr = [0x04] ∧ encode .idIsErr = [0x03] ∧
  ∀ s : State,
    Answers .idIsExt s [.bool (decide (s.ports.raw &&& s.params.effFlag ≠ 0))] ∧
    Answers .idIsRtr s [.bool (decide (s.ports.raw &&& s.params.rtrFlag ≠ 0))] ∧
    Answers .idIsErr s [.bool (decide (s.ports.raw &&& s.params.errFlag ≠ 0))] ∧
    (DefaultIds s.params →
      Answers .idIsExt s [.bool (s.ports.raw.getLsbD 31)] ∧
      Answers .idIsRtr s [.bool (s.ports.raw.getLsbD 30)] ∧
      Answers .idIsErr s [.bool (s.ports.raw.getLsbD 29)])

/-- R104, R105, R72, R73: the numeric id and the error cause are masked out of the word, under R7's values its low 29 or 11 bits,
zero-extended. -/
def Obligations.NumericIdAndCauseAreMaskedOut : Prop :=
  encode .idNumeric = [0x01] ∧ encode .idErrCause = [0x05] ∧
  ∀ s : State,
    Answers .idNumeric s [.word (if s.ports.raw &&& s.params.effFlag ≠ 0 then s.ports.raw &&& s.params.effMask
      else s.ports.raw &&& s.params.sffMask)] ∧
    Answers .idErrCause s [.word (s.ports.raw &&& s.params.errMask)] ∧
    (DefaultIds s.params →
      Answers .idNumeric s [.word (if s.ports.raw.getLsbD 31 then (s.ports.raw.extractLsb' 0 29).zeroExtend 32
        else (s.ports.raw.extractLsb' 0 11).zeroExtend 32)] ∧
      Answers .idErrCause s [.word ((s.ports.raw.extractLsb' 0 29).zeroExtend 32)])

/-- R106: ID_PACK composes the flags and the masked value. -/
def Obligations.PackComposesTheWord : Prop :=
  encode .idPack = [0x06] ∧
  ∀ s : State,
    Answers .idPack s [.word ((if s.ports.packExt then s.params.effFlag else 0) ||| (if s.ports.packRtr then s.params.rtrFlag else 0) |||
      (if s.ports.packErr then s.params.errFlag else 0) |||
      (s.ports.packValue &&& (if s.ports.packErr then s.params.errMask
        else if s.ports.packExt then s.params.effMask else s.params.sffMask)))]

/-- R100: a codec operation is a pure function of its operands: in any two states with the same operands and parameters, whatever
else they hold, it answers OK with the same result and changes nothing. -/
def Obligations.CodecOperationsArePure : Prop :=
  ∀ (i : Instr) (s s' : State), i ∈ codecOps → s'.params = s.params → s'.ports.raw = s.ports.raw →
    s'.ports.packExt = s.ports.packExt → s'.ports.packRtr = s.ports.packRtr → s'.ports.packErr = s.ports.packErr →
    s'.ports.packValue = s.ports.packValue → ∃ parts, Answers i s parts ∧ Answers i s' parts

/-- R107: the numeric id never exceeds the width that the addressing mode implies. -/
def Obligations.NumericIdFitsItsMode : Prop :=
  ∀ s : State, DefaultIds s.params →
    ∃ ext n, Answers .idIsExt s [.bool ext] ∧ Answers .idNumeric s [.word n] ∧
      (ext = true → n.toNat < 2 ^ 29) ∧ (ext = false → n.toNat < 2 ^ 11)

/-- R108: flipping the RTR or the ERR bit of the word changes only that bit's own test, and flipping the EFF bit changes neither
the other tests nor the error cause. -/
def Obligations.FlagBitsAreOrthogonal : Prop :=
  ∀ (s : State) (parts : List Value), DefaultIds s.params →
    (∀ i ∈ [Instr.idIsExt, .idIsErr, .idNumeric, .idErrCause], Answers i s parts →
      Answers i (s.withRaw (s.ports.raw ^^^ 0x40000000)) parts) ∧
    (∀ i ∈ [Instr.idIsExt, .idIsRtr, .idNumeric, .idErrCause], Answers i s parts →
      Answers i (s.withRaw (s.ports.raw ^^^ 0x20000000)) parts) ∧
    (∀ i ∈ [Instr.idIsRtr, .idIsErr, .idErrCause], Answers i s parts →
      Answers i (s.withRaw (s.ports.raw ^^^ 0x80000000)) parts) ∧
    (∀ b, Answers .idIsRtr s [.bool b] → Answers .idIsRtr (s.withRaw (s.ports.raw ^^^ 0x40000000)) [.bool (!b)]) ∧
    (∀ b, Answers .idIsErr s [.bool b] → Answers .idIsErr (s.withRaw (s.ports.raw ^^^ 0x20000000)) [.bool (!b)]) ∧
    (∀ b, Answers .idIsExt s [.bool b] → Answers .idIsExt (s.withRaw (s.ports.raw ^^^ 0x80000000)) [.bool (!b)])

/-- R109: what ID_PACK packs, the tests and extractions give back; and packing what they give of a word gives the word exactly when
the word is no error word and, in standard mode, has bits 28:11 zero. -/
def Obligations.PackAndUnpackAreInverse : Prop :=
  ∀ s : State, DefaultIds s.params →
    (∃ w, Answers .idPack s [.word w] ∧
      Answers .idIsExt (s.withRaw w) [.bool s.ports.packExt] ∧ Answers .idIsRtr (s.withRaw w) [.bool s.ports.packRtr] ∧
      Answers .idIsErr (s.withRaw w) [.bool s.ports.packErr] ∧
      (s.ports.packErr = false →
        Answers .idNumeric (s.withRaw w)
          [.word (s.ports.packValue &&& (if s.ports.packExt then 0x1FFFFFFF else 0x000007FF))]) ∧
      (s.ports.packErr = true → Answers .idErrCause (s.withRaw w) [.word (s.ports.packValue &&& 0x1FFFFFFF)])) ∧
    (∃ ext rtr err n, Answers .idIsExt s [.bool ext] ∧ Answers .idIsRtr s [.bool rtr] ∧ Answers .idIsErr s [.bool err] ∧
      Answers .idNumeric s [.word n] ∧
      (Answers .idPack (s.withPack ext rtr false n) [.word s.ports.raw] ↔
        err = false ∧ (ext = false → s.ports.raw.extractLsb' 11 18 = 0)))

/-! ### The Frame View -/

/-- R42, its two functions: `Word32` as the rule writes it for each order, and `Bytes32` its only inverse. That the identifier field is
read and written through them, in the order of the parameters, is IdentifierAccessorsReadThrough and EncodeChecksAndBuildsTheFrame. -/
def Obligations.ByteOrderOfTheIdentifier : Prop :=
  (∀ b0 b1 b2 b3 : Byte,
    word32 .little b0 b1 b2 b3 =
      b0.zeroExtend 32 ||| b1.zeroExtend 32 <<< 8 ||| b2.zeroExtend 32 <<< 16 ||| b3.zeroExtend 32 <<< 24 ∧
    word32 .big b0 b1 b2 b3 =
      b3.zeroExtend 32 ||| b2.zeroExtend 32 <<< 8 ||| b1.zeroExtend 32 <<< 16 ||| b0.zeroExtend 32 <<< 24) ∧
  (∀ (e : Endian) (w : Word) (b0 b1 b2 b3 : Byte), word32 e b0 b1 b2 b3 = w ↔ bytes32 e w = [b0, b1, b2, b3])

/-- R121, R122, R127, R128, R129, R132: on a live view the identifier accessors answer with the word assembled from the region's
first four bytes as they are now, and with its flags and fields; on any other view they are refused. -/
def Obligations.IdentifierAccessorsReadThrough : Prop :=
  encode .vRawId = [0x10] ∧ encode .vId = [0x11] ∧ encode .vIsExt = [0x17] ∧ encode .vIsErr = [0x18] ∧
  encode .vErrCause = [0x19] ∧ encode .vIsRtr = [0x1A] ∧
  (∀ s : State, s.ports.view ∉ s.live → ∀ i ∈ [Instr.vRawId, .vId, .vIsExt, .vIsErr, .vErrCause, .vIsRtr],
    Raises i s 7 (.fault (.illegalView s.ports.view))) ∧
  ∀ s : State, s.LiveInv → s.ports.view ∈ s.live →
    ∃ b0 b1 b2 b3 w,
      s.byteAt s.ports.view.storage (s.ports.view.base + 0) = some b0 ∧
      s.byteAt s.ports.view.storage (s.ports.view.base + 1) = some b1 ∧
      s.byteAt s.ports.view.storage (s.ports.view.base + 2) = some b2 ∧
      s.byteAt s.ports.view.storage (s.ports.view.base + 3) = some b3 ∧
      w = word32 s.params.hostEndian b0 b1 b2 b3 ∧
      Answers .vRawId s [.word w] ∧ Answers .vId s [.word (idNumeric s.params w)] ∧
      Answers .vIsExt s [.bool (idIsExt s.params w)] ∧ Answers .vIsErr s [.bool (idIsErr s.params w)] ∧
      Answers .vErrCause s [.word (idErrCause s.params w)] ∧ Answers .vIsRtr s [.bool (idIsRtr s.params w)]

/-- R86: the identifier accessors are compositions of V_RAW_ID and the codec operations: each answers exactly what its codec
operation answers on the word that V_RAW_ID answers. -/
def Obligations.DelegationsComposeReadAndCodec : Prop :=
  ∀ (s : State) (w : Word) (parts : List Value), Answers .vRawId s [.word w] →
    (Answers .vId s parts ↔ Answers .idNumeric (s.withRaw w) parts) ∧
    (Answers .vIsExt s parts ↔ Answers .idIsExt (s.withRaw w) parts) ∧
    (Answers .vIsErr s parts ↔ Answers .idIsErr (s.withRaw w) parts) ∧
    (Answers .vErrCause s parts ↔ Answers .idErrCause (s.withRaw w) parts) ∧
    (Answers .vIsRtr s parts ↔ Answers .idIsRtr (s.withRaw w) parts)

/-- R123, R124, R130: on a live view V_FLAGS and V_DLEN answer with the bytes at offsets 5 and 4 as they are now, all 8 bits of
them, and V_IS_FD is true exactly when the flags are nonzero or the length exceeds 8, whatever the size; on any other view they are
refused. -/
def Obligations.FlagsLengthAndFdClassReadThrough : Prop :=
  encode .vFlags = [0x12] ∧ encode .vDlen = [0x13] ∧ encode .vIsFd = [0x16] ∧
  (∀ s : State, s.ports.view ∉ s.live → ∀ i ∈ [Instr.vFlags, .vDlen, .vIsFd],
    Raises i s 7 (.fault (.illegalView s.ports.view))) ∧
  ∀ s : State, s.LiveInv → s.ports.view ∈ s.live →
    ∃ flags dlen,
      s.byteAt s.ports.view.storage (s.ports.view.base + 5) = some flags ∧
      s.byteAt s.ports.view.storage (s.ports.view.base + 4) = some dlen ∧
      Answers .vFlags s [.byte flags] ∧ Answers .vDlen s [.byte dlen] ∧
      Answers .vIsFd s [.bool (decide (flags ≠ 0 ∨ 8 < dlen.toNat))]

/-- R125, R126, R143: V_BASE, V_SIZE and V_REGION answer with the geometry captured at construction, whatever the storage holds
now; the size is 16 or 72; on any other view they are refused. That the host may then read the span (R143) is HostReadHasNoEffect. -/
def Obligations.GeometryIsTheDescriptors : Prop :=
  encode .vBase = [0x14] ∧ encode .vSize = [0x15] ∧ encode .vRegion = [0x1D] ∧
  (∀ s : State, s.ports.view ∉ s.live → ∀ i ∈ [Instr.vBase, .vSize, .vRegion],
    Raises i s 7 (.fault (.illegalView s.ports.view))) ∧
  ∀ s : State, s.ports.view ∈ s.live →
    Answers .vBase s [.nat s.ports.view.base] ∧ Answers .vSize s [.nat s.ports.view.size] ∧
    Answers .vRegion s [.storage s.ports.view.storage, .nat s.ports.view.base, .nat s.ports.view.size] ∧
    (s.LiveInv → s.ports.view.size = 16 ∨ s.ports.view.size = 72)

/-- R120: a view operation of format V and EQUALS write nothing and change no descriptor: whatever they answer, nothing but the
output ports and the fault mark differs. -/
def Obligations.ViewOperationsChangeNothing : Prop :=
  ∀ (i : Instr) (s t : State), i ∈ viewOps ∨ i = .equals → exec i s = .next t → s.Keeps t

/-- R40, R48, R182: an operation of format V reads nothing but its own region: in any two states that agree on the parameters, the
descriptor and the region's bytes, whatever else they hold, it answers the same. For RENDER, which by R45 reads the whole
region and whose text R185 leaves open, that the text rests on no byte outside it is the model's choice (log entry 8). -/
def Obligations.ViewsReadOnlyTheirOwnRegion : Prop :=
  ∀ (i : Instr) (s s' : State), i ∈ viewOps → s.LiveInv → s'.LiveInv → s'.params = s.params → s'.ports.view = s.ports.view →
    s.ports.view ∈ s.live → s.ports.view ∈ s'.live →
    (∀ k < s.ports.view.size, s'.byteAt s.ports.view.storage (s.ports.view.base + k) =
      s.byteAt s.ports.view.storage (s.ports.view.base + k)) →
    ∃ parts, Answers i s parts ∧ Answers i s' parts

/-- R140, R141, R142: a payload copy's checks in their order, and what a copy that passes them does: `min(dataLength, dcap)` payload
bytes stand in the destination, every other byte is as before, and that number is the result. While no fault is recorded the span
check passes. A view that is not live is refused. That the address recorded is the destination's first is the model's choice
(log entry 13). -/
def Obligations.CopiesClipCheckAndCopy : Prop :=
  encode .vCopyBuf = [0x1B] ∧ encode .vCopyArr = [0x1C] ∧
  (∀ s : State, s.ports.view ∉ s.live → s.ports.dst < s.storages.length → ∀ i ∈ copyOps,
    Raises i s 7 (.fault (.illegalView s.ports.view))) ∧
  ∀ (i : Instr) (s : State), i ∈ copyOps → s.LiveInv → s.MemWf → s.ports.view ∈ s.live → s.ports.dst < s.storages.length →
    ∃ flags dlen n,
      s.byteAt s.ports.view.storage (s.ports.view.base + 5) = some flags ∧
      s.byteAt s.ports.view.storage (s.ports.view.base + 4) = some dlen ∧ n = min dlen.toNat s.ports.dcap ∧
      (s.Clean → 8 + dlen.toNat ≤ s.ports.view.size ∧ dlen.toNat ≤ maxLength flags dlen) ∧
      if 8 + dlen.toNat > s.ports.view.size ∨ dlen.toNat > maxLength flags dlen then
        Raises i s 6 (.fault (.brokenSpan s.ports.view))
      else if s.ports.dpos + n > s.cap s.ports.dst then Raises i s 5 (.error (.destinationOutOfRange s.ports.dst))
      else if n > 0 ∧ ∃ w ∈ s.live, w.storage = s.ports.dst ∧ s.ports.dpos < w.base + w.size ∧ w.base < s.ports.dpos + n then
        Raises i s 6 (.fault (.liveDestination s.ports.dst s.ports.dpos))
      else
        ∃ t, exec i s = .next t ∧ t.status = 0 ∧ t.result = [.nat n] ∧ t.info = none ∧ t.fault = s.fault ∧
          (∀ k < n, t.byteAt s.ports.dst (s.ports.dpos + k) = s.byteAt s.ports.view.storage (s.ports.view.base + 8 + k)) ∧
          ∀ h a, ¬ (h = s.ports.dst ∧ s.ports.dpos ≤ a ∧ a < s.ports.dpos + n) → t.byteAt h a = s.byteAt h a

/-- R22, R40, R45, R141: the frame of the payload copies: every byte of every storage outside the destination's
`min(dataLength, dcap)` bytes from `dpos` on is as before, and so is everything else but the output ports and the fault mark. -/
def Obligations.CopiesChangeOnlyTheDestination : Prop :=
  ∀ (i : Instr) (s t : State), i ∈ copyOps → exec i s = .next t →
    t.params = s.params ∧ t.live = s.live ∧ t.nextTag = s.nextTag ∧ t.ports = s.ports ∧ t.program = s.program ∧ t.pc = s.pc ∧
    t.slots = s.slots ∧ t.storages.length = s.storages.length ∧ (∀ h, t.cap h = s.cap h) ∧
    ∀ dlen, s.byteAt s.ports.view.storage (s.ports.view.base + 4) = some dlen →
      ∀ h a, ¬ (h = s.ports.dst ∧ s.ports.dpos ≤ a ∧ a < s.ports.dpos + min dlen.toNat s.ports.dcap) →
        t.byteAt h a = s.byteAt h a

/-! ### The Frame Factory -/

/-- R151, R152, R156: DECODE's checks in their order, each with its error and what it records, and on success a live descriptor of
exactly the region. That it differs from every descriptor live before, over the same region too, rests on the model's tags (log
entry 3). -/
def Obligations.DecodeChecksInOrder : Prop :=
  encode .decode = [0x20] ∧
  ∀ s : State,
    (¬ (s.ports.s < s.storages.length ∧ s.ports.base ≤ s.ports.limit ∧ s.ports.limit ≤ s.cap s.ports.s) →
      Raises .decode s 7 (.fault (.illegalRegion s.ports.s s.ports.base s.ports.limit))) ∧
    (s.ports.s < s.storages.length → s.ports.base ≤ s.ports.limit → s.ports.limit ≤ s.cap s.ports.s →
      (s.ports.limit - s.ports.base ≠ 16 ∧ s.ports.limit - s.ports.base ≠ 72 →
        Raises .decode s 1 (.error (.invalidLength (s.ports.limit - s.ports.base)))) ∧
      (s.ports.limit - s.ports.base = 16 ∨ s.ports.limit - s.ports.base = 72 →
        ∃ flags dlen,
          s.byteAt s.ports.s (s.ports.base + 5) = some flags ∧ s.byteAt s.ports.s (s.ports.base + 4) = some dlen ∧
          if dlen.toNat > maxLength flags dlen then Raises .decode s 2 (.error (.payloadTooLong dlen.toNat))
          else if s.ports.base + 8 + dlen.toNat > s.ports.limit then Raises .decode s 3 (.error (.bufferOverflow dlen.toNat))
          else
            ∃ t v, exec .decode s = .next t ∧ t.status = 0 ∧ t.result = [.view v] ∧ t.info = none ∧ t.fault = s.fault ∧
              v.storage = s.ports.s ∧ v.base = s.ports.base ∧ v.size = s.ports.limit - s.ports.base ∧
              t.live = s.live ++ [v] ∧ t.storages = s.storages ∧ (s.TagsRise → v ∉ s.live)))

/-- R153, R154, R157: the decode verdicts of a well-formed region by its size and its data-length byte alone. -/
def Obligations.DecodeVerdictsBySizeAndLength : Prop :=
  ∀ (s : State) (dlen : Byte), s.ports.s < s.storages.length → s.ports.base ≤ s.ports.limit →
    s.ports.limit ≤ s.cap s.ports.s → s.byteAt s.ports.s (s.ports.base + 4) = some dlen →
    ∃ t, exec .decode s = .next t ∧
      (t.status = 1 ↔ s.ports.limit - s.ports.base ≠ 16 ∧ s.ports.limit - s.ports.base ≠ 72) ∧
      (t.status = 2 ↔ (s.ports.limit - s.ports.base = 16 ∨ s.ports.limit - s.ports.base = 72) ∧ 65 ≤ dlen.toNat) ∧
      (t.status = 3 ↔ s.ports.limit - s.ports.base = 16 ∧ 9 ≤ dlen.toNat ∧ dlen.toNat ≤ 64) ∧
      (t.status = 0 ↔ (s.ports.limit - s.ports.base = 16 ∧ dlen.toNat ≤ 8) ∨
        (s.ports.limit - s.ports.base = 72 ∧ dlen.toNat ≤ 64))

/-- R160, R161, R162, R164: ENCODE's argument errors in their order, and the frame it builds: a fresh storage of 16 or 72 bytes by
the payload length alone, every byte of it as the layout says, and a live descriptor over it at base 0. That the new handle is the
number of storages before it is the model's choice (log entry 12). -/
def Obligations.EncodeChecksAndBuildsTheFrame : Prop :=
  encode .encode = [0x21] ∧
  ∀ s : State,
    if s.storages.length ≤ s.ports.src then Raises .encode s 7 (.fault (.illegalStorage s.ports.src))
    else if s.ports.offset + s.ports.length > s.cap s.ports.src then
      Raises .encode s 4 (.error (.sourceOutOfRange s.ports.offset s.ports.length))
    else if s.ports.length > 64 then Raises .encode s 2 (.error (.payloadTooLong s.ports.length))
    else
      ∃ t f v size b0 b1 b2 b3, exec .encode s = .next t ∧ t.status = 0 ∧ t.result = [.storage f, .view v] ∧ t.info = none ∧
        t.fault = s.fault ∧ f = s.storages.length ∧ size = (if s.ports.length ≤ 8 then 16 else 72) ∧
        v.storage = f ∧ v.base = 0 ∧ v.size = size ∧ t.live = s.live ++ [v] ∧
        t.storages.length = s.storages.length + 1 ∧ t.cap f = size ∧
        t.byteAt f 0 = some b0 ∧ t.byteAt f 1 = some b1 ∧ t.byteAt f 2 = some b2 ∧ t.byteAt f 3 = some b3 ∧
        word32 s.params.hostEndian b0 b1 b2 b3 = s.ports.id ∧
        t.byteAt f 4 = some (BitVec.ofNat 8 s.ports.length) ∧ t.byteAt f 5 = some s.ports.flags ∧
        t.byteAt f 6 = some 0 ∧ t.byteAt f 7 = some 0 ∧
        (∀ k < s.ports.length, t.byteAt f (8 + k) = s.byteAt s.ports.src (s.ports.offset + k)) ∧
        (∀ a, 8 + s.ports.length ≤ a → a < size → t.byteAt f a = some 0) ∧
        (∀ h a, h ≠ f → t.byteAt h a = s.byteAt h a) ∧
        (s.LiveInv → ∀ w ∈ s.live, w.storage ≠ f)

/-- R22, R155, R211: the frame of DECODE and ENCODE: every byte of every storage that was there is as before, every live descriptor
stays live, and nothing else but the output ports, the fault mark and the next tag differs. -/
def Obligations.ConstructionChangesNoOldByte : Prop :=
  ∀ (i : Instr) (s t : State), i = .decode ∨ i = .encode → exec i s = .next t →
    t.params = s.params ∧ t.ports = s.ports ∧ t.program = s.program ∧ t.pc = s.pc ∧ t.slots = s.slots ∧
    (∀ h a, h < s.storages.length → t.byteAt h a = s.byteAt h a) ∧
    (∀ h, h < s.storages.length → t.cap h = s.cap h) ∧ (∀ w ∈ s.live, w ∈ t.live) ∧
    (i = .decode → t.storages = s.storages)

/-- R165: the round trip: what ENCODE built, the accessors and a copy give back, and a later DECODE of its storage returns a second
live descriptor with the same results; that the two differ rests on the model's tags (log entry 3). -/
def Obligations.EncodeThenReadGivesBackTheFrame : Prop :=
  ∀ s : State, s.ports.src < s.storages.length → s.ports.offset + s.ports.length ≤ s.cap s.ports.src →
    s.ports.length ≤ 64 → s.LiveInv → s.TagsRise →
    ∃ t f v size, exec .encode s = .next t ∧ t.status = 0 ∧ t.result = [.storage f, .view v] ∧
      size = (if s.ports.length ≤ 8 then 16 else 72) ∧
      Answers .vRawId (t.withView v) [.word s.ports.id] ∧
      Answers .vDlen (t.withView v) [.byte (BitVec.ofNat 8 s.ports.length)] ∧
      Answers .vFlags (t.withView v) [.byte s.ports.flags] ∧
      Answers .vSize (t.withView v) [.nat size] ∧
      (∀ d dpos dcap, s.MemWf → d < s.storages.length → s.ports.length ≤ dcap → dpos + s.ports.length ≤ s.cap d →
        s.meetsLive d dpos s.ports.length = false →
        ∃ u, exec .vCopyBuf ((t.withView v).withCopy d dpos dcap) = .next u ∧ u.status = 0 ∧
          u.result = [.nat s.ports.length] ∧
          ∀ k < s.ports.length, u.byteAt d (dpos + k) = s.byteAt s.ports.src (s.ports.offset + k)) ∧
      (∃ u v2, exec .decode (t.withRegion f 0 size) = .next u ∧ u.status = 0 ∧ u.result = [.view v2] ∧ v2 ≠ v ∧
        v ∈ u.live ∧ v2 ∈ u.live ∧ v2.storage = v.storage ∧ v2.base = v.base ∧ v2.size = v.size ∧
        Answers .vRawId (u.withView v2) [.word s.ports.id] ∧
        Answers .vDlen (u.withView v2) [.byte (BitVec.ofNat 8 s.ports.length)] ∧
        Answers .vFlags (u.withView v2) [.byte s.ports.flags] ∧
        Answers .vSize (u.withView v2) [.nat size])

/-! ### Value Semantics -/

/-- R180: EQUALS is true exactly when the sizes match and every byte of the regions does; where either view is not live it is
refused. -/
def Obligations.EqualsComparesEveryByte : Prop :=
  encode .equals = [0x30] ∧
  (∀ s : State, s.ports.view ∉ s.live ∨ s.ports.view2 ∉ s.live → ∃ v, Raises .equals s 7 (.fault (.illegalView v)) ∧ v ∉ s.live) ∧
  ∀ s : State, s.LiveInv → s.ports.view ∈ s.live → s.ports.view2 ∈ s.live →
    ∃ r, Answers .equals s [.bool r] ∧
      (r = true ↔ s.ports.view.size = s.ports.view2.size ∧
        ∀ k < s.ports.view.size, s.byteAt s.ports.view.storage (s.ports.view.base + k) =
          s.byteAt s.ports.view2.storage (s.ports.view2.base + k))

/-- R181: EQUALS is reflexive, symmetric and transitive over live views; and a change of any one byte of either span that is not
also a byte of the other makes it false. -/
def Obligations.EqualityLaws : Prop :=
  ∀ s : State, s.LiveInv →
    (∀ v ∈ s.live, Answers .equals (s.withViews v v) [.bool true]) ∧
    (∀ v ∈ s.live, ∀ w ∈ s.live, ∀ b, Answers .equals (s.withViews v w) [.bool b] →
      Answers .equals (s.withViews w v) [.bool b]) ∧
    (∀ v ∈ s.live, ∀ w ∈ s.live, ∀ x ∈ s.live, Answers .equals (s.withViews v w) [.bool true] →
      Answers .equals (s.withViews w x) [.bool true] → Answers .equals (s.withViews v x) [.bool true]) ∧
    (∀ (s' : State), ∀ v ∈ s.live, ∀ w ∈ s.live, ∀ k < v.size, s'.LiveInv → s'.live = s.live →
      s'.byteAt v.storage (v.base + k) ≠ s.byteAt v.storage (v.base + k) →
      (∀ h a, ¬ (h = v.storage ∧ a = v.base + k) → s'.byteAt h a = s.byteAt h a) →
      ¬ (w.storage = v.storage ∧ w.base ≤ v.base + k ∧ v.base + k < w.base + w.size) →
      Answers .equals (s.withViews v w) [.bool true] →
      Answers .equals (s'.withViews v w) [.bool false] ∧ Answers .equals (s'.withViews w v) [.bool false])

/-- R182, R183: HASH is the hash function of the span's bytes, in their order and nothing else, so frames that EQUALS finds equal
hash alike; a view that is not live is refused. -/
def Obligations.HashIsAFunctionOfTheSpan : Prop :=
  encode .hash = [0x31] ∧
  (∀ s : State, s.ports.view ∉ s.live → Raises .hash s 7 (.fault (.illegalView s.ports.view))) ∧
  ∀ s : State, s.LiveInv → s.ports.view ∈ s.live →
    (∃ span, span.length = s.ports.view.size ∧
      (∀ k < s.ports.view.size, s.byteAt s.ports.view.storage (s.ports.view.base + k) = span[k]?) ∧
      Answers .hash s [.word (Config.frameHash span)]) ∧
    (Answers .equals s [.bool true] → ∃ x, Answers .hash s [.word x] ∧ Answers .hash (s.withView s.ports.view2) [.word x])

/-- R186: RENDER answers one line; for a frame that is not FD-classified it contains the text that the rule writes out, with the
numeric id, the flags, the length and exactly the first `dataLength` payload bytes, in the parameters' letter case and padding.
`Nat.toDigits` is Lean's own, so the statement does not rest on the model's digits. -/
def Obligations.RenderObeysItsLaw : Prop :=
  ∀ (s : State) (hex : Nat → List Char) (hexb : Byte → List Char), s.LiveInv → s.ports.view ∈ s.live →
    (∀ n, hex n = (Nat.toDigits 16 n).map (fun c => if s.params.renderHexUpper then c.toUpper else c)) →
    (∀ b, hexb b = if s.params.renderBytePad ∧ b.toNat < 0x10 then '0' :: hex b.toNat else hex b.toNat) →
    ∃ (t : List Char) (flags dlen : Byte) (id : Word),
      Answers .render s [.text t] ∧ '\n' ∉ t ∧
      Answers .vFlags s [.byte flags] ∧ Answers .vDlen s [.byte dlen] ∧ Answers .vId s [.word id] ∧
      (Answers .vIsFd s [.bool false] →
        ∃ (payload : List Byte) (before after : List Char),
          payload.length = dlen.toNat ∧
          (∀ k < dlen.toNat, s.byteAt s.ports.view.storage (s.ports.view.base + 8 + k) = payload[k]?) ∧
          t = before ++
            (['C', 'a', 'n', 'F', 'r', 'a', 'm', 'e', '(', 'I', 'D', '='] ++ hex id.toNat ++
             [',', ' ', 'F', 'L', 'A', 'G', 'S', '='] ++ hex flags.toNat ++
             [',', ' ', 'L', 'E', 'N', '='] ++ Nat.toDigits 10 dlen.toNat ++
             [',', ' ', 'D', 'A', 'T', 'A', '=', '['] ++ [',', ' '].intercalate (payload.map hexb) ++ [']', ')']) ++ after)

/-! ### The host actions -/

/-- R50: SUPPLY hands the block a new storage with the given contents, and changes no other byte and no descriptor. That the handle is
the number of storages before it is the model's choice (log entry 12), and so is that a slot may be named for it (log entry 6). -/
def Obligations.SupplyAddsAStorage : Prop :=
  ∀ (s : State) (dest : Option Nat) (co bo : Operand) (cap : Nat) (bytes : List Byte), s.Clean →
    s.fetch = some (.supply dest co bo) → s.ReadsNumber co cap → s.Reads bo (.bytes bytes) → bytes.length = cap →
    ∃ t f, step s = .next t ∧ f = s.storages.length ∧ t.storages.length = f + 1 ∧ t.cap f = cap ∧
      (∀ a < cap, t.byteAt f a = bytes[a]?) ∧ (∀ h a, h ≠ f → t.byteAt h a = s.byteAt h a) ∧
      t.live = s.live ∧ t.Clean ∧ (∀ n, dest = some n → slotGet t.slots n = some (.storage f))

/-- R50: HOST_READ has no effect on the block, and gives the host the bytes that stand there, here in a slot (log entry 6). -/
def Obligations.HostReadHasNoEffect : Prop :=
  ∀ (s : State) (dest : Option Nat) (so ao no : Operand) (h a n : Nat), s.Clean →
    s.fetch = some (.hostRead dest so ao no) → s.Reads so (.storage h) → h < s.storages.length → s.ReadsNumber ao a →
    s.ReadsNumber no n → a + n ≤ s.cap h →
    ∃ t l, step s = .next t ∧ t.params = s.params ∧ t.storages = s.storages ∧ t.live = s.live ∧ t.nextTag = s.nextTag ∧
      t.ports = s.ports ∧ t.Clean ∧ l.length = n ∧ (∀ k < n, s.byteAt h (a + k) = l[k]?) ∧
      (∀ d, dest = some d → slotGet t.slots d = some (.bytes l))

/-- R50: a HOST_WRITE inside its storage writes its bytes and no other; where it meets a live region it records
OutOfContract(host_write) in the fault mark, and else nothing. That the address recorded is the write's first is the model's choice
(log entry 13). -/
def Obligations.HostWriteWritesAndReportsViolations : Prop :=
  ∀ (s : State) (so ao bo : Operand) (bytes : List Byte) (h a : Nat), s.Clean → s.MemWf → s.LiveInv →
    s.fetch = some (.hostWrite so ao bo) → s.Reads so (.storage h) → h < s.storages.length → s.ReadsNumber ao a →
    s.Reads bo (.bytes bytes) → a + bytes.length ≤ s.cap h →
    ∃ t, step s = .next t ∧ t.params = s.params ∧ t.live = s.live ∧ t.ports = s.ports ∧
      (∀ k < bytes.length, t.byteAt h (a + k) = bytes[k]?) ∧
      (∀ g x, ¬ (g = h ∧ a ≤ x ∧ x < a + bytes.length) → t.byteAt g x = s.byteAt g x) ∧
      ((∃ v ∈ s.live, v.storage = h ∧ ∃ x, v.base ≤ x ∧ x < v.base + v.size ∧ a ≤ x ∧ x < a + bytes.length) →
        t.fault = [.hostWrite h a]) ∧
      ((∀ v ∈ s.live, ∀ x, v.storage = h → v.base ≤ x → x < v.base + v.size → ¬ (a ≤ x ∧ x < a + bytes.length)) →
        t.Clean)

/-- R24, R50: DROP ends the lifetime of one live descriptor, of no other, and changes no byte. That another descriptor of the same
region is another, and stays live, rests on the model's tags (log entry 3). -/
def Obligations.DropEndsOneLifetime : Prop :=
  ∀ (s : State) (vo : Operand) (v : View), s.Clean → s.fetch = some (.drop vo) → s.Reads vo (.view v) → v ∈ s.live →
    ∃ t, step s = .next t ∧ v ∉ t.live ∧ (∀ w, w ≠ v → (w ∈ t.live ↔ w ∈ s.live)) ∧ t.storages = s.storages ∧ t.Clean

/-- R11 and log entry 10 (the model's reading): a HOST_READ or HOST_WRITE of a storage past its capacity records OutOfContract with
its storage and first address (log entry 13), reads and writes nothing, fills no slot, and stops the run at its statement (log
entry 6): nothing but the fault mark differs. -/
def Obligations.HostAccessPastTheCapacityIsOutOfContract : Prop :=
  (∀ (s : State) (dest : Option Nat) (so ao no : Operand) (h a n : Nat), s.Clean →
    s.fetch = some (.hostRead dest so ao no) → s.Reads so (.storage h) → h < s.storages.length → s.ReadsNumber ao a →
    s.ReadsNumber no n → s.cap h < a + n → step s = .next { s with fault := [.outsideStorage h a] }) ∧
  (∀ (s : State) (so ao bo : Operand) (bytes : List Byte) (h a : Nat), s.Clean →
    s.fetch = some (.hostWrite so ao bo) → s.Reads so (.storage h) → h < s.storages.length → s.ReadsNumber ao a →
    s.Reads bo (.bytes bytes) → s.cap h < a + bytes.length → step s = .next { s with fault := [.outsideStorage h a] })

/-! ### Operands -/

/-- R32, R81, R85: an operand written name=value stands on the port of that name when the operation runs, format by format, in
whatever order the operands are written and whether the value is written out or named by a slot. Every port that the format does
not name keeps what stood on it, also where the statement presents it (log entry 5). That a number of any kind may stand on any
number port that it fits is the model's choice (log entry 6). A port presented twice is OperandsThatDoNotFitTheirPortsAreRefused. -/
def Obligations.OperandsStandOnTheirPorts : Prop :=
  ∀ (s : State) (dests : List Nat) (code : Byte) (args : List (Port × Operand)) (i : Instr),
    s.Clean → s.fetch = some (.issue dests code args) → decode [code] = .ok (i, []) →
    Statement.WellFormed (.issue dests code args) = true → (∀ port ∈ portsOf (formatOf i), ¬ PresentedTwice args port) →
    (formatOf i = .K → ∀ (o : Operand) (raw : Word), (.raw, o) ∈ args → s.ReadsNumber o raw.toNat →
      step s = retired dests (exec i { s with ports := { s.ports with op := code, raw := raw } })) ∧
    (formatOf i = .P → ∀ (oe ot oa ov : Operand) (ext rtr err : Bool) (value : Word),
      (.packExt, oe) ∈ args → (.packRtr, ot) ∈ args → (.packErr, oa) ∈ args → (.packValue, ov) ∈ args →
      s.ReadsNumber oe ext.toNat → s.ReadsNumber ot rtr.toNat → s.ReadsNumber oa err.toNat → s.ReadsNumber ov value.toNat →
      step s = retired dests (exec i
        { s with ports := { s.ports with op := code, packExt := ext, packRtr := rtr, packErr := err, packValue := value } })) ∧
    (formatOf i = .V → ∀ (o : Operand) (v : View), (.view, o) ∈ args → s.Reads o (.view v) →
      step s = retired dests (exec i { s with ports := { s.ports with op := code, view := v } })) ∧
    (formatOf i = .VC → ∀ (ov od op oc : Operand) (v : View) (dst dpos dcap : Nat),
      (.view, ov) ∈ args → (.dst, od) ∈ args → (.dpos, op) ∈ args → (.dcap, oc) ∈ args →
      s.Reads ov (.view v) → s.Reads od (.storage dst) → s.ReadsNumber op dpos → s.ReadsNumber oc dcap →
      step s = retired dests (exec i
        { s with ports := { s.ports with op := code, view := v, dst := dst, dpos := dpos, dcap := dcap } })) ∧
    (formatOf i = .VV → ∀ (ov ow : Operand) (v w : View), (.view, ov) ∈ args → (.view2, ow) ∈ args →
      s.Reads ov (.view v) → s.Reads ow (.view w) →
      step s = retired dests (exec i { s with ports := { s.ports with op := code, view := v, view2 := w } })) ∧
    (formatOf i = .D → ∀ (os ob ol : Operand) (h base limit : Nat), (.s, os) ∈ args → (.base, ob) ∈ args → (.limit, ol) ∈ args →
      s.Reads os (.storage h) → s.ReadsNumber ob base → s.ReadsNumber ol limit →
      step s = retired dests (exec i { s with ports := { s.ports with op := code, s := h, base := base, limit := limit } })) ∧
    (formatOf i = .E → ∀ (oi of os oo ol : Operand) (id : Word) (flags : Byte) (src offset length : Nat),
      (.id, oi) ∈ args → (.flags, of) ∈ args → (.src, os) ∈ args → (.offset, oo) ∈ args → (.length, ol) ∈ args →
      s.ReadsNumber oi id.toNat → s.ReadsNumber of flags.toNat → s.Reads os (.storage src) → s.ReadsNumber oo offset →
      s.ReadsNumber ol length →
      step s = retired dests (exec i
        { s with ports := { s.ports with op := code, id := id, flags := flags, src := src, offset := offset, length := length } }))

/-- R83, R207 for the view, storage and region ports, and log entry 14 (the model's reading) for the others and for a port of the
format presented twice: an issue one of whose operands its port cannot hold is refused with IllegalOperation, recording such an
operand or such a port, and reads and writes nothing. Which of several is recorded is left open here (log entry 9); the status in the
slots and the index that stays are log entry 6. -/
def Obligations.OperandsThatDoNotFitTheirPortsAreRefused : Prop :=
  ∀ (s : State) (dests : List Nat) (code : Byte) (args : List (Port × Operand)) (i : Instr),
    s.Clean → s.fetch = some (.issue dests code args) → decode [code] = .ok (i, []) →
    Statement.WellFormed (.issue dests code args) = true →
    (∀ c ∈ args, c.1 ∈ portsOf (formatOf i) → ∃ w, s.Reads c.2 w) →
    (∃ port ∈ portsOf (formatOf i), PresentedTwice args port ∨ ∃ o v, (port, o) ∈ args ∧ s.Reads o v ∧ Unfit port v) →
    ∃ t e, step s = .next t ∧
      (∃ q ∈ portsOf (formatOf i), (PresentedTwice args q ∧ e = .repeatedOperand q) ∨
        ∃ x w, (q, x) ∈ args ∧ s.Reads x w ∧ Unfit q w ∧ e = .illegalOperand q w) ∧
      t.status = 7 ∧ t.result = [] ∧ t.info = some (.fault e) ∧ t.fault = [e] ∧
      t.params = s.params ∧ t.storages = s.storages ∧ t.live = s.live ∧ t.nextTag = s.nextTag ∧
      t.ports = { s.ports with op := code } ∧ t.program = s.program ∧ t.pc = s.pc ∧
      (∀ d ∈ dests, slotGet t.slots d = some (.failed 7)) ∧ ∀ n, n ∉ dests → slotGet t.slots n = slotGet s.slots n

/-- R85, R90: an operand may name only an earlier slot, and of a failed statement's slot nothing but the status is read: an issue or
a host action that reads a slot nothing was put in, or one that holds a failed operation's status, is refused. -/
def Obligations.FailedAndUnsetSlotsAreNotRead : Prop :=
  ∀ (s : State) (n : Nat), s.Clean → s.Unreadable n →
    (∀ (dests : List Nat) (code : Byte) (args : List (Port × Operand)) (i : Instr) (port : Port),
      s.fetch = some (.issue dests code args) → decode [code] = .ok (i, []) → port ∈ portsOf (formatOf i) →
      (port, .slot n) ∈ args → ∃ r, step s = .refused r) ∧
    (∀ (dest : Option Nat) (co bo : Operand), s.fetch = some (.supply dest co bo) → co = .slot n ∨ bo = .slot n →
      ∃ r, step s = .refused r) ∧
    (∀ (dest : Option Nat) (so ao no : Operand), s.fetch = some (.hostRead dest so ao no) →
      so = .slot n ∨ ao = .slot n ∨ no = .slot n → ∃ r, step s = .refused r) ∧
    (∀ (so ao bo : Operand), s.fetch = some (.hostWrite so ao bo) → so = .slot n ∨ ao = .slot n ∨ bo = .slot n →
      ∃ r, step s = .refused r) ∧
    (s.fetch = some (.drop (.slot n)) → ∃ r, step s = .refused r)
end

