-- ==== Sys2Proof/Laws/Memory.lean ====
section
/-! SUPPORT. The laws of canonical memory: a read after a write, and the canonical form kept by every write. -/

namespace Sys2Proof.Machine

theorem Memory.get_put_of_ne (m : Memory) {a a' : Nat} (b : Byte) (h : a' ≠ a) : (m.put a b).get a' = m.get a' := by
  induction m with
  | nil =>
    unfold Memory.put
    split <;> simp [Memory.get, h]
  | cons c rest ih =>
    obtain ⟨k, c⟩ := c
    unfold Memory.put
    split_ifs with h1 h2 h3 h4 <;> simp_all [Memory.get]

theorem Memory.get_of_wfFrom {lo : Nat} {m : Memory} (h : m.wfFrom lo = true) {a : Nat} (ha : a < lo) : m.get a = 0 := by
  induction m generalizing lo with
  | nil => rfl
  | cons c rest ih =>
    obtain ⟨k, c⟩ := c
    simp only [Memory.wfFrom, Bool.and_eq_true, decide_eq_true_eq] at h
    have : a ≠ k := by omega
    simp only [Memory.get, this, if_false]
    exact ih h.2 (by omega)

theorem Memory.wfFrom_mono {lo lo' : Nat} {m : Memory} (h : m.wfFrom lo = true) (hl : lo' ≤ lo) : m.wfFrom lo' = true := by
  cases m with
  | nil => rfl
  | cons c rest =>
    obtain ⟨k, c⟩ := c
    simp only [Memory.wfFrom, Bool.and_eq_true, decide_eq_true_eq] at h ⊢
    exact ⟨⟨by omega, h.1.2⟩, h.2⟩

theorem Memory.get_put_self {lo : Nat} {m : Memory} (h : m.wfFrom lo = true) (a : Nat) (b : Byte) :
    (m.put a b).get a = b := by
  induction m generalizing lo with
  | nil =>
    unfold Memory.put
    split <;> simp_all [Memory.get]
  | cons c rest ih =>
    obtain ⟨k, c⟩ := c
    simp only [Memory.wfFrom, Bool.and_eq_true, decide_eq_true_eq] at h
    have hr : ∀ {x}, x < k + 1 → Memory.get rest x = 0 := fun hx => Memory.get_of_wfFrom h.2 hx
    unfold Memory.put
    split_ifs with h1 h2 h3 h4
    · have : a ≠ k := by omega
      simp only [Memory.get, this, if_false]
      rw [hr (by omega), h2]
    · simp [Memory.get]
    · rw [hr (by omega), h4]
    · simp [Memory.get]
    · simp only [Memory.get, h3, if_false]
      exact ih h.2

theorem Memory.wfFrom_put {lo : Nat} {m : Memory} (h : m.wfFrom lo = true) {a : Nat} (ha : lo ≤ a) (b : Byte) :
    (m.put a b).wfFrom lo = true := by
  induction m generalizing lo with
  | nil =>
    unfold Memory.put
    split <;> simp_all [Memory.wfFrom]
  | cons c rest ih =>
    obtain ⟨k, c⟩ := c
    have h' := h
    simp only [Memory.wfFrom, Bool.and_eq_true, decide_eq_true_eq] at h
    unfold Memory.put
    split_ifs with h1 h2 h3 h4
    · exact h'
    · simp only [Memory.wfFrom, Bool.and_eq_true, decide_eq_true_eq]
      exact ⟨⟨ha, h2⟩, ⟨⟨by omega, h.1.2⟩, h.2⟩⟩
    · exact Memory.wfFrom_mono h.2 (by omega)
    · simp only [Memory.wfFrom, Bool.and_eq_true, decide_eq_true_eq]
      exact ⟨⟨ha, h4⟩, by rw [h3]; exact h.2⟩
    · simp only [Memory.wfFrom, Bool.and_eq_true, decide_eq_true_eq]
      exact ⟨h.1, ih h.2 (by omega)⟩

theorem Memory.below_iff (cap : Nat) (m : Memory) : m.below cap = true ↔ ∀ c ∈ m, c.1 < cap := by
  simp only [Memory.below, List.all_eq_true, decide_eq_true_eq]

theorem Memory.mem_put {m : Memory} {a : Nat} {b : Byte} {x : Host.Cell} (h : x ∈ m.put a b) : x = (a, b) ∨ x ∈ m := by
  induction m with
  | nil =>
    unfold Memory.put at h
    split at h <;> simp_all
  | cons c rest ih =>
    unfold Memory.put at h
    split_ifs at h <;> simp only [List.mem_cons] at h ⊢ <;> tauto

theorem Memory.below_put {cap : Nat} {m : Memory} (h : m.below cap = true) {a : Nat} (ha : a < cap) (b : Byte) :
    (m.put a b).below cap = true := by
  rw [Memory.below_iff] at h ⊢
  intro x hx
  rcases Memory.mem_put hx with rfl | hx
  · exact ha
  · exact h x hx

/-- A write of one byte keeps the canonical form. -/
theorem Memory.wf_put {m : Memory} (h : m.wf = true) (a : Nat) (b : Byte) : (m.put a b).wf = true :=
  Memory.wfFrom_put h (Nat.zero_le a) b

/-- A write of several bytes keeps the canonical form. -/
theorem Memory.wf_writeBytes {m : Memory} (h : m.wf = true) (a : Nat) (l : List Byte) : (m.writeBytes a l).wf = true := by
  induction l generalizing m a with
  | nil => exact h
  | cons b rest ih => exact ih (Memory.wf_put h a b) (a + 1)

theorem Memory.below_writeBytes {cap : Nat} {m : Memory} (h : m.below cap = true) {a : Nat} {l : List Byte}
    (ha : a + l.length ≤ cap) : (m.writeBytes a l).below cap = true := by
  induction l generalizing m a with
  | nil => exact h
  | cons b rest ih =>
    simp only [List.length_cons] at ha
    exact ih (Memory.below_put h (by omega) b) (by omega)

/-- A write leaves every byte outside it alone. -/
theorem Memory.get_writeBytes_of_outside (m : Memory) {a x : Nat} (l : List Byte) (h : x < a ∨ a + l.length ≤ x) :
    (m.writeBytes a l).get x = m.get x := by
  induction l generalizing m a with
  | nil => rfl
  | cons b rest ih =>
    simp only [List.length_cons] at h
    rw [Memory.writeBytes, ih _ (by omega), Memory.get_put_of_ne _ _ (by omega)]

/-- A read after a write gives the byte written. -/
theorem Memory.get_writeBytes_of_inside {m : Memory} (hm : m.wf = true) (a : Nat) (l : List Byte) {k : Nat}
    (h : k < l.length) : (m.writeBytes a l).get (a + k) = l[k] := by
  induction l generalizing m a k with
  | nil => exact absurd h (by simp)
  | cons b rest ih =>
    cases k with
    | zero =>
      rw [Memory.writeBytes, Memory.get_writeBytes_of_outside _ _ (by omega)]
      exact Memory.get_put_self hm a b
    | succ k =>
      have := ih (Memory.wf_put hm a b) (a + 1) (k := k) (by simpa using h)
      rw [Memory.writeBytes, show a + (k + 1) = a + 1 + k by omega, this]
      simp

@[simp] theorem Memory.length_readBytes (m : Memory) (a n : Nat) : (m.readBytes a n).length = n := by
  induction n generalizing a with
  | zero => rfl
  | succ n ih => simp [Memory.readBytes, ih]

theorem Memory.getElem_readBytes (m : Memory) (a n k : Nat) (h : k < (m.readBytes a n).length) :
    (m.readBytes a n)[k] = m.get (a + k) := by
  induction n generalizing a k with
  | zero => simp at h
  | succ n ih =>
    cases k with
    | zero => rfl
    | succ k =>
      simp only [Memory.readBytes, List.getElem_cons_succ]
      rw [ih (a + 1) k (by simpa [Memory.readBytes] using h), show a + 1 + k = a + (k + 1) by omega]

/-- Two reads give the same bytes exactly when every byte read is the same. -/
theorem Memory.readBytes_eq_iff (m m' : Memory) (a a' n : Nat) :
    m.readBytes a n = m'.readBytes a' n ↔ ∀ k < n, m.get (a + k) = m'.get (a' + k) := by
  constructor
  · intro h k hk
    have h1 := Memory.getElem_readBytes m a n k (by simpa)
    have h2 := Memory.getElem_readBytes m' a' n k (by simpa)
    rw [← h1, ← h2]
    simp [h]
  · intro h
    apply List.ext_getElem (by simp)
    intro k hk hk'
    rw [Memory.getElem_readBytes, Memory.getElem_readBytes]
    exact h k (by simpa using hk)

/-- A supplied or encoded storage is canonical and inside its capacity. -/
theorem Storage.wf_ofBytes {cap : Nat} {l : List Byte} (h : l.length ≤ cap) : (Storage.ofBytes cap l).wf = true := by
  have h1 : ((Storage.ofBytes cap l).mem).wf = true := Memory.wf_writeBytes (m := []) rfl 0 l
  have h2 : ((Storage.ofBytes cap l).mem).below cap = true := Memory.below_writeBytes (m := []) rfl (by simpa using h)
  simp only [Storage.wf, h1, Bool.true_and]
  exact h2

@[simp] theorem Storage.cap_ofBytes (cap : Nat) (l : List Byte) : (Storage.ofBytes cap l).cap = cap := rfl

/-- A storage made of bytes holds them, and 0 after them (R162). -/
theorem Storage.get_ofBytes (cap : Nat) (l : List Byte) (a : Nat) : (Storage.ofBytes cap l).mem.get a = l.getD a 0 := by
  by_cases h : a < l.length
  · have := Memory.get_writeBytes_of_inside (m := []) rfl 0 l h
    simpa [Storage.ofBytes, List.getD_eq_getElem?_getD, h] using this
  · have := Memory.get_writeBytes_of_outside [] (a := 0) l (x := a) (by omega)
    simpa [Storage.ofBytes, List.getD_eq_getElem?_getD, h, Memory.get] using this

end Sys2Proof.Machine
end

