-- ==== Sys2Proof/Laws/State.lean ====
section
/-! SUPPORT. What each named update of the state does to each field, and to what is read of the storages: one lemma per field and
update, so that no later proof unfolds a record update. -/

namespace Sys2Proof.Machine

@[simp] theorem State.setStorage_params (s : State) (h : Nat) (st : Storage) : (s.setStorage h st).params = s.params := rfl
@[simp] theorem State.setStorage_storages (s : State) (h : Nat) (st : Storage) : (s.setStorage h st).storages = s.storages.set h st := rfl
@[simp] theorem State.setStorage_live (s : State) (h : Nat) (st : Storage) : (s.setStorage h st).live = s.live := rfl
@[simp] theorem State.setStorage_nextTag (s : State) (h : Nat) (st : Storage) : (s.setStorage h st).nextTag = s.nextTag := rfl
@[simp] theorem State.setStorage_fault (s : State) (h : Nat) (st : Storage) : (s.setStorage h st).fault = s.fault := rfl
@[simp] theorem State.setStorage_ports (s : State) (h : Nat) (st : Storage) : (s.setStorage h st).ports = s.ports := rfl
@[simp] theorem State.setStorage_status (s : State) (h : Nat) (st : Storage) : (s.setStorage h st).status = s.status := rfl
@[simp] theorem State.setStorage_result (s : State) (h : Nat) (st : Storage) : (s.setStorage h st).result = s.result := rfl
@[simp] theorem State.setStorage_info (s : State) (h : Nat) (st : Storage) : (s.setStorage h st).info = s.info := rfl
@[simp] theorem State.setStorage_program (s : State) (h : Nat) (st : Storage) : (s.setStorage h st).program = s.program := rfl
@[simp] theorem State.setStorage_pc (s : State) (h : Nat) (st : Storage) : (s.setStorage h st).pc = s.pc := rfl
@[simp] theorem State.setStorage_slots (s : State) (h : Nat) (st : Storage) : (s.setStorage h st).slots = s.slots := rfl

@[simp] theorem State.addStorage_params (s : State) (st : Storage) : (s.addStorage st).params = s.params := rfl
@[simp] theorem State.addStorage_storages (s : State) (st : Storage) : (s.addStorage st).storages = s.storages ++ [st] := rfl
@[simp] theorem State.addStorage_live (s : State) (st : Storage) : (s.addStorage st).live = s.live := rfl
@[simp] theorem State.addStorage_nextTag (s : State) (st : Storage) : (s.addStorage st).nextTag = s.nextTag := rfl
@[simp] theorem State.addStorage_fault (s : State) (st : Storage) : (s.addStorage st).fault = s.fault := rfl
@[simp] theorem State.addStorage_ports (s : State) (st : Storage) : (s.addStorage st).ports = s.ports := rfl
@[simp] theorem State.addStorage_status (s : State) (st : Storage) : (s.addStorage st).status = s.status := rfl
@[simp] theorem State.addStorage_result (s : State) (st : Storage) : (s.addStorage st).result = s.result := rfl
@[simp] theorem State.addStorage_info (s : State) (st : Storage) : (s.addStorage st).info = s.info := rfl
@[simp] theorem State.addStorage_program (s : State) (st : Storage) : (s.addStorage st).program = s.program := rfl
@[simp] theorem State.addStorage_pc (s : State) (st : Storage) : (s.addStorage st).pc = s.pc := rfl
@[simp] theorem State.addStorage_slots (s : State) (st : Storage) : (s.addStorage st).slots = s.slots := rfl

@[simp] theorem State.addLive_params (s : State) (v : View) : (s.addLive v).params = s.params := rfl
@[simp] theorem State.addLive_storages (s : State) (v : View) : (s.addLive v).storages = s.storages := rfl
@[simp] theorem State.addLive_live (s : State) (v : View) : (s.addLive v).live = s.live ++ [v] := rfl
@[simp] theorem State.addLive_nextTag (s : State) (v : View) : (s.addLive v).nextTag = s.nextTag + 1 := rfl
@[simp] theorem State.addLive_fault (s : State) (v : View) : (s.addLive v).fault = s.fault := rfl
@[simp] theorem State.addLive_ports (s : State) (v : View) : (s.addLive v).ports = s.ports := rfl
@[simp] theorem State.addLive_status (s : State) (v : View) : (s.addLive v).status = s.status := rfl
@[simp] theorem State.addLive_result (s : State) (v : View) : (s.addLive v).result = s.result := rfl
@[simp] theorem State.addLive_info (s : State) (v : View) : (s.addLive v).info = s.info := rfl
@[simp] theorem State.addLive_program (s : State) (v : View) : (s.addLive v).program = s.program := rfl
@[simp] theorem State.addLive_pc (s : State) (v : View) : (s.addLive v).pc = s.pc := rfl
@[simp] theorem State.addLive_slots (s : State) (v : View) : (s.addLive v).slots = s.slots := rfl
@[simp] theorem State.addLive_cap (s : State) (v : View) (k : Nat) : (s.addLive v).cap k = s.cap k := rfl
@[simp] theorem State.addLive_byteAt (s : State) (v : View) (k x : Nat) : (s.addLive v).byteAt k x = s.byteAt k x := rfl

@[simp] theorem State.dropLive_params (s : State) (v : View) : (s.dropLive v).params = s.params := rfl
@[simp] theorem State.dropLive_storages (s : State) (v : View) : (s.dropLive v).storages = s.storages := rfl
@[simp] theorem State.dropLive_live (s : State) (v : View) : (s.dropLive v).live = s.live.filter (fun w => decide (w ≠ v)) := rfl
@[simp] theorem State.dropLive_nextTag (s : State) (v : View) : (s.dropLive v).nextTag = s.nextTag := rfl
@[simp] theorem State.dropLive_fault (s : State) (v : View) : (s.dropLive v).fault = s.fault := rfl
@[simp] theorem State.dropLive_ports (s : State) (v : View) : (s.dropLive v).ports = s.ports := rfl
@[simp] theorem State.dropLive_status (s : State) (v : View) : (s.dropLive v).status = s.status := rfl
@[simp] theorem State.dropLive_result (s : State) (v : View) : (s.dropLive v).result = s.result := rfl
@[simp] theorem State.dropLive_info (s : State) (v : View) : (s.dropLive v).info = s.info := rfl
@[simp] theorem State.dropLive_program (s : State) (v : View) : (s.dropLive v).program = s.program := rfl
@[simp] theorem State.dropLive_pc (s : State) (v : View) : (s.dropLive v).pc = s.pc := rfl
@[simp] theorem State.dropLive_slots (s : State) (v : View) : (s.dropLive v).slots = s.slots := rfl
@[simp] theorem State.dropLive_cap (s : State) (v : View) (k : Nat) : (s.dropLive v).cap k = s.cap k := rfl
@[simp] theorem State.dropLive_byteAt (s : State) (v : View) (k x : Nat) : (s.dropLive v).byteAt k x = s.byteAt k x := rfl

@[simp] theorem State.record_params (s : State) (e : FaultEvent) : (s.record e).params = s.params := rfl
@[simp] theorem State.record_storages (s : State) (e : FaultEvent) : (s.record e).storages = s.storages := rfl
@[simp] theorem State.record_live (s : State) (e : FaultEvent) : (s.record e).live = s.live := rfl
@[simp] theorem State.record_nextTag (s : State) (e : FaultEvent) : (s.record e).nextTag = s.nextTag := rfl
@[simp] theorem State.record_fault (s : State) (e : FaultEvent) : (s.record e).fault = s.fault ++ [e] := rfl
@[simp] theorem State.record_ports (s : State) (e : FaultEvent) : (s.record e).ports = s.ports := rfl
@[simp] theorem State.record_status (s : State) (e : FaultEvent) : (s.record e).status = s.status := rfl
@[simp] theorem State.record_result (s : State) (e : FaultEvent) : (s.record e).result = s.result := rfl
@[simp] theorem State.record_info (s : State) (e : FaultEvent) : (s.record e).info = s.info := rfl
@[simp] theorem State.record_program (s : State) (e : FaultEvent) : (s.record e).program = s.program := rfl
@[simp] theorem State.record_pc (s : State) (e : FaultEvent) : (s.record e).pc = s.pc := rfl
@[simp] theorem State.record_slots (s : State) (e : FaultEvent) : (s.record e).slots = s.slots := rfl
@[simp] theorem State.record_cap (s : State) (e : FaultEvent) (k : Nat) : (s.record e).cap k = s.cap k := rfl
@[simp] theorem State.record_byteAt (s : State) (e : FaultEvent) (k x : Nat) : (s.record e).byteAt k x = s.byteAt k x := rfl

@[simp] theorem State.answer_params (s : State) (parts : List Value) : (s.answer parts).params = s.params := rfl
@[simp] theorem State.answer_storages (s : State) (parts : List Value) : (s.answer parts).storages = s.storages := rfl
@[simp] theorem State.answer_live (s : State) (parts : List Value) : (s.answer parts).live = s.live := rfl
@[simp] theorem State.answer_nextTag (s : State) (parts : List Value) : (s.answer parts).nextTag = s.nextTag := rfl
@[simp] theorem State.answer_fault (s : State) (parts : List Value) : (s.answer parts).fault = s.fault := rfl
@[simp] theorem State.answer_ports (s : State) (parts : List Value) : (s.answer parts).ports = s.ports := rfl
@[simp] theorem State.answer_status (s : State) (parts : List Value) : (s.answer parts).status = 0 := rfl
@[simp] theorem State.answer_result (s : State) (parts : List Value) : (s.answer parts).result = parts := rfl
@[simp] theorem State.answer_info (s : State) (parts : List Value) : (s.answer parts).info = none := rfl
@[simp] theorem State.answer_program (s : State) (parts : List Value) : (s.answer parts).program = s.program := rfl
@[simp] theorem State.answer_pc (s : State) (parts : List Value) : (s.answer parts).pc = s.pc := rfl
@[simp] theorem State.answer_slots (s : State) (parts : List Value) : (s.answer parts).slots = s.slots := rfl
@[simp] theorem State.answer_cap (s : State) (parts : List Value) (k : Nat) : (s.answer parts).cap k = s.cap k := rfl
@[simp] theorem State.answer_byteAt (s : State) (parts : List Value) (k x : Nat) : (s.answer parts).byteAt k x = s.byteAt k x := rfl

@[simp] theorem State.presentOp_params (s : State) (code : Byte) : (s.presentOp code).params = s.params := rfl
@[simp] theorem State.presentOp_storages (s : State) (code : Byte) : (s.presentOp code).storages = s.storages := rfl
@[simp] theorem State.presentOp_live (s : State) (code : Byte) : (s.presentOp code).live = s.live := rfl
@[simp] theorem State.presentOp_nextTag (s : State) (code : Byte) : (s.presentOp code).nextTag = s.nextTag := rfl
@[simp] theorem State.presentOp_fault (s : State) (code : Byte) : (s.presentOp code).fault = s.fault := rfl
@[simp] theorem State.presentOp_ports (s : State) (code : Byte) : (s.presentOp code).ports = { s.ports with op := code } := rfl
@[simp] theorem State.presentOp_status (s : State) (code : Byte) : (s.presentOp code).status = s.status := rfl
@[simp] theorem State.presentOp_result (s : State) (code : Byte) : (s.presentOp code).result = s.result := rfl
@[simp] theorem State.presentOp_info (s : State) (code : Byte) : (s.presentOp code).info = s.info := rfl
@[simp] theorem State.presentOp_program (s : State) (code : Byte) : (s.presentOp code).program = s.program := rfl
@[simp] theorem State.presentOp_pc (s : State) (code : Byte) : (s.presentOp code).pc = s.pc := rfl
@[simp] theorem State.presentOp_slots (s : State) (code : Byte) : (s.presentOp code).slots = s.slots := rfl
@[simp] theorem State.presentOp_cap (s : State) (code : Byte) (k : Nat) : (s.presentOp code).cap k = s.cap k := rfl
@[simp] theorem State.presentOp_byteAt (s : State) (code : Byte) (k x : Nat) : (s.presentOp code).byteAt k x = s.byteAt k x := rfl

@[simp] theorem State.present_params (s : State) (code : Byte) (ports : Ports) : (s.present code ports).params = s.params := rfl
@[simp] theorem State.present_storages (s : State) (code : Byte) (ports : Ports) : (s.present code ports).storages = s.storages := rfl
@[simp] theorem State.present_live (s : State) (code : Byte) (ports : Ports) : (s.present code ports).live = s.live := rfl
@[simp] theorem State.present_nextTag (s : State) (code : Byte) (ports : Ports) : (s.present code ports).nextTag = s.nextTag := rfl
@[simp] theorem State.present_fault (s : State) (code : Byte) (ports : Ports) : (s.present code ports).fault = s.fault := rfl
@[simp] theorem State.present_ports (s : State) (code : Byte) (ports : Ports) : (s.present code ports).ports = { ports with op := code } := rfl
@[simp] theorem State.present_status (s : State) (code : Byte) (ports : Ports) : (s.present code ports).status = s.status := rfl
@[simp] theorem State.present_result (s : State) (code : Byte) (ports : Ports) : (s.present code ports).result = s.result := rfl
@[simp] theorem State.present_info (s : State) (code : Byte) (ports : Ports) : (s.present code ports).info = s.info := rfl
@[simp] theorem State.present_program (s : State) (code : Byte) (ports : Ports) : (s.present code ports).program = s.program := rfl
@[simp] theorem State.present_pc (s : State) (code : Byte) (ports : Ports) : (s.present code ports).pc = s.pc := rfl
@[simp] theorem State.present_slots (s : State) (code : Byte) (ports : Ports) : (s.present code ports).slots = s.slots := rfl
@[simp] theorem State.present_cap (s : State) (code : Byte) (ports : Ports) (k : Nat) : (s.present code ports).cap k = s.cap k := rfl
@[simp] theorem State.present_byteAt (s : State) (code : Byte) (ports : Ports) (k x : Nat) : (s.present code ports).byteAt k x = s.byteAt k x := rfl

@[simp] theorem State.setSlots_params (s : State) (l : List (Nat × Value)) : (s.setSlots l).params = s.params := rfl
@[simp] theorem State.setSlots_storages (s : State) (l : List (Nat × Value)) : (s.setSlots l).storages = s.storages := rfl
@[simp] theorem State.setSlots_live (s : State) (l : List (Nat × Value)) : (s.setSlots l).live = s.live := rfl
@[simp] theorem State.setSlots_nextTag (s : State) (l : List (Nat × Value)) : (s.setSlots l).nextTag = s.nextTag := rfl
@[simp] theorem State.setSlots_fault (s : State) (l : List (Nat × Value)) : (s.setSlots l).fault = s.fault := rfl
@[simp] theorem State.setSlots_ports (s : State) (l : List (Nat × Value)) : (s.setSlots l).ports = s.ports := rfl
@[simp] theorem State.setSlots_status (s : State) (l : List (Nat × Value)) : (s.setSlots l).status = s.status := rfl
@[simp] theorem State.setSlots_result (s : State) (l : List (Nat × Value)) : (s.setSlots l).result = s.result := rfl
@[simp] theorem State.setSlots_info (s : State) (l : List (Nat × Value)) : (s.setSlots l).info = s.info := rfl
@[simp] theorem State.setSlots_program (s : State) (l : List (Nat × Value)) : (s.setSlots l).program = s.program := rfl
@[simp] theorem State.setSlots_pc (s : State) (l : List (Nat × Value)) : (s.setSlots l).pc = s.pc := rfl
@[simp] theorem State.setSlots_slots (s : State) (l : List (Nat × Value)) : (s.setSlots l).slots = l := rfl
@[simp] theorem State.setSlots_cap (s : State) (l : List (Nat × Value)) (k : Nat) : (s.setSlots l).cap k = s.cap k := rfl
@[simp] theorem State.setSlots_byteAt (s : State) (l : List (Nat × Value)) (k x : Nat) : (s.setSlots l).byteAt k x = s.byteAt k x := rfl

@[simp] theorem State.raise_params (s : State) (f : Failure) : (s.raise f).params = s.params := by cases f <;> rfl
@[simp] theorem State.raise_storages (s : State) (f : Failure) : (s.raise f).storages = s.storages := by cases f <;> rfl
@[simp] theorem State.raise_live (s : State) (f : Failure) : (s.raise f).live = s.live := by cases f <;> rfl
@[simp] theorem State.raise_nextTag (s : State) (f : Failure) : (s.raise f).nextTag = s.nextTag := by cases f <;> rfl
@[simp] theorem State.raise_ports (s : State) (f : Failure) : (s.raise f).ports = s.ports := by cases f <;> rfl
@[simp] theorem State.raise_program (s : State) (f : Failure) : (s.raise f).program = s.program := by cases f <;> rfl
@[simp] theorem State.raise_pc (s : State) (f : Failure) : (s.raise f).pc = s.pc := by cases f <;> rfl
@[simp] theorem State.raise_slots (s : State) (f : Failure) : (s.raise f).slots = s.slots := by cases f <;> rfl
@[simp] theorem State.raise_status (s : State) (f : Failure) : (s.raise f).status = f.code := by cases f <;> rfl
@[simp] theorem State.raise_result (s : State) (f : Failure) : (s.raise f).result = [] := by cases f <;> rfl
@[simp] theorem State.raise_info (s : State) (f : Failure) : (s.raise f).info = some f := by cases f <;> rfl
@[simp] theorem State.raise_error_fault (s : State) (e : ErrorResult) : (s.raise (.error e)).fault = s.fault := rfl
@[simp] theorem State.raise_fault_fault (s : State) (e : FaultEvent) : (s.raise (.fault e)).fault = s.fault ++ [e] := rfl
@[simp] theorem State.raise_cap (s : State) (f : Failure) (k : Nat) : (s.raise f).cap k = s.cap k := by cases f <;> rfl
@[simp] theorem State.raise_byteAt (s : State) (f : Failure) (k x : Nat) : (s.raise f).byteAt k x = s.byteAt k x := by
  cases f <;> rfl

@[simp] theorem State.advance_params (s : State) : s.advance.params = s.params := by unfold State.advance; split <;> rfl
@[simp] theorem State.advance_storages (s : State) : s.advance.storages = s.storages := by unfold State.advance; split <;> rfl
@[simp] theorem State.advance_live (s : State) : s.advance.live = s.live := by unfold State.advance; split <;> rfl
@[simp] theorem State.advance_nextTag (s : State) : s.advance.nextTag = s.nextTag := by unfold State.advance; split <;> rfl
@[simp] theorem State.advance_fault (s : State) : s.advance.fault = s.fault := by unfold State.advance; split <;> rfl
@[simp] theorem State.advance_ports (s : State) : s.advance.ports = s.ports := by unfold State.advance; split <;> rfl
@[simp] theorem State.advance_status (s : State) : s.advance.status = s.status := by unfold State.advance; split <;> rfl
@[simp] theorem State.advance_result (s : State) : s.advance.result = s.result := by unfold State.advance; split <;> rfl
@[simp] theorem State.advance_info (s : State) : s.advance.info = s.info := by unfold State.advance; split <;> rfl
@[simp] theorem State.advance_program (s : State) : s.advance.program = s.program := by unfold State.advance; split <;> rfl
@[simp] theorem State.advance_slots (s : State) : s.advance.slots = s.slots := by unfold State.advance; split <;> rfl
@[simp] theorem State.advance_cap (s : State) (k : Nat) : s.advance.cap k = s.cap k := by unfold State.advance; split <;> rfl
@[simp] theorem State.advance_byteAt (s : State) (k x : Nat) : s.advance.byteAt k x = s.byteAt k x := by
  unfold State.advance; split <;> rfl
/-- The statement index moves on exactly where the run has not stopped (R90). -/
theorem State.advance_pc (s : State) : s.advance.pc = if s.fault = [] then s.pc + 1 else s.pc := by
  unfold State.advance; split <;> rfl

@[simp] theorem State.retire_params (s : State) (dests : List Nat) : (s.retire dests).params = s.params := by simp [State.retire]
@[simp] theorem State.retire_storages (s : State) (dests : List Nat) : (s.retire dests).storages = s.storages := by simp [State.retire]
@[simp] theorem State.retire_live (s : State) (dests : List Nat) : (s.retire dests).live = s.live := by simp [State.retire]
@[simp] theorem State.retire_nextTag (s : State) (dests : List Nat) : (s.retire dests).nextTag = s.nextTag := by simp [State.retire]
@[simp] theorem State.retire_fault (s : State) (dests : List Nat) : (s.retire dests).fault = s.fault := by simp [State.retire]
@[simp] theorem State.retire_ports (s : State) (dests : List Nat) : (s.retire dests).ports = s.ports := by simp [State.retire]
@[simp] theorem State.retire_status (s : State) (dests : List Nat) : (s.retire dests).status = s.status := by simp [State.retire]
@[simp] theorem State.retire_result (s : State) (dests : List Nat) : (s.retire dests).result = s.result := by simp [State.retire]
@[simp] theorem State.retire_info (s : State) (dests : List Nat) : (s.retire dests).info = s.info := by simp [State.retire]
@[simp] theorem State.retire_program (s : State) (dests : List Nat) : (s.retire dests).program = s.program := by simp [State.retire]
@[simp] theorem State.retire_slots (s : State) (dests : List Nat) :
    (s.retire dests).slots = slotPutAll s.slots dests (s.slotValues dests) := by simp [State.retire]
@[simp] theorem State.retire_cap (s : State) (dests : List Nat) (k : Nat) : (s.retire dests).cap k = s.cap k := by
  simp [State.retire]
@[simp] theorem State.retire_byteAt (s : State) (dests : List Nat) (k x : Nat) :
    (s.retire dests).byteAt k x = s.byteAt k x := by simp [State.retire]
theorem State.retire_pc (s : State) (dests : List Nat) :
    (s.retire dests).pc = if s.fault = [] then s.pc + 1 else s.pc := State.advance_pc _

@[simp] theorem refuseIssue_params (dests : List Nat) (code : Byte) (e : FaultEvent) (s : State) :
    (refuseIssue dests code e s).params = s.params := by simp [refuseIssue]
@[simp] theorem refuseIssue_storages (dests : List Nat) (code : Byte) (e : FaultEvent) (s : State) :
    (refuseIssue dests code e s).storages = s.storages := by simp [refuseIssue]
@[simp] theorem refuseIssue_live (dests : List Nat) (code : Byte) (e : FaultEvent) (s : State) :
    (refuseIssue dests code e s).live = s.live := by simp [refuseIssue]
@[simp] theorem refuseIssue_nextTag (dests : List Nat) (code : Byte) (e : FaultEvent) (s : State) :
    (refuseIssue dests code e s).nextTag = s.nextTag := by simp [refuseIssue]
@[simp] theorem refuseIssue_program (dests : List Nat) (code : Byte) (e : FaultEvent) (s : State) :
    (refuseIssue dests code e s).program = s.program := by simp [refuseIssue]
@[simp] theorem refuseIssue_fault (dests : List Nat) (code : Byte) (e : FaultEvent) (s : State) :
    (refuseIssue dests code e s).fault = s.fault ++ [e] := by simp [refuseIssue]
@[simp] theorem refuseIssue_ports (dests : List Nat) (code : Byte) (e : FaultEvent) (s : State) :
    (refuseIssue dests code e s).ports = { s.ports with op := code } := by simp [refuseIssue]
@[simp] theorem refuseIssue_status (dests : List Nat) (code : Byte) (e : FaultEvent) (s : State) :
    (refuseIssue dests code e s).status = e.code := by simp [refuseIssue, Failure.code]
@[simp] theorem refuseIssue_result (dests : List Nat) (code : Byte) (e : FaultEvent) (s : State) :
    (refuseIssue dests code e s).result = [] := by simp [refuseIssue]
@[simp] theorem refuseIssue_info (dests : List Nat) (code : Byte) (e : FaultEvent) (s : State) :
    (refuseIssue dests code e s).info = some (.fault e) := by simp [refuseIssue]
@[simp] theorem refuseIssue_pc (dests : List Nat) (code : Byte) (e : FaultEvent) (s : State) :
    (refuseIssue dests code e s).pc = s.pc := by simp [refuseIssue, State.retire_pc]
@[simp] theorem refuseIssue_cap (dests : List Nat) (code : Byte) (e : FaultEvent) (s : State) (k : Nat) :
    (refuseIssue dests code e s).cap k = s.cap k := by simp [refuseIssue]
@[simp] theorem refuseIssue_byteAt (dests : List Nat) (code : Byte) (e : FaultEvent) (s : State) (k x : Nat) :
    (refuseIssue dests code e s).byteAt k x = s.byteAt k x := by simp [refuseIssue]
/-- The status of a refused issue goes into every slot (log entry 6). -/
theorem refuseIssue_slots {dests : List Nat} {e : FaultEvent} (code : Byte) (s : State) (h : e.code ≠ 0) :
    (refuseIssue dests code e s).slots = slotPutAll s.slots dests (dests.map (fun _ => .failed e.code)) := by
  have h0 : ¬ e.code = 0#3 := h
  simp [refuseIssue, State.slotValues, Failure.code, h0]

@[simp] theorem State.give_params (s : State) (dest : Option Nat) (v : Value) : (s.give dest v).params = s.params := by
  cases dest <;> simp [State.give]
@[simp] theorem State.give_storages (s : State) (dest : Option Nat) (v : Value) : (s.give dest v).storages = s.storages := by
  cases dest <;> simp [State.give]
@[simp] theorem State.give_live (s : State) (dest : Option Nat) (v : Value) : (s.give dest v).live = s.live := by
  cases dest <;> simp [State.give]
@[simp] theorem State.give_nextTag (s : State) (dest : Option Nat) (v : Value) : (s.give dest v).nextTag = s.nextTag := by
  cases dest <;> simp [State.give]
@[simp] theorem State.give_fault (s : State) (dest : Option Nat) (v : Value) : (s.give dest v).fault = s.fault := by
  cases dest <;> simp [State.give]
@[simp] theorem State.give_ports (s : State) (dest : Option Nat) (v : Value) : (s.give dest v).ports = s.ports := by
  cases dest <;> simp [State.give]
@[simp] theorem State.give_status (s : State) (dest : Option Nat) (v : Value) : (s.give dest v).status = s.status := by
  cases dest <;> simp [State.give]
@[simp] theorem State.give_result (s : State) (dest : Option Nat) (v : Value) : (s.give dest v).result = s.result := by
  cases dest <;> simp [State.give]
@[simp] theorem State.give_info (s : State) (dest : Option Nat) (v : Value) : (s.give dest v).info = s.info := by
  cases dest <;> simp [State.give]
@[simp] theorem State.give_program (s : State) (dest : Option Nat) (v : Value) : (s.give dest v).program = s.program := by
  cases dest <;> simp [State.give]
@[simp] theorem State.give_cap (s : State) (dest : Option Nat) (v : Value) (k : Nat) : (s.give dest v).cap k = s.cap k := by
  cases dest <;> simp [State.give]
@[simp] theorem State.give_byteAt (s : State) (dest : Option Nat) (v : Value) (k x : Nat) :
    (s.give dest v).byteAt k x = s.byteAt k x := by cases dest <;> simp [State.give]
theorem State.give_pc (s : State) (dest : Option Nat) (v : Value) :
    (s.give dest v).pc = if s.fault = [] then s.pc + 1 else s.pc := by
  cases dest <;> exact State.advance_pc _

end Sys2Proof.Machine
end

