-- ==== Sys2Proof/Laws/Ops.lean ====
section
/-! SUPPORT. One lemma for each shared operation that says everything it can do. -/

namespace Sys2Proof.Machine

/-! ### Reading one byte and a capacity -/

theorem State.cap_eq {s : State} {h : Nat} {st : Storage} (hs : s.storages[h]? = some st) : s.cap h = st.cap := by
  simp [State.cap, hs]

theorem State.byteAt_eq {s : State} {h : Nat} {st : Storage} (hs : s.storages[h]? = some st) (a : Nat) :
    s.byteAt h a = if a < st.cap then some (st.mem.get a) else none := by
  simp [State.byteAt, hs]

/-- A handle with a byte names a storage. -/
theorem State.storage_of_cap {s : State} {h : Nat} (hc : 0 < s.cap h) : ∃ st, s.storages[h]? = some st ∧ st.cap = s.cap h := by
  unfold State.cap at hc ⊢
  cases hs : s.storages[h]? with
  | none => simp [hs] at hc
  | some st => exact ⟨st, rfl, by simp⟩

theorem State.lt_length_of_cap {s : State} {h : Nat} (hc : 0 < s.cap h) : h < s.storages.length := by
  obtain ⟨st, hs, -⟩ := State.storage_of_cap hc
  exact (List.getElem?_eq_some_iff.mp hs).1

/-- A byte exists exactly below the capacity. -/
theorem State.byteAt_isSome_iff (s : State) (h a : Nat) : (s.byteAt h a).isSome = true ↔ a < s.cap h := by
  unfold State.byteAt State.cap
  cases s.storages[h]? with
  | none => simp
  | some st => by_cases ha : a < st.cap <;> simp [ha]

theorem State.exists_byteAt {s : State} {h a : Nat} (ha : a < s.cap h) : ∃ b, s.byteAt h a = some b :=
  Option.isSome_iff_exists.mp ((State.byteAt_isSome_iff s h a).mpr ha)

/-! ### The memory primitives -/

/-- A primitive used inside a storage gives what it reads of it. -/
theorem State.withRoom_of_le {α : Type} {s : State} {h a n : Nat} {st : Storage} (f : Storage → α)
    (hs : s.storages[h]? = some st) (hr : a + n ≤ st.cap) : s.withRoom h a n f = .ok (f st) := by
  simp [State.withRoom, hs, hr]

/-- Everything a primitive can do: what `f` gives inside the storage, or the model fault outside it (R11). -/
theorem State.withRoom_cases {α : Type} (s : State) (h a n : Nat) (f : Storage → α) :
    (∃ st, s.storages[h]? = some st ∧ a + n ≤ st.cap ∧ s.withRoom h a n f = .ok (f st)) ∨
    s.withRoom h a n f = .error (.fault (.outsideStorage h a)) := by
  unfold State.withRoom
  cases hs : s.storages[h]? with
  | none => exact .inr rfl
  | some st =>
    by_cases hr : a + n ≤ st.cap
    · exact .inl ⟨st, rfl, hr, by simp [hr]⟩
    · exact .inr (by simp [hr])

/-- A byte read gives the byte that stands there (R48). -/
theorem State.readByte_eq {s : State} {h a : Nat} {b : Byte} (hb : s.byteAt h a = some b) : s.readByte h a = .ok b := by
  unfold State.byteAt at hb
  cases hs : s.storages[h]? with
  | none => simp [hs] at hb
  | some st =>
    simp only [hs, Option.ite_none_right_eq_some, Option.some.injEq] at hb
    rw [State.readByte, State.withRoom_of_le _ hs (by omega), hb.2]

theorem State.readByte_ok {s : State} {h a : Nat} {b : Byte} (hb : s.readByte h a = .ok b) : s.byteAt h a = some b := by
  rcases State.withRoom_cases s h a 1 (fun st => st.mem.get a) with ⟨st, hs, hr, he⟩ | he
  · rw [State.readByte, he] at hb
    rw [State.byteAt_eq hs, if_pos (by omega)]
    simpa using hb
  · rw [State.readByte, he] at hb
    cases hb

/-- A word read assembles the four bytes that stand there, in the host's order (R42). -/
theorem State.readWord_eq {s : State} {h a : Nat} {b0 b1 b2 b3 : Byte} (h0 : s.byteAt h a = some b0)
    (h1 : s.byteAt h (a + 1) = some b1) (h2 : s.byteAt h (a + 2) = some b2) (h3 : s.byteAt h (a + 3) = some b3) :
    s.readWord h a = .ok (word32 s.params.hostEndian b0 b1 b2 b3) := by
  unfold State.byteAt at h0 h1 h2 h3
  cases hs : s.storages[h]? with
  | none => simp [hs] at h0
  | some st =>
    simp only [hs, Option.ite_none_right_eq_some, Option.some.injEq] at h0 h1 h2 h3
    rw [State.readWord, State.withRoom_of_le _ hs (by omega), h0.2, h1.2, h2.2, h3.2]

/-- A read of several bytes gives exactly the bytes that stand there. -/
theorem State.memRead_ok {s : State} {h a n : Nat} {l : List Byte} (hl : s.memRead h a n = .ok l) :
    l.length = n ∧ ∀ k < n, s.byteAt h (a + k) = l[k]? := by
  rcases State.withRoom_cases s h a n (fun st => st.mem.readBytes a n) with ⟨st, hs, hr, he⟩ | he
  · rw [State.memRead, he] at hl
    obtain rfl : st.mem.readBytes a n = l := by simpa using hl
    refine ⟨Memory.length_readBytes _ _ _, fun k hk => ?_⟩
    rw [State.byteAt_eq hs, if_pos (by omega), List.getElem?_eq_getElem (by simpa using hk), Memory.getElem_readBytes]
  · rw [State.memRead, he] at hl
    cases hl

theorem State.memRead_exists {s : State} {h a n : Nat} (hh : h < s.storages.length) (hr : a + n ≤ s.cap h) :
    ∃ l, s.memRead h a n = .ok l := by
  have hs : s.storages[h]? = some s.storages[h] := List.getElem?_eq_getElem hh
  rw [State.cap_eq hs] at hr
  exact ⟨_, State.withRoom_of_le _ hs hr⟩

/-- What a write does, where it is inside the storage. -/
theorem State.memWrite_exists {s : State} {h a : Nat} {l : List Byte} (hh : h < s.storages.length)
    (hr : a + l.length ≤ s.cap h) :
    ∃ st, s.storages[h]? = some st ∧ a + l.length ≤ st.cap ∧
      s.memWrite h a l = .ok (s.setStorage h ⟨st.cap, st.mem.writeBytes a l⟩) := by
  have hs : s.storages[h]? = some s.storages[h] := List.getElem?_eq_getElem hh
  rw [State.cap_eq hs] at hr
  exact ⟨_, hs, hr, State.withRoom_of_le _ hs hr⟩

/-- Everything a write can do. -/
theorem State.memWrite_cases (s : State) (h a : Nat) (l : List Byte) :
    (∃ st, s.storages[h]? = some st ∧ a + l.length ≤ st.cap ∧
      s.memWrite h a l = .ok (s.setStorage h ⟨st.cap, st.mem.writeBytes a l⟩)) ∨
    s.memWrite h a l = .error (.fault (.outsideStorage h a)) :=
  State.withRoom_cases s h a l.length _

/-! ### A changed storage -/

theorem State.setStorage_cap {s : State} {h : Nat} {st : Storage} (hs : s.storages[h]? = some st) (m : Memory) (k : Nat) :
    (s.setStorage h ⟨st.cap, m⟩).cap k = s.cap k := by
  have hh := (List.getElem?_eq_some_iff.mp hs).1
  by_cases hk : k = h
  · subst hk
    rw [State.cap_eq hs, State.cap_eq (st := ⟨st.cap, m⟩) (by simp [hh])]
  · simp [State.cap, List.getElem?_set_ne (Ne.symm hk)]

theorem State.setStorage_byteAt_self {s : State} {h : Nat} {st : Storage} (hs : s.storages[h]? = some st) (m : Memory)
    (x : Nat) : (s.setStorage h ⟨st.cap, m⟩).byteAt h x = if x < st.cap then some (m.get x) else none := by
  have hh := (List.getElem?_eq_some_iff.mp hs).1
  simp [State.byteAt, hh]

theorem State.setStorage_byteAt_of_ne (s : State) {h k : Nat} (st : Storage) (hk : k ≠ h) (x : Nat) :
    (s.setStorage h st).byteAt k x = s.byteAt k x := by
  simp [State.byteAt, List.getElem?_set_ne (Ne.symm hk)]

/-- A write leaves every byte outside it alone. -/
theorem State.write_byteAt_of_outside {s : State} {h : Nat} {st : Storage} (hs : s.storages[h]? = some st) (a : Nat)
    (l : List Byte) {k x : Nat} (ho : ¬ (k = h ∧ a ≤ x ∧ x < a + l.length)) :
    (s.setStorage h ⟨st.cap, st.mem.writeBytes a l⟩).byteAt k x = s.byteAt k x := by
  by_cases hk : k = h
  · subst hk
    rw [State.setStorage_byteAt_self hs, State.byteAt_eq hs, Memory.get_writeBytes_of_outside _ _ (by omega)]
  · exact State.setStorage_byteAt_of_ne s _ hk x

/-- A write puts its bytes where it says. -/
theorem State.write_byteAt_of_inside {s : State} {h : Nat} {st : Storage} (hs : s.storages[h]? = some st)
    (hw : st.mem.wf = true) {a : Nat} {l : List Byte} (hr : a + l.length ≤ st.cap) {k : Nat} (hk : k < l.length) :
    (s.setStorage h ⟨st.cap, st.mem.writeBytes a l⟩).byteAt h (a + k) = some l[k] := by
  rw [State.setStorage_byteAt_self hs, if_pos (by omega), Memory.get_writeBytes_of_inside hw a l hk]

theorem State.MemWf.storage {s : State} (hw : s.MemWf) {h : Nat} {st : Storage} (hs : s.storages[h]? = some st) :
    st.wf = true := hw st (List.mem_of_getElem? hs)

theorem Storage.mem_wf {st : Storage} (h : st.wf = true) : st.mem.wf = true := by
  simp only [Storage.wf, Bool.and_eq_true] at h
  exact h.1

/-- A write keeps every storage canonical and inside its capacity. -/
theorem State.MemWf.write {s : State} (hw : s.MemWf) {h : Nat} {st : Storage} (hs : s.storages[h]? = some st) {a : Nat}
    {l : List Byte} (hr : a + l.length ≤ st.cap) : (s.setStorage h ⟨st.cap, st.mem.writeBytes a l⟩).MemWf := by
  intro x hx
  rcases List.mem_or_eq_of_mem_set hx with hx | rfl
  · exact hw x hx
  · have := hw.storage hs
    simp only [Storage.wf, Bool.and_eq_true] at this ⊢
    exact ⟨Memory.wf_writeBytes this.1 a l, Memory.below_writeBytes this.2 hr⟩

/-! ### A new storage -/

theorem State.addStorage_cap_of_ne (s : State) (st : Storage) {k : Nat} (hk : k ≠ s.storages.length) :
    (s.addStorage st).cap k = s.cap k := by
  unfold State.cap
  rcases Nat.lt_or_ge k s.storages.length with h | h
  · simp [List.getElem?_append_left h]
  · have h1 : (s.storages ++ [st])[k]? = none := List.getElem?_eq_none (by simp; omega)
    simp [h, h1]

theorem State.addStorage_byteAt_of_ne (s : State) (st : Storage) {k : Nat} (hk : k ≠ s.storages.length) (x : Nat) :
    (s.addStorage st).byteAt k x = s.byteAt k x := by
  unfold State.byteAt
  rcases Nat.lt_or_ge k s.storages.length with h | h
  · simp [List.getElem?_append_left h]
  · have h1 : (s.storages ++ [st])[k]? = none := List.getElem?_eq_none (by simp; omega)
    simp [h, h1]

@[simp] theorem State.addStorage_cap_self (s : State) (st : Storage) : (s.addStorage st).cap s.storages.length = st.cap := by
  simp [State.cap]

theorem State.addStorage_byteAt_self (s : State) (st : Storage) (x : Nat) :
    (s.addStorage st).byteAt s.storages.length x = if x < st.cap then some (st.mem.get x) else none := by
  simp [State.byteAt]

theorem State.MemWf.addStorage {s : State} (hw : s.MemWf) {st : Storage} (h : st.wf = true) : (s.addStorage st).MemWf := by
  intro x hx
  simp only [State.addStorage_storages, List.mem_append, List.mem_singleton] at hx
  rcases hx with hx | rfl
  · exact hw x hx
  · exact h

/-! ### Live regions -/

theorem View.meets_iff (v : View) (h a n : Nat) :
    v.meets h a n = true ↔ v.storage = h ∧ 0 < n ∧ a < v.base + v.size ∧ v.base < a + n := by
  simp [View.meets, and_assoc]

theorem State.meetsLive_iff (s : State) (h a n : Nat) : s.meetsLive h a n = true ↔ ∃ v ∈ s.live, v.meets h a n = true := by
  simp [State.meetsLive]

/-- Bytes that meet no live region lie outside each of them. -/
theorem State.outside_of_not_meetsLive {s : State} {h a n : Nat} (hm : s.meetsLive h a n = false) {v : View} (hv : v ∈ s.live)
    {x : Nat} (h1 : v.base ≤ x) (h2 : x < v.base + v.size) : ¬ (v.storage = h ∧ a ≤ x ∧ x < a + n) := by
  rintro ⟨h3, h4, h5⟩
  have : s.meetsLive h a n = true := (State.meetsLive_iff s h a n).mpr
    ⟨v, hv, (View.meets_iff v h a n).mpr ⟨h3, by omega, by omega, by omega⟩⟩
  simp [this] at hm

/-! ### The interface -/

/-- Everything the end of an operation on the interface can be. -/
theorem State.conclude_cases (s : State) (r : Except Failure (List Value)) :
    (∃ parts, r = .ok parts ∧ s.conclude r = .next (s.answer parts)) ∨
    (∃ f, r = .error f ∧ s.conclude r = .next (s.raise f)) := by
  cases r with
  | ok parts => exact .inl ⟨parts, rfl, rfl⟩
  | error f => exact .inr ⟨f, rfl, rfl⟩

/-- Everything the end of a state-changing operation can be. -/
theorem State.commit_cases (s : State) (r : Except Failure (State × List Value)) :
    (∃ t parts, r = .ok (t, parts) ∧ s.commit r = .next (t.answer parts)) ∨
    (∃ f, r = .error f ∧ s.commit r = .next (s.raise f)) := by
  cases r with
  | ok x => exact .inl ⟨x.1, x.2, rfl, rfl⟩
  | error f => exact .inr ⟨f, rfl, rfl⟩

/-- A view operation on a descriptor that is not live is refused (R24, R120). -/
theorem State.onView_of_not_mem {s : State} (f : View → Except Failure (List Value)) (h : s.ports.view ∉ s.live) :
    s.onView f = .next (s.raise (.fault (.illegalView s.ports.view))) := by
  simp [State.onView, h, State.conclude]

/-- A view operation on a live descriptor ends as its read does. -/
theorem State.onView_of_mem {s : State} (f : View → Except Failure (List Value)) (h : s.ports.view ∈ s.live) :
    s.onView f = s.conclude (f s.ports.view) := by
  simp [State.onView, h]

/-- Everything a view operation can do: it answers or it fails, and changes nothing but the interface. -/
theorem State.onView_cases (s : State) (f : View → Except Failure (List Value)) :
    (∃ parts, s.onView f = .next (s.answer parts)) ∨ (∃ e, s.onView f = .next (s.raise e)) := by
  rcases State.conclude_cases s _ with ⟨p, -, h⟩ | ⟨e, -, h⟩
  · exact .inl ⟨p, h⟩
  · exact .inr ⟨e, h⟩

theorem ErrorResult.code_lt (e : ErrorResult) : e.code.toNat < 6 := by cases e <;> simp [ErrorResult.code]
theorem ErrorResult.code_ne_zero (e : ErrorResult) : e.code ≠ 0 := by cases e <;> simp [ErrorResult.code]
theorem FaultEvent.code_ge (e : FaultEvent) : 6 ≤ e.code.toNat := by cases e <;> simp [FaultEvent.code]
theorem FaultEvent.code_ne_zero (e : FaultEvent) : e.code ≠ 0 := by cases e <;> simp [FaultEvent.code]
theorem Failure.code_ne_zero (f : Failure) : f.code ≠ 0 := by
  cases f
  · exact ErrorResult.code_ne_zero _
  · exact FaultEvent.code_ne_zero _

end Sys2Proof.Machine
end

