-- ==== Sys2Proof/Laws/Exec.lean ====
section
/-! SUPPORT. One lemma for each family's shared operation that says everything it can do, and the inversion of `exec` that the
whole-machine claims rest on. -/

namespace Sys2Proof.Machine

/-! ### Field reads of a frame -/

/-- Where a descriptor fits, every byte of its region exists. -/
theorem View.Fits.byte {v : View} {s : State} (h : v.Fits s) {k : Nat} (hk : k < v.size) :
    ∃ b, s.byteAt v.storage (v.base + k) = some b := State.exists_byteAt (by have := h.2; omega)

theorem View.Fits.size_ge {v : View} {s : State} (h : v.Fits s) : 16 ≤ v.size := by
  rcases h.1 with h | h <;> simp at h <;> omega

theorem View.Fits.lt_length {v : View} {s : State} (h : v.Fits s) : v.storage < s.storages.length :=
  State.lt_length_of_cap (by have := h.2; have := h.size_ge; omega)

/-- A live descriptor fits. -/
theorem State.LiveInv.fits {s : State} (h : s.LiveInv) {v : View} (hv : v ∈ s.live) : v.Fits s := h.1 v hv

theorem State.viewDlen_eq {s : State} {v : View} {b : Byte} (h : s.byteAt v.storage (v.base + 4) = some b) :
    s.viewDlen v = .ok b := State.readByte_eq h

theorem State.viewFlags_eq {s : State} {v : View} {b : Byte} (h : s.byteAt v.storage (v.base + 5) = some b) :
    s.viewFlags v = .ok b := State.readByte_eq h

theorem State.viewDlen_ok {s : State} {v : View} {b : Byte} (h : s.viewDlen v = .ok b) :
    s.byteAt v.storage (v.base + 4) = some b := State.readByte_ok h

theorem State.viewFlags_ok {s : State} {v : View} {b : Byte} (h : s.viewFlags v = .ok b) :
    s.byteAt v.storage (v.base + 5) = some b := State.readByte_ok h

/-- The identifier word of a frame whose four identifier bytes are given. -/
theorem State.viewRawId_eq {s : State} {v : View} {b0 b1 b2 b3 : Byte} (h0 : s.byteAt v.storage (v.base + 0) = some b0)
    (h1 : s.byteAt v.storage (v.base + 1) = some b1) (h2 : s.byteAt v.storage (v.base + 2) = some b2)
    (h3 : s.byteAt v.storage (v.base + 3) = some b3) : s.viewRawId v = .ok (word32 s.params.hostEndian b0 b1 b2 b3) :=
  State.readWord_eq h0 h1 h2 h3

/-- The codec delegations of a frame whose identifier word is given (R86). -/
theorem State.viewCodec_eq {s : State} {v : View} {w : Word} (f : Params → Word → Value) (h : s.viewRawId v = .ok w) :
    s.viewCodec f v = .ok [f s.params w] := by
  simp [State.viewCodec, h, bind, Except.bind, pure, Except.pure]

theorem State.viewIsFd_eq {s : State} {v : View} {dlen flags : Byte} (hd : s.byteAt v.storage (v.base + 4) = some dlen)
    (hf : s.byteAt v.storage (v.base + 5) = some flags) : s.viewIsFd v = .ok (fdClass flags dlen) := by
  simp [State.viewIsFd, State.viewDlen_eq hd, State.viewFlags_eq hf, bind, Except.bind, pure, Except.pure]

/-- The span of a descriptor that fits: exactly its region's bytes. -/
theorem View.Fits.span {v : View} {s : State} (h : v.Fits s) :
    ∃ l, s.viewSpan v = .ok l ∧ l.length = v.size ∧ ∀ k < v.size, s.byteAt v.storage (v.base + k) = l[k]? := by
  obtain ⟨l, hl⟩ := State.memRead_exists h.lt_length h.2
  exact ⟨l, hl, State.memRead_ok hl⟩

/-- What `spanOk` says of the two bytes it reads. -/
theorem State.spanOk_iff {s : State} {v : View} {dlen flags : Byte} (hd : s.byteAt v.storage (v.base + 4) = some dlen)
    (hf : s.byteAt v.storage (v.base + 5) = some flags) :
    s.spanOk v = true ↔ dlen.toNat ≤ effMaxLength flags dlen ∧ 8 + dlen.toNat ≤ v.size := by
  simp only [State.spanOk, Config.offsetDataLength, Config.offsetFlags, Config.headerLength, hd, hf, Bool.and_eq_true,
    decide_eq_true_eq]
  omega

theorem State.spanOk_bytes {s : State} {v : View} (h : s.spanOk v = true) :
    ∃ dlen flags, s.byteAt v.storage (v.base + 4) = some dlen ∧ s.byteAt v.storage (v.base + 5) = some flags := by
  unfold State.spanOk at h
  split at h
  · exact ⟨_, _, ‹_›, ‹_›⟩
  · simp at h

/-- The effective maximum by cases of the data length (R131, R153). -/
theorem effMaxLength_ge (flags dlen : Byte) : 8 ≤ effMaxLength flags dlen := by
  unfold effMaxLength
  split <;> simp

theorem effMaxLength_of_gt {flags dlen : Byte} (h : 8 < dlen.toNat) : effMaxLength flags dlen = 64 := by
  have : fdClass flags dlen = true := by simp [fdClass, h]
  simp [effMaxLength, this]

/-- The data length passes its bound exactly when it is at most 64 (R153). -/
theorem effMaxLength_lt_iff (flags dlen : Byte) : effMaxLength flags dlen < dlen.toNat ↔ 64 < dlen.toNat := by
  by_cases h : 8 < dlen.toNat
  · rw [effMaxLength_of_gt h]
  · have := effMaxLength_ge flags dlen
    omega

/-! ### Validation -/

/-- VALIDATE of a region of a legal size whose length and flags bytes are given: its checks in their order (R151). -/
theorem State.validate_eq {s : State} {h base limit : Nat} {dlen flags : Byte}
    (hs : limit - base = 16 ∨ limit - base = 72) (hd : s.byteAt h (base + 4) = some dlen)
    (hf : s.byteAt h (base + 5) = some flags) :
    s.validate h base limit =
      if 64 < dlen.toNat then .error (.error (.payloadTooLong dlen.toNat))
      else if limit < base + 8 + dlen.toNat then .error (.error (.bufferOverflow dlen.toNat))
      else .ok ⟨h, base, limit - base, s.nextTag⟩ := by
  have hn : ¬ (limit - base ≠ Config.mtu ∧ limit - base ≠ Config.fdMtu) := by simp; omega
  have hd' : s.viewDlen ⟨h, base, limit - base, s.nextTag⟩ = .ok dlen := State.viewDlen_eq hd
  have hf' : s.viewFlags ⟨h, base, limit - base, s.nextTag⟩ = .ok flags := State.viewFlags_eq hf
  have hx := effMaxLength_lt_iff flags dlen
  simp only [State.validate, if_neg hn, hd', hf', bind, Except.bind, pure, Except.pure, Config.headerLength]
  by_cases h64 : 64 < dlen.toNat
  · rw [if_pos h64, if_pos (hx.mpr h64)]
  · rw [if_neg h64, if_neg (fun h => h64 (hx.mp h))]

/-- What a successful VALIDATE says of the region (R155). -/
theorem State.validate_ok {s : State} {h base limit : Nat} {v : View} (hv : s.validate h base limit = .ok v) :
    v = ⟨h, base, limit - base, s.nextTag⟩ ∧ (limit - base = 16 ∨ limit - base = 72) ∧
      ∃ dlen flags, s.byteAt h (base + 4) = some dlen ∧ s.byteAt h (base + 5) = some flags ∧
        dlen.toNat ≤ effMaxLength flags dlen ∧ base + 8 + dlen.toNat ≤ limit := by
  by_cases hn : limit - base ≠ Config.mtu ∧ limit - base ≠ Config.fdMtu
  · simp only [State.validate, if_pos hn] at hv
    cases hv
  · simp only [State.validate, if_neg hn] at hv
    have hs : limit - base = 16 ∨ limit - base = 72 := by simp at hn; omega
    cases hd : s.viewDlen ⟨h, base, limit - base, s.nextTag⟩ with
    | error e => simp [hd, bind, Except.bind] at hv
    | ok dlen =>
      cases hf : s.viewFlags ⟨h, base, limit - base, s.nextTag⟩ with
      | error e => simp [hd, hf, bind, Except.bind] at hv
      | ok flags =>
        simp only [hd, hf, bind, Except.bind] at hv
        split at hv
        · cases hv
        · split at hv
          · cases hv
          · simp only [pure, Except.pure, Except.ok.injEq] at hv
            refine ⟨hv.symm, hs, dlen, flags, State.viewDlen_ok hd, State.viewFlags_ok hf, by omega, ?_⟩
            simp only [Config.headerLength] at *
            omega

/-- What a successful DECODE did (R156). -/
theorem State.decodeRegion_ok {s t : State} {h base limit : Nat} {parts : List Value}
    (hd : s.decodeRegion h base limit = .ok (t, parts)) :
    ∃ v, s.regionOk h base limit = true ∧ s.validate h base limit = .ok v ∧ t = s.addLive v ∧ parts = [.view v] := by
  unfold State.decodeRegion at hd
  split at hd
  · cases hv : s.validate h base limit with
    | error e => simp [hv, bind, Except.bind] at hd
    | ok v =>
      simp only [hv, bind, Except.bind, pure, Except.pure, Except.ok.injEq, Prod.mk.injEq] at hd
      exact ⟨v, ‹_›, rfl, hd.1.symm, hd.2.symm⟩
  · cases hd

/-! ### Payload copies -/

/-- A payload copy on operands that R83 lets through, whose length and flags bytes are given: its checks in their order (R140). -/
theorem State.payloadCopy_eq {s : State} {v : View} {dst dpos dcap : Nat} {dlen flags : Byte} (hv : v ∈ s.live)
    (hh : dst < s.storages.length) (hd : s.byteAt v.storage (v.base + 4) = some dlen)
    (hf : s.byteAt v.storage (v.base + 5) = some flags) :
    s.payloadCopy v dst dpos dcap =
      if v.size < 8 + dlen.toNat ∨ effMaxLength flags dlen < dlen.toNat then .error (.fault (.brokenSpan v))
      else if s.cap dst < dpos + min dlen.toNat dcap then .error (.error (.destinationOutOfRange dst))
      else if s.meetsLive dst dpos (min dlen.toNat dcap) then .error (.fault (.liveDestination dst dpos))
      else
        match s.memRead v.storage (v.base + 8) (min dlen.toNat dcap) with
        | .error f => .error f
        | .ok bytes =>
          match s.memWrite dst dpos bytes with
          | .error f => .error f
          | .ok t => .ok (t, [.nat (min dlen.toNat dcap)]) := by
  have hd' := State.viewDlen_eq hd
  have hf' := State.viewFlags_eq hf
  simp only [State.payloadCopy, hv, not_true_eq_false, if_false, Nat.not_le.mpr hh, hd', hf', bind, Except.bind, pure,
    Except.pure, Config.headerLength, Config.offsetData]
  split_ifs
  · rfl
  · rfl
  · rfl
  · cases s.memRead v.storage (v.base + 8) (min dlen.toNat dcap) with
    | error f => rfl
    | ok bytes =>
      dsimp only
      cases s.memWrite dst dpos bytes <;> rfl

/-- What a successful payload copy did (R140). -/
theorem State.payloadCopy_ok {s t : State} {v : View} {dst dpos dcap : Nat} {parts : List Value}
    (hc : s.payloadCopy v dst dpos dcap = .ok (t, parts)) :
    ∃ dlen flags bytes st, v ∈ s.live ∧ s.byteAt v.storage (v.base + 4) = some dlen ∧
      s.byteAt v.storage (v.base + 5) = some flags ∧ 8 + dlen.toNat ≤ v.size ∧ dlen.toNat ≤ effMaxLength flags dlen ∧
      s.memRead v.storage (v.base + 8) (min dlen.toNat dcap) = .ok bytes ∧ s.storages[dst]? = some st ∧
      dpos + bytes.length ≤ st.cap ∧ s.meetsLive dst dpos bytes.length = false ∧ bytes.length = min dlen.toNat dcap ∧
      t = s.setStorage dst ⟨st.cap, st.mem.writeBytes dpos bytes⟩ ∧ parts = [.nat bytes.length] := by
  have h1 : v ∈ s.live := by
    by_contra h
    simp [State.payloadCopy, h] at hc
  have h2 : dst < s.storages.length := by
    by_contra h
    simp [State.payloadCopy, h1, Nat.not_lt.mp h] at hc
  cases hd : s.viewDlen v with
  | error e => simp [State.payloadCopy, h1, Nat.not_le.mpr h2, hd, bind, Except.bind] at hc
  | ok dlen =>
    cases hf : s.viewFlags v with
    | error e => simp [State.payloadCopy, h1, Nat.not_le.mpr h2, hd, hf, bind, Except.bind] at hc
    | ok flags =>
      rw [State.payloadCopy_eq h1 h2 (State.viewDlen_ok hd) (State.viewFlags_ok hf)] at hc
      split at hc
      · cases hc
      split at hc
      · cases hc
      split at hc
      · cases hc
      cases hr : s.memRead v.storage (v.base + 8) (min dlen.toNat dcap) with
      | error e => simp [hr] at hc
      | ok bytes =>
        have hl := (State.memRead_ok hr).1
        rcases State.memWrite_cases s dst dpos bytes with ⟨st, hs, hb, hw⟩ | hw
        · simp only [hr, hw, Except.ok.injEq, Prod.mk.injEq] at hc
          refine ⟨dlen, flags, bytes, st, h1, State.viewDlen_ok hd, State.viewFlags_ok hf, by omega, by omega, hr, hs, hb, ?_,
            hl, hc.1.symm, by rw [hl, hc.2]⟩
          rw [hl]
          simpa using ‹¬ s.meetsLive dst dpos (min dlen.toNat dcap) = true›
        · simp [hr, hw] at hc

/-! ### Encoding -/

/-- What ENCODE's argument checks let through (R160, R164). -/
theorem State.encodePayload_ok {s : State} {src offset length : Nat} {payload : List Byte}
    (h : s.encodePayload src offset length = .ok payload) :
    src < s.storages.length ∧ offset + length ≤ s.cap src ∧ length ≤ 64 ∧ payload.length = length ∧
      ∀ k < length, s.byteAt src (offset + k) = payload[k]? := by
  unfold State.encodePayload at h
  split at h
  · cases h
  split at h
  · cases h
  split at h
  · cases h
  have := State.memRead_ok h
  simp only [Config.maxFdDataLength] at *
  exact ⟨by omega, by omega, by omega, this.1, this.2⟩

/-- ENCODE's argument checks pass on a slice inside its storage of at most 64 bytes (R160, R164). -/
theorem State.encodePayload_exists {s : State} {src offset length : Nat} (h1 : src < s.storages.length)
    (h2 : offset + length ≤ s.cap src) (h3 : length ≤ 64) : ∃ payload, s.encodePayload src offset length = .ok payload := by
  obtain ⟨l, hl⟩ := State.memRead_exists h1 h2
  refine ⟨l, ?_⟩
  unfold State.encodePayload
  rw [if_neg (by omega), if_neg (by omega), if_neg (by simp; omega), hl]

@[simp] theorem length_bytes32 (e : Endian) (w : Word) : (bytes32 e w).length = 4 := by cases e <;> rfl

@[simp] theorem length_frameBytes (e : Endian) (id : Word) (flags : Byte) (payload : List Byte) :
    (frameBytes e id flags payload).length = 8 + payload.length := by
  simp [frameBytes]
  omega

theorem encodeSize_cases {n : Nat} : (n ≤ 8 ∧ encodeSize n = 16) ∨ (8 < n ∧ encodeSize n = 72) := by
  unfold encodeSize
  by_cases h : n ≤ 8
  · exact .inl ⟨h, by simp [h]⟩
  · exact .inr ⟨by omega, by simp [h]⟩

@[simp] theorem State.encodeStorage_eq (s : State) (id : Word) (flags : Byte) (payload : List Byte) :
    s.encodeStorage id flags payload =
      s.addStorage (Storage.ofBytes (encodeSize payload.length) (frameBytes s.params.hostEndian id flags payload)) := rfl

/-- Everything ENCODE can do. -/
theorem execEncode_cases (s : State) :
    (∃ f, execEncode s = .next (s.raise f)) ∨ (∃ f, execEncode s = .fault (.factoryBug f)) ∨
    ∃ payload v, s.encodePayload s.ports.src s.ports.offset s.ports.length = .ok payload ∧
      (s.encodeStorage s.ports.id s.ports.flags payload).validate s.storages.length 0 (encodeSize payload.length) = .ok v ∧
      execEncode s = .next (((s.encodeStorage s.ports.id s.ports.flags payload).addLive v).answer
        [.storage s.storages.length, .view v]) := by
  unfold execEncode
  cases hp : s.encodePayload s.ports.src s.ports.offset s.ports.length with
  | error f => exact .inl ⟨f, rfl⟩
  | ok payload =>
    cases hv : (s.encodeStorage s.ports.id s.ports.flags payload).validate s.storages.length 0 (encodeSize payload.length) with
    | error f => exact .inr (.inl ⟨f, by simp only [hv]⟩)
    | ok v => exact .inr (.inr ⟨payload, v, rfl, hv, by simp only [hv]⟩)

/-! ### Every operation -/

/-- What an operation did that gave a next state: it answered or failed and changed nothing but the interface, or it is one of the
four that change more. -/
inductive Effect (s : State) : Instr → State → Prop where
  | answered (i : Instr) (parts : List Value) : Effect s i (s.answer parts)
  | failed (i : Instr) (f : Failure) : Effect s i (s.raise f)
  | copied (i : Instr) (hi : i = .vCopyBuf ∨ i = .vCopyArr) (bytes : List Byte) (st : Storage)
      (hs : s.storages[s.ports.dst]? = some st) (hr : s.ports.dpos + bytes.length ≤ st.cap)
      (hm : s.meetsLive s.ports.dst s.ports.dpos bytes.length = false) :
      Effect s i ((s.setStorage s.ports.dst ⟨st.cap, st.mem.writeBytes s.ports.dpos bytes⟩).answer [.nat bytes.length])
  | decoded (v : View) (hr : s.regionOk s.ports.s s.ports.base s.ports.limit = true)
      (hv : s.validate s.ports.s s.ports.base s.ports.limit = .ok v) : Effect s .decode ((s.addLive v).answer [.view v])
  | encoded (payload : List Byte) (v : View)
      (hp : s.encodePayload s.ports.src s.ports.offset s.ports.length = .ok payload)
      (hv : (s.encodeStorage s.ports.id s.ports.flags payload).validate s.storages.length 0 (encodeSize payload.length) = .ok v) :
      Effect s .encode (((s.encodeStorage s.ports.id s.ports.flags payload).addLive v).answer
        [.storage s.storages.length, .view v])

theorem effect_of_conclude {s t : State} (i : Instr) {r : Except Failure (List Value)} (h : s.conclude r = .next t) :
    Effect s i t := by
  rcases State.conclude_cases s r with ⟨p, -, he⟩ | ⟨f, -, he⟩ <;> rw [he] at h <;> cases h
  · exact .answered i p
  · exact .failed i f

theorem effect_of_onView {s t : State} (i : Instr) {f : View → Except Failure (List Value)} (h : s.onView f = .next t) :
    Effect s i t := effect_of_conclude i h

theorem effect_of_copy {s t : State} {i : Instr} (hi : i = .vCopyBuf ∨ i = .vCopyArr)
    (h : s.commit (s.payloadCopy s.ports.view s.ports.dst s.ports.dpos s.ports.dcap) = .next t) : Effect s i t := by
  rcases State.commit_cases s _ with ⟨u, p, hp, he⟩ | ⟨f, -, he⟩ <;> rw [he] at h <;> cases h
  · obtain ⟨dlen, flags, bytes, st, -, -, -, -, -, -, hs, hr, hm, -, rfl, rfl⟩ := State.payloadCopy_ok hp
    exact .copied i hi bytes st hs hr hm
  · exact .failed i f

/-- The inversion of `exec`: every next state an operation can give. -/
theorem exec_effect {i : Instr} {s t : State} (h : exec i s = .next t) : Effect s i t := by
  cases i with
  | idNumeric =>
    rw [exec, execIdNumeric] at h
    exact effect_of_conclude _ h
  | idIsExt =>
    rw [exec, execIdIsExt] at h
    exact effect_of_conclude _ h
  | idIsErr =>
    rw [exec, execIdIsErr] at h
    exact effect_of_conclude _ h
  | idIsRtr =>
    rw [exec, execIdIsRtr] at h
    exact effect_of_conclude _ h
  | idErrCause =>
    rw [exec, execIdErrCause] at h
    exact effect_of_conclude _ h
  | idPack =>
    rw [exec, execIdPack] at h
    exact effect_of_conclude _ h
  | vRawId =>
    rw [exec, execVRawId] at h
    exact effect_of_onView _ h
  | vId =>
    rw [exec, execVId] at h
    exact effect_of_onView _ h
  | vFlags =>
    rw [exec, execVFlags] at h
    exact effect_of_onView _ h
  | vDlen =>
    rw [exec, execVDlen] at h
    exact effect_of_onView _ h
  | vBase =>
    rw [exec, execVBase] at h
    exact effect_of_onView _ h
  | vSize =>
    rw [exec, execVSize] at h
    exact effect_of_onView _ h
  | vIsFd =>
    rw [exec, execVIsFd] at h
    exact effect_of_onView _ h
  | vIsExt =>
    rw [exec, execVIsExt] at h
    exact effect_of_onView _ h
  | vIsErr =>
    rw [exec, execVIsErr] at h
    exact effect_of_onView _ h
  | vErrCause =>
    rw [exec, execVErrCause] at h
    exact effect_of_onView _ h
  | vIsRtr =>
    rw [exec, execVIsRtr] at h
    exact effect_of_onView _ h
  | vCopyBuf => exact effect_of_copy (.inl rfl) h
  | vCopyArr => exact effect_of_copy (.inr rfl) h
  | vRegion =>
    rw [exec, execVRegion] at h
    exact effect_of_onView _ h
  | decode =>
    rcases State.commit_cases s (s.decodeRegion s.ports.s s.ports.base s.ports.limit) with ⟨u, p, hp, he⟩ | ⟨f, -, he⟩ <;>
      rw [exec, execDecode, he] at h <;> cases h
    · obtain ⟨v, hr, hv, rfl, rfl⟩ := State.decodeRegion_ok hp
      exact .decoded v hr hv
    · exact .failed _ f
  | encode =>
    rcases execEncode_cases s with ⟨f, he⟩ | ⟨f, he⟩ | ⟨payload, v, hp, hv, he⟩ <;> rw [exec, he] at h <;> cases h
    · exact .failed _ f
    · exact .encoded payload v hp hv
  | equals =>
    rw [exec, execEquals] at h
    exact effect_of_onView _ h
  | hash =>
    rw [exec, execHash] at h
    exact effect_of_onView _ h
  | render =>
    rw [exec, execRender] at h
    exact effect_of_onView _ h

end Sys2Proof.Machine
end

