-- ==== Sys2Proof/Laws/Answers.lean ====
section
/-! SUPPORT. What an operation answers: the equations of `exec` for the view operations, how an equation of `exec` becomes an
`Answers` or a `Raises`, and what ENCODE builds. -/

namespace Sys2Proof.Machine

/-! ### From an equation of `exec` to what the claims say -/

theorem answers_of_exec {i : Instr} {s : State} {parts : List Value} (h : exec i s = .next (s.answer parts)) :
    Answers i s parts := ⟨_, h, rfl, rfl, rfl, rfl, rfl, rfl, rfl, rfl, rfl, rfl, rfl, rfl⟩

theorem raises_of_exec {i : Instr} {s : State} {code : BitVec 3} {f : Failure} (h : exec i s = .next (s.raise f))
    (hc : f.code = code) : Raises i s code f := by
  refine ⟨_, h, by simp [hc], by simp, by simp, by simp [State.Keeps], ?_⟩
  cases f <;> rfl

/-- An operation answers one thing. -/
theorem answers_unique {i : Instr} {s : State} {p q : List Value} (h : Answers i s p) (h' : Answers i s q) : p = q := by
  obtain ⟨t, h1, -, h2, -⟩ := h
  obtain ⟨t', h1', -, h2', -⟩ := h'
  rw [h1] at h1'
  cases h1'
  rw [← h2, ← h2']

/-- A view operation on a live descriptor answers what its read gives. -/
theorem answers_of_onView {i : Instr} {s : State} {f : View → Except Failure (List Value)} {parts : List Value}
    (he : exec i s = s.onView f) (hv : s.ports.view ∈ s.live) (hf : f s.ports.view = .ok parts) : Answers i s parts :=
  answers_of_exec (by rw [he, State.onView_of_mem _ hv, hf]; rfl)

/-! ### The view operations as view reads -/

theorem exec_vRawId (s : State) : exec .vRawId s = s.onView (s.viewCodec (fun _ raw => .word raw)) := rfl
theorem exec_vId (s : State) : exec .vId s = s.onView (s.viewCodec (fun p raw => .word (idNumeric p raw))) := rfl
theorem exec_vIsExt (s : State) : exec .vIsExt s = s.onView (s.viewCodec (fun p raw => .bool (idIsExt p raw))) := rfl
theorem exec_vIsErr (s : State) : exec .vIsErr s = s.onView (s.viewCodec (fun p raw => .bool (idIsErr p raw))) := rfl
theorem exec_vErrCause (s : State) : exec .vErrCause s = s.onView (s.viewCodec (fun p raw => .word (idErrCause p raw))) := rfl
theorem exec_vIsRtr (s : State) : exec .vIsRtr s = s.onView (s.viewCodec (fun p raw => .bool (idIsRtr p raw))) := rfl
theorem exec_vFlags (s : State) :
    exec .vFlags s = s.onView (fun v => do let flags ← s.viewFlags v; return [.byte flags]) := rfl
theorem exec_vDlen (s : State) : exec .vDlen s = s.onView (fun v => do let dlen ← s.viewDlen v; return [.byte dlen]) := rfl
theorem exec_vIsFd (s : State) : exec .vIsFd s = s.onView (fun v => do let fd ← s.viewIsFd v; return [.bool fd]) := rfl
theorem exec_vBase (s : State) : exec .vBase s = s.onView (fun v => .ok [.nat v.base]) := rfl
theorem exec_vSize (s : State) : exec .vSize s = s.onView (fun v => .ok [.nat v.size]) := rfl
theorem exec_vRegion (s : State) :
    exec .vRegion s = s.onView (fun v => .ok [.storage v.storage, .nat v.base, .nat v.size]) := rfl
theorem exec_equals (s : State) :
    exec .equals s = s.onView (fun v =>
      if s.ports.view2 ∈ s.live then s.viewEquals v s.ports.view2
      else .error (.fault (.illegalView s.ports.view2))) := rfl
theorem exec_hash (s : State) :
    exec .hash s = s.onView (fun v => do let span ← s.viewSpan v; return [.word (Config.frameHash span)]) := rfl
theorem exec_render (s : State) :
    exec .render s = s.onView (fun v => do let span ← s.viewSpan v; return [.text (renderFrame s.params v span)]) := rfl

/-- Both payload copies are the one of R140. -/
theorem exec_copy {i : Instr} (hi : i ∈ copyOps) (s : State) :
    exec i s = s.commit (s.payloadCopy s.ports.view s.ports.dst s.ports.dpos s.ports.dcap) := by
  simp only [copyOps, List.mem_cons, List.not_mem_nil, or_false] at hi
  rcases hi with rfl | rfl <;> rfl

theorem exec_decode (s : State) :
    exec .decode s = s.commit (s.decodeRegion s.ports.s s.ports.base s.ports.limit) := rfl

/-! ### Reading a frame whose descriptor fits -/

/-- The identifier word of a descriptor that fits is assembled from its region's first four bytes. -/
theorem View.Fits.rawId {v : View} {s : State} (h : v.Fits s) :
    ∃ b0 b1 b2 b3, s.byteAt v.storage (v.base + 0) = some b0 ∧ s.byteAt v.storage (v.base + 1) = some b1 ∧
      s.byteAt v.storage (v.base + 2) = some b2 ∧ s.byteAt v.storage (v.base + 3) = some b3 ∧
      s.viewRawId v = .ok (word32 s.params.hostEndian b0 b1 b2 b3) := by
  have := h.size_ge
  obtain ⟨b0, h0⟩ := h.byte (k := 0) (by omega)
  obtain ⟨b1, h1⟩ := h.byte (k := 1) (by omega)
  obtain ⟨b2, h2⟩ := h.byte (k := 2) (by omega)
  obtain ⟨b3, h3⟩ := h.byte (k := 3) (by omega)
  exact ⟨b0, b1, b2, b3, h0, h1, h2, h3, State.viewRawId_eq h0 h1 h2 h3⟩

/-- A descriptor still fits where its storage's capacity is the same. -/
theorem View.Fits.congr {v : View} {s t : State} (h : v.Fits s) (hc : t.cap v.storage = s.cap v.storage) : v.Fits t :=
  ⟨h.1, by rw [hc]; exact h.2⟩

/-- The data length passes its bounds still where the region's bytes are the same. -/
theorem State.spanOk_congr {v : View} {s t : State} (hf : v.Fits s)
    (hb : ∀ k < v.size, t.byteAt v.storage (v.base + k) = s.byteAt v.storage (v.base + k)) : t.spanOk v = s.spanOk v := by
  have := hf.size_ge
  simp only [State.spanOk, Config.offsetDataLength, Config.offsetFlags]
  rw [hb 4 (by omega), hb 5 (by omega)]

/-! ### What ENCODE builds -/

theorem frameBytes_dlen (e : Endian) (id : Word) (flags : Byte) (p : List Byte) :
    (frameBytes e id flags p).getD 4 0 = BitVec.ofNat 8 p.length := by
  cases e <;> simp [frameBytes, bytes32]

theorem frameBytes_flags (e : Endian) (id : Word) (flags : Byte) (p : List Byte) :
    (frameBytes e id flags p).getD 5 0 = flags := by
  cases e <;> simp [frameBytes, bytes32]

theorem frameBytes_payload (e : Endian) (id : Word) (flags : Byte) (p : List Byte) (k : Nat) :
    (frameBytes e id flags p).getD (8 + k) 0 = p.getD k 0 := by
  cases e <;> simp [frameBytes, bytes32, Nat.add_comm 8 k]

theorem encodeSize_ge (n : Nat) : 16 ≤ encodeSize n := by
  rcases encodeSize_cases (n := n) with ⟨_, h⟩ | ⟨_, h⟩ <;> omega

/-- Every byte of ENCODE's new storage (R162). -/
theorem State.encodeStorage_byteAt (s : State) (id : Word) (flags : Byte) {p : List Byte} {a : Nat}
    (ha : a < encodeSize p.length) :
    (s.encodeStorage id flags p).byteAt s.storages.length a =
      some ((frameBytes s.params.hostEndian id flags p).getD a 0) := by
  rw [State.encodeStorage_eq, State.addStorage_byteAt_self, Storage.cap_ofBytes, if_pos ha, Storage.get_ofBytes]

/-- VALIDATE of ENCODE's new storage. -/
theorem State.encodeStorage_validate (s : State) (id : Word) (flags : Byte) {p : List Byte} (hp : p.length ≤ 64) :
    (s.encodeStorage id flags p).validate s.storages.length 0 (encodeSize p.length) =
      .ok ⟨s.storages.length, 0, encodeSize p.length, s.nextTag⟩ := by
  have h16 := encodeSize_ge p.length
  have h4 := s.encodeStorage_byteAt id flags (p := p) (a := 4) (by omega)
  have h5 := s.encodeStorage_byteAt id flags (p := p) (a := 5) (by omega)
  rw [frameBytes_dlen] at h4
  rw [frameBytes_flags] at h5
  have hsz := encodeSize_cases (n := p.length)
  rw [State.validate_eq (dlen := BitVec.ofNat 8 p.length) (flags := flags) (by omega) (by simpa using h4)
    (by simpa using h5)]
  have : (BitVec.ofNat 8 p.length).toNat = p.length := by
    simp
    omega
  rw [this, if_neg (by omega), if_neg (by omega)]
  rfl

/-- ENCODE on arguments that pass its checks. -/
theorem execEncode_ok {s : State} {p : List Byte}
    (hp : s.encodePayload s.ports.src s.ports.offset s.ports.length = .ok p) :
    execEncode s = .next (((s.encodeStorage s.ports.id s.ports.flags p).addLive
      ⟨s.storages.length, 0, encodeSize p.length, s.nextTag⟩).answer
        [.storage s.storages.length, .view ⟨s.storages.length, 0, encodeSize p.length, s.nextTag⟩]) := by
  have h := State.encodePayload_ok hp
  unfold execEncode
  rw [hp]
  dsimp only
  rw [State.encodeStorage_validate _ _ _ (by omega)]

theorem execEncode_error {s : State} {f : Failure}
    (h : s.encodePayload s.ports.src s.ports.offset s.ports.length = .error f) : execEncode s = .next (s.raise f) := by
  unfold execEncode
  rw [h]

end Sys2Proof.Machine
end

