-- ==== Sys2Proof/Laws/Flags.lean ====
section
/-! SUPPORT. The flag computations under R7's flag and mask values, bit by bit, and the bits of a packed word. -/

namespace Sys2Proof.Machine

theorem word_bne_eq_decide (a b : Word) : (a != b) = decide (a ≠ b) := by
  by_cases h : a = b <;> simp [h]

/-- A word meets a one-bit flag exactly when it has that bit. -/
theorem and_twoPow_ne_zero (w : Word) {k : Nat} (hk : k < 32) : decide (w &&& BitVec.twoPow 32 k ≠ 0) = w.getLsbD k := by
  rw [BitVec.and_twoPow]
  cases h : w.getLsbD k
  · simp
  · simp only [if_true, ne_eq, decide_eq_true_eq]
    intro h0
    have := congrArg (fun x => BitVec.getLsbD x k) h0
    simp [hk] at this

theorem effFlag_eq : (0x80000000 : Word) = BitVec.twoPow 32 31 := by decide
theorem rtrFlag_eq : (0x40000000 : Word) = BitVec.twoPow 32 30 := by decide
theorem errFlag_eq : (0x20000000 : Word) = BitVec.twoPow 32 29 := by decide

/-- Under R7's values the EFF flag is bit 31 (R61). -/
theorem idIsExt_eq {p : Params} (hp : DefaultIds p) (w : Word) : idIsExt p w = w.getLsbD 31 := by
  rw [idIsExt, hp.1, effFlag_eq, ← and_twoPow_ne_zero w (by omega), word_bne_eq_decide]

/-- Under R7's values the RTR flag is bit 30 (R61). -/
theorem idIsRtr_eq {p : Params} (hp : DefaultIds p) (w : Word) : idIsRtr p w = w.getLsbD 30 := by
  rw [idIsRtr, hp.2.1, rtrFlag_eq, ← and_twoPow_ne_zero w (by omega), word_bne_eq_decide]

/-- Under R7's values the ERR flag is bit 29 (R61). -/
theorem idIsErr_eq {p : Params} (hp : DefaultIds p) (w : Word) : idIsErr p w = w.getLsbD 29 := by
  rw [idIsErr, hp.2.2.1, errFlag_eq, ← and_twoPow_ne_zero w (by omega), word_bne_eq_decide]

/-- The 29-bit mask has bits 28 to 0. -/
theorem getLsbD_mask29 (k : Nat) : (0x1FFFFFFF : Word).getLsbD k = decide (k < 29) := by
  by_cases h : k < 32
  · revert k
    decide
  · rw [BitVec.getLsbD_of_ge _ _ (by omega)]
    simp
    omega

/-- The 11-bit mask has bits 10 to 0. -/
theorem getLsbD_mask11 (k : Nat) : (0x000007FF : Word).getLsbD k = decide (k < 11) := by
  by_cases h : k < 32
  · revert k
    decide
  · rw [BitVec.getLsbD_of_ge _ _ (by omega)]
    simp
    omega

/-- The 29-bit mask keeps the low 29 bits. -/
theorem and_mask29 (w : Word) : w &&& 0x1FFFFFFF = (w.extractLsb' 0 29).zeroExtend 32 := by
  apply BitVec.eq_of_getLsbD_eq
  intro k hk
  rw [BitVec.getLsbD_and, getLsbD_mask29]
  simp [hk, Bool.and_comm]

/-- The 11-bit mask keeps the low 11 bits. -/
theorem and_mask11 (w : Word) : w &&& 0x000007FF = (w.extractLsb' 0 11).zeroExtend 32 := by
  apply BitVec.eq_of_getLsbD_eq
  intro k hk
  rw [BitVec.getLsbD_and, getLsbD_mask11]
  simp [hk, Bool.and_comm]

/-- The masks of R7's values have `EFF_BITS` and `SFF_BITS` bits, and the identifier word `ID_WIDTH` (R7). -/
theorem masks_have_their_bits :
    Config.params.effMask.toNat = 2 ^ Config.effBits - 1 ∧ Config.params.sffMask.toNat = 2 ^ Config.sffBits - 1 ∧
    Word = BitVec Config.idWidth := by
  refine ⟨rfl, rfl, rfl⟩

/-- The numeric id under R7's values, by the EFF bit. -/
theorem idNumeric_eq {p : Params} (hp : DefaultIds p) (w : Word) :
    idNumeric p w = if w.getLsbD 31 then w &&& 0x1FFFFFFF else w &&& 0x000007FF := by
  have := idIsExt_eq hp w
  rw [idIsExt] at this
  rw [idNumeric, this, hp.2.2.2.1, hp.2.2.2.2.1]

theorem getLsbD_flag (b : Bool) (j : Nat) {k : Nat} (hk : k < 32) :
    (if b then BitVec.twoPow 32 j else (0 : Word)).getLsbD k = (b && decide (k = j)) := by
  cases b <;> simp [hk, eq_comm]

/-- Every bit of a packed word under R7's values. -/
theorem getLsbD_idPack {p : Params} (hp : DefaultIds p) (ext rtr err : Bool) (v : Word) {k : Nat} (hk : k < 32) :
    (idPack p ext rtr err v).getLsbD k =
      if k = 31 then ext else if k = 30 then rtr else if k = 29 then err
      else (v.getLsbD k && (decide (k < 11) || ext || err)) := by
  obtain ⟨h1, h2, h3, h4, h5, h6⟩ := hp
  have hm : (packMask p ext err).getLsbD k = (decide (k < 29) && (decide (k < 11) || ext || err)) := by
    unfold packMask
    rw [h4, h5, h6]
    cases ext <;> cases err <;>
      simp only [if_true, if_false, getLsbD_mask29, getLsbD_mask11, Bool.false_eq_true, Bool.or_false, Bool.or_true,
        Bool.and_true]
    by_cases h : k < 11
    · simp [h]
      omega
    · simp [h]
  simp only [idPack, h1, h2, h3, effFlag_eq, rtrFlag_eq, errFlag_eq, BitVec.getLsbD_or, BitVec.getLsbD_and,
    getLsbD_flag _ _ hk, hm]
  by_cases k31 : k = 31
  · subst k31
    simp
  by_cases k30 : k = 30
  · subst k30
    simp
  by_cases k29 : k = 29
  · subst k29
    simp
  have : k < 29 := by omega
  simp [k31, k30, k29, this]

/-- The effective maximum as R130 and R131 word it. -/
theorem effMaxLength_eq_maxLength (flags dlen : Byte) : effMaxLength flags dlen = maxLength flags dlen := by
  simp [effMaxLength, fdClass, maxLength]

end Sys2Proof.Machine
end

