-- ==== Sys2Proof/Laws/Step.lean ====
section
/-! SUPPORT. The inversion of the step, and the laws of decoding, slots and ports that claims about a step cite. -/

namespace Sys2Proof.Machine

/-! ### Decoding -/

theorem decodeOp_error {code : Byte} {e : DecodeError} (h : decodeOp code = .error e) (i : Instr) : decodeOp code ≠ .ok i := by
  rw [h]
  exact fun h => nomatch h

/-- `decode` of one code is `decodeOp`'s answer with nothing left. -/
theorem decode_single_iff (code : Byte) (i : Instr) : decode [code] = .ok (i, []) ↔ decodeOp code = .ok i := by
  cases hd : decodeOp code <;> simp [decode, hd]

/-! ### Slots -/

/-- A slot just filled holds its value. -/
theorem slotGet_slotPut_self (l : List (Nat × Value)) (n : Nat) (v : Value) : slotGet (slotPut l n v) n = some v := by
  induction l with
  | nil => simp [slotPut, slotGet]
  | cons c rest ih =>
    obtain ⟨k, c⟩ := c
    unfold slotPut
    split_ifs with h1 h2
    · simp [slotGet]
    · simp [slotGet]
    · simp [slotGet, h2, ih]

/-- A slot keeps its value where another is filled. -/
theorem slotGet_slotPut_of_ne (l : List (Nat × Value)) {n m : Nat} (v : Value) (h : m ≠ n) :
    slotGet (slotPut l n v) m = slotGet l m := by
  induction l with
  | nil => simp [slotPut, slotGet, h]
  | cons c rest ih =>
    obtain ⟨k, c⟩ := c
    unfold slotPut
    split_ifs with h1 h2
    · simp [slotGet, h]
    · subst h2
      simp [slotGet, h]
    · simp [slotGet, ih]

/-- Slots filled pairwise hold their values, and no other slot changes. -/
theorem slotGet_slotPutAll (l : List (Nat × Value)) {ns : List Nat} {vs : List Value} (hn : ns.Nodup)
    (hl : vs.length = ns.length) :
    (∀ k d : Nat, ns[k]? = some d → slotGet (slotPutAll l ns vs) d = vs[k]?) ∧
      ∀ n, n ∉ ns → slotGet (slotPutAll l ns vs) n = slotGet l n := by
  induction ns generalizing l vs with
  | nil => simp [slotPutAll]
  | cons a ns ih =>
    cases vs with
    | nil => simp at hl
    | cons v vs =>
      simp only [List.length_cons, Nat.add_right_cancel_iff, List.nodup_cons] at hl hn
      obtain ⟨i1, i2⟩ := ih (slotPut l a v) hn.2 hl
      refine ⟨fun k d hk => ?_, fun n hm => ?_⟩
      · cases k with
        | zero =>
          simp only [List.getElem?_cons_zero, Option.some.injEq] at hk
          subst hk
          rw [slotPutAll, i2 _ hn.1, slotGet_slotPut_self]
          rfl
        | succ k =>
          rw [List.getElem?_cons_succ] at hk
          rw [slotPutAll, i1 k d hk]
          rfl
      · rw [List.mem_cons, not_or] at hm
        rw [slotPutAll, i2 _ hm.2, slotGet_slotPut_of_ne _ _ hm.1]

/-- Every slot of a refused issue holds the status, and no other slot changes. -/
theorem slotGet_refuseIssue {dests : List Nat} {e : FaultEvent} (code : Byte) (s : State) (hd : dests.Nodup) (h : e.code ≠ 0) :
    (∀ d ∈ dests, slotGet (refuseIssue dests code e s).slots d = some (.failed e.code)) ∧
      ∀ n, n ∉ dests → slotGet (refuseIssue dests code e s).slots n = slotGet s.slots n := by
  obtain ⟨h1, h2⟩ := slotGet_slotPutAll s.slots (vs := dests.map (fun _ => Value.failed e.code)) hd (by simp)
  rw [refuseIssue_slots code s h]
  refine ⟨fun d hm => ?_, h2⟩
  obtain ⟨k, hk⟩ := List.mem_iff_getElem?.1 hm
  rw [h1 k d hk, List.getElem?_map, hk]
  simp

/-! ### Operands -/

/-- Presenting operands that do not fit is IllegalOperation, and it names an operand presented that its port cannot hold, or a port
that is presented twice (R83). -/
theorem latch_error {values : List (Port × Value)} {p : Ports} {e : FaultEvent} (h : latch values p = .error e) :
    e.code = 7 ∧ ((∃ c ∈ values, e = .illegalOperand c.1 c.2 ∧ ∃ q : Ports, q.put c.1 c.2 = none) ∨
      ∃ port, 1 < (values.map Prod.fst).count port ∧ e = .repeatedOperand port) := by
  induction values generalizing p with
  | nil => cases h
  | cons c rest ih =>
    obtain ⟨port, v⟩ := c
    by_cases hm : port ∈ rest.map Prod.fst
    · rw [latch, if_pos hm] at h
      cases h
      refine ⟨rfl, .inr ⟨port, ?_, rfl⟩⟩
      have := List.count_pos_iff.2 hm
      simp only [List.map_cons, List.count_cons_self]
      omega
    · rw [latch, if_neg hm] at h
      cases hp : p.put port v with
      | none =>
        simp only [hp] at h
        cases h
        exact ⟨rfl, .inl ⟨(port, v), by simp, rfl, p, hp⟩⟩
      | some q =>
        simp only [hp] at h
        obtain ⟨hc, ⟨c, hm, he⟩ | ⟨r, hr, he⟩⟩ := ih h
        · exact ⟨hc, .inl ⟨c, List.mem_cons_of_mem _ hm, he⟩⟩
        · refine ⟨hc, .inr ⟨r, ?_, he⟩⟩
          simp only [List.map_cons, List.count_cons]
          omega

/-- The operands read are those on the format's ports, in the order written. -/
theorem readArgs_ok {slots : List (Nat × Value)} {f : Format} {args : List (Port × Operand)} {values : List (Port × Value)}
    (h : readArgs slots f args = .ok values) :
    ∀ port v, (port, v) ∈ values ↔ ∃ o, (port, o) ∈ args ∧ port ∈ portsOf f ∧ operandValue slots o = .ok v := by
  induction args generalizing values with
  | nil =>
    cases h
    simp
  | cons c rest ih =>
    obtain ⟨port, o⟩ := c
    intro r w
    by_cases hm : port ∈ portsOf f
    · cases ho : operandValue slots o with
      | error e => simp [readArgs, hm, ho] at h
      | ok v =>
        cases hr : readArgs slots f rest with
        | error e => simp [readArgs, hm, ho, hr] at h
        | ok vs =>
          simp only [readArgs, hm, ho, hr, if_true] at h
          cases h
          rw [List.mem_cons, ih hr]
          constructor
          · rintro (he | ⟨o', h1, h2, h3⟩)
            · cases he
              exact ⟨o, by simp, hm, ho⟩
            · exact ⟨o', List.mem_cons_of_mem _ h1, h2, h3⟩
          · rintro ⟨o', h1, h2, h3⟩
            rcases List.mem_cons.1 h1 with he | h1
            · cases he
              rw [ho] at h3
              cases h3
              exact .inl rfl
            · exact .inr ⟨o', h1, h2, h3⟩
    · have h' : readArgs slots f rest = .ok values := by simpa [readArgs, hm] using h
      rw [ih h']
      constructor
      · rintro ⟨o', h1, h2⟩
        exact ⟨o', List.mem_cons_of_mem _ h1, h2⟩
      · rintro ⟨o', h1, h2, h3⟩
        rcases List.mem_cons.1 h1 with he | h1
        · cases he
          exact absurd h2 hm
        · exact ⟨o', h1, h2, h3⟩

/-! ### Host actions -/

theorem State.actionHandle_ok {s : State} {o : Operand} {h : Nat} (hh : s.actionHandle o = .ok h) :
    h < s.storages.length := by
  unfold State.actionHandle at hh
  split at hh
  · cases hh
  split at hh
  · cases hh
  split at hh
  · cases hh
    assumption
  · cases hh

/-- Everything a HOST_READ can do. -/
theorem hostRead_cases (dest : Option Nat) (h a n : Nat) (s : State) :
    (∃ l, s.memRead h a n = .ok l ∧ hostRead dest h a n s = s.give dest (.bytes l)) ∨
    hostRead dest h a n s = (s.record (.outsideStorage h a)).advance := by
  unfold hostRead
  cases hr : s.memRead h a n with
  | ok l => exact .inl ⟨l, rfl, rfl⟩
  | error e => exact .inr rfl

/-- Everything a HOST_WRITE can do. -/
theorem hostWrite_cases (h a : Nat) (bytes : List Byte) (s : State) :
    (∃ st, s.storages[h]? = some st ∧ a + bytes.length ≤ st.cap ∧
      ((s.meetsLive h a bytes.length = true ∧ hostWrite h a bytes s =
          ((s.setStorage h ⟨st.cap, st.mem.writeBytes a bytes⟩).record (.hostWrite h a)).advance) ∨
        (s.meetsLive h a bytes.length = false ∧ hostWrite h a bytes s =
          (s.setStorage h ⟨st.cap, st.mem.writeBytes a bytes⟩).advance))) ∨
    hostWrite h a bytes s = (s.record (.outsideStorage h a)).advance := by
  rcases State.memWrite_cases s h a bytes with ⟨st, hs, hr, hw⟩ | hw
  · refine .inl ⟨st, hs, hr, ?_⟩
    cases hm : s.meetsLive h a bytes.length with
    | true => exact .inl ⟨rfl, by simp [hostWrite, hw, hm]⟩
    | false => exact .inr ⟨rfl, by simp [hostWrite, hw, hm]⟩
  · exact .inr (by simp [hostWrite, hw])

/-! ### The step -/

/-- What a step did that gave a next state. -/
inductive StepEffect (s : State) : State → Prop where
  | idle (hf : s.fetch = none) : StepEffect s s
  | turnedAway (dests : List Nat) (code : Byte) (args : List (Port × Operand)) (e : FaultEvent)
      (hf : s.fetch = some (.issue dests code args)) (he : e.code = 7)
      (hw : Statement.WellFormed (.issue dests code args) = true) : StepEffect s (refuseIssue dests code e s)
  | ran (dests : List Nat) (code : Byte) (args : List (Port × Operand)) (i : Instr) (values : List (Port × Value)) (ports : Ports)
      (t : State) (hf : s.fetch = some (.issue dests code args)) (hd : decodeOp code = .ok i)
      (hw : Statement.WellFormed (.issue dests code args) = true) (hr : readArgs s.slots (formatOf i) args = .ok values)
      (hl : latch values s.ports = .ok ports) (he : exec i (s.present code ports) = .next t) : StepEffect s (t.retire dests)
  | supplied (dest : Option Nat) (co bo : Operand) (cap : Nat) (bytes : List Byte) (hf : s.fetch = some (.supply dest co bo))
      (hlen : bytes.length = cap) : StepEffect s (hostSupply dest cap bytes s)
  | read (dest : Option Nat) (so ao no : Operand) (h a n : Nat) (hf : s.fetch = some (.hostRead dest so ao no))
      (hh : h < s.storages.length) : StepEffect s (hostRead dest h a n s)
  | wrote (so ao bo : Operand) (bytes : List Byte) (h a : Nat) (hf : s.fetch = some (.hostWrite so ao bo))
      (hh : h < s.storages.length) : StepEffect s (hostWrite h a bytes s)
  | dropped (vo : Operand) (v : View) (hf : s.fetch = some (.drop vo)) (hv : v ∈ s.live) : StepEffect s (hostDrop v s)

/-- A step gives a next state only where no fault has stopped the run. -/
theorem step_clean {s t : State} (h : step s = .next t) : s.fault = [] := by
  unfold step runStep at h
  cases hf : s.fault with
  | nil => rfl
  | cons e es => simp [hf] at h

/-- The step of a run that has not stopped. -/
theorem step_of_clean {s : State} (h : s.Clean) :
    step s = match s.fetch with
      | none => .next s
      | some st => runStatement st s := by
  have hf : s.fault = [] := h
  cases hs : s.fetch <;> simp [step, runStep, hf, hs]

/-- The step at a well-formed statement. -/
theorem step_of_fetch {s : State} {st : Statement} (h : s.Clean) (hf : s.fetch = some st)
    (hw : Statement.WellFormed st = true) : step s = runForm st s := by
  rw [step_of_clean h, hf]
  simp only [runStatement]
  cases hp : statementProblem st with
  | none => rfl
  | some r => simp [Statement.WellFormed, hp] at hw

/-- The issue of an assigned code whose operands go on the ports. -/
theorem issue_eq {s : State} {dests : List Nat} {code : Byte} {args : List (Port × Operand)} {i : Instr}
    {values : List (Port × Value)} {ports : Ports} (hd : decodeOp code = .ok i)
    (hr : readArgs s.slots (formatOf i) args = .ok values) (hl : latch values s.ports = .ok ports) :
    issue dests code args s = match exec i (s.present code ports) with
      | .next t => .next (t.retire dests)
      | .fault f => .fault f
      | .refused r => .refused r := by
  cases he : exec i (s.present code ports) <;> simp [issue, hd, hr, hl, he]

/-- The issue of an unassigned code (R82). -/
theorem step_unassigned {s : State} {dests : List Nat} {code : Byte} {args : List (Port × Operand)} (h : s.Clean)
    (hf : s.fetch = some (.issue dests code args)) (hd : ∀ i, decodeOp code ≠ .ok i) :
    step s = .next (refuseIssue dests code (.illegalOp code) s) := by
  cases hc : decodeOp code with
  | ok i => exact absurd hc (hd i)
  | error e =>
    rw [step_of_fetch h hf (by simp [Statement.WellFormed, statementProblem, hc])]
    simp [runForm, issue, hc]

/-- An issue with an operand that its port cannot hold, or that is the port's second (R83, R207; log entry 14). -/
theorem step_illegalOperand {s : State} {dests : List Nat} {code : Byte} {args : List (Port × Operand)} {i : Instr}
    {values : List (Port × Value)} {e : FaultEvent} (h : s.Clean) (hf : s.fetch = some (.issue dests code args))
    (hd : decodeOp code = .ok i) (hw : Statement.WellFormed (.issue dests code args) = true)
    (hr : readArgs s.slots (formatOf i) args = .ok values) (hl : latch values s.ports = .error e) :
    step s = .next (refuseIssue dests code e s) := by
  rw [step_of_fetch h hf hw]
  simp [runForm, issue, hd, hr, hl]

/-- The inversion of the step: every next state it can give. -/
theorem step_effect {s t : State} (h : step s = .next t) : StepEffect s t := by
  have hc := step_clean h
  rw [step_of_clean hc] at h
  cases hf : s.fetch with
  | none =>
    rw [hf] at h
    cases h
    exact .idle hf
  | some st =>
    rw [hf] at h
    simp only [runStatement] at h
    cases hp : statementProblem st with
    | some r => simp [hp] at h
    | none =>
      have hw : Statement.WellFormed st = true := by simp [Statement.WellFormed, hp]
      simp only [hp] at h
      cases st with
      | issue dests code args =>
        cases hd : decodeOp code with
        | error e =>
          simp only [runForm, issue, hd] at h
          cases h
          exact .turnedAway dests code args _ hf rfl hw
        | ok i =>
          cases hr : readArgs s.slots (formatOf i) args with
          | error r => simp [runForm, issue, hd, hr] at h
          | ok values =>
            cases hl : latch values s.ports with
            | error e =>
              simp only [runForm, issue, hd, hr, hl] at h
              cases h
              exact .turnedAway dests code args e hf (latch_error hl).1 hw
            | ok ports =>
              rw [runForm, issue_eq hd hr hl] at h
              cases he : exec i (s.present code ports) with
              | next u =>
                rw [he] at h
                cases h
                exact .ran dests code args i values ports u hf hd hw hr hl he
              | fault f => simp [he] at h
              | refused r => simp [he] at h
      | supply dest co bo =>
        simp only [runForm] at h
        split at h
        case h_1 cap bytes hc hb =>
          split at h
          · cases h
            exact .supplied dest co bo cap bytes hf ‹_›
          · cases h
        all_goals cases h
      | hostRead dest so ao no =>
        simp only [runForm] at h
        split at h
        case h_1 g a n hh ha hn =>
          cases h
          exact .read dest so ao no g a n hf (State.actionHandle_ok hh)
        all_goals cases h
      | hostWrite so ao bo =>
        simp only [runForm] at h
        split at h
        case h_1 g a bytes hh ha hb =>
          cases h
          exact .wrote so ao bo bytes g a hf (State.actionHandle_ok hh)
        all_goals cases h
      | drop vo =>
        simp only [runForm] at h
        split at h
        case h_1 v hv =>
          split at h
          · cases h
            exact .dropped vo v hf ‹_›
          · cases h
        all_goals cases h

end Sys2Proof.Machine
end

