-- ==== Sys2Proof/Laws/Operands.lean ====
section
/-! SUPPORT. The laws of operands: what an operand reads, what a port holds, and where an issue's operands come to stand. -/

namespace Sys2Proof.Machine

/-- A value's number, in the words of the claims. -/
theorem Value.number_eq_some_iff (v : Value) (n : Nat) : Value.number v = some n ↔ IsNumber v n := by
  cases v <;> simp [Value.number, IsNumber]

theorem Value.number_eq_none_iff (v : Value) : Value.number v = none ↔ ∀ n, ¬ IsNumber v n := by
  simp only [← Value.number_eq_some_iff]
  cases Value.number v <;> simp

theorem Value.handle_eq_some_iff (v : Value) (h : Nat) : Value.handle v = some h ↔ v = .storage h := by
  cases v <;> simp [Value.handle]

theorem Value.handle_eq_none_iff (v : Value) : Value.handle v = none ↔ ∀ h, v ≠ .storage h := by
  cases v <;> simp [Value.handle]

theorem Value.descriptor_eq_some_iff (v : Value) (d : View) : Value.descriptor v = some d ↔ v = .view d := by
  cases v <;> simp [Value.descriptor]

theorem Value.descriptor_eq_none_iff (v : Value) : Value.descriptor v = none ↔ ∀ d, v ≠ .view d := by
  cases v <;> simp [Value.descriptor]

theorem Value.byteList_eq_some_iff (v : Value) (l : List Byte) : Value.byteList v = some l ↔ v = .bytes l := by
  cases v <;> simp [Value.byteList]

/-- A number that fits its width. -/
theorem Value.bits_of_isNumber {v : Value} {w : Nat} {x : BitVec w} (h : IsNumber v x.toNat) : Value.bits w v = some x := by
  rw [Value.bits, (Value.number_eq_some_iff v _).2 h]
  simp [x.isLt]

/-- The values that no number of the width is. -/
theorem Value.bits_eq_none_iff (w : Nat) (v : Value) : Value.bits w v = none ↔ ∀ n, IsNumber v n → 2 ^ w ≤ n := by
  simp only [← Value.number_eq_some_iff, Value.bits]
  cases Value.number v with
  | none => simp
  | some n =>
    by_cases h : n < 2 ^ w
    · simp [h]
    · simp [h]
      omega

/-- A port refuses exactly the values it cannot hold. -/
theorem Ports.put_eq_none_iff (p : Ports) (port : Port) (v : Value) : p.put port v = none ↔ Unfit port v := by
  cases port <;>
    simp only [Ports.put, Option.map_eq_none_iff, Unfit, Value.bits_eq_none_iff, Value.number_eq_none_iff,
      Value.handle_eq_none_iff, Value.descriptor_eq_none_iff, pow_one]

/-- An operand reads a value exactly where the claims say so. -/
theorem operandValue_iff (s : State) (o : Operand) (v : Value) : operandValue s.slots o = .ok v ↔ s.Reads o v := by
  cases o with
  | lit w => simp [operandValue, State.Reads]
  | slot n =>
    cases hg : slotGet s.slots n with
    | none => simp [operandValue, State.Reads, hg]
    | some w =>
      cases w <;> simp [operandValue, State.Reads, hg] <;> rintro rfl <;> simp

/-- A slot that may not be named is not read. -/
theorem operandValue_unreadable {s : State} {n : Nat} (h : s.Unreadable n) : ∃ r, operandValue s.slots (.slot n) = .error r := by
  rcases h with h | ⟨st, h⟩ <;> simp [operandValue, h]

/-- The operands of an issue are readable exactly where those on the format's ports are. -/
theorem readArgs_error {slots : List (Nat × Value)} {f : Format} {args : List (Port × Operand)} {port : Port} {o : Operand}
    {r : Refusal} (hm : (port, o) ∈ args) (hp : port ∈ portsOf f) (ho : operandValue slots o = .error r) :
    ∃ r', readArgs slots f args = .error r' := by
  cases h : readArgs slots f args with
  | error r' => exact ⟨r', rfl⟩
  | ok values =>
    induction args generalizing values with
    | nil => cases hm
    | cons c rest ih =>
      obtain ⟨q, x⟩ := c
      by_cases hq : q ∈ portsOf f
      · cases hx : operandValue slots x with
        | error e => simp [readArgs, hq, hx] at h
        | ok v =>
          cases hr : readArgs slots f rest with
          | error e => simp [readArgs, hq, hx, hr] at h
          | ok vs =>
            rcases List.mem_cons.1 hm with he | hm
            · cases he
              rw [hx] at ho
              cases ho
            · obtain ⟨_, h'⟩ := ih hm _ hr
              cases h'
      · have h' : readArgs slots f rest = .ok values := by simpa [readArgs, hq] using h
        rcases List.mem_cons.1 hm with he | hm
        · cases he
          exact absurd hp hq
        · obtain ⟨_, h''⟩ := ih hm _ h'
          cases h''

/-- Operands on the format's ports that can all be read are read. -/
theorem readArgs_exists {s : State} {f : Format} {args : List (Port × Operand)}
    (hr : ∀ c ∈ args, c.1 ∈ portsOf f → ∃ v, s.Reads c.2 v) : ∃ values, readArgs s.slots f args = .ok values := by
  induction args with
  | nil => exact ⟨[], rfl⟩
  | cons c rest ih =>
    obtain ⟨vs, hv⟩ := ih (fun c hc => hr c (List.mem_cons_of_mem _ hc))
    by_cases hm : c.1 ∈ portsOf f
    · obtain ⟨w, hw⟩ := hr c (by simp) hm
      exact ⟨(c.1, w) :: vs, by simp [readArgs, hm, (operandValue_iff s _ _).2 hw, hv]⟩
    · exact ⟨vs, by simp [readArgs, hm, hv]⟩

/-- The ports of the operands read are the format's, in the order written. -/
theorem readArgs_keys {slots : List (Nat × Value)} {f : Format} {args : List (Port × Operand)} {values : List (Port × Value)}
    (h : readArgs slots f args = .ok values) : values.map Prod.fst = (args.map Prod.fst).filter (fun port => decide (port ∈ portsOf f)) := by
  induction args generalizing values with
  | nil =>
    cases h
    simp
  | cons c rest ih =>
    obtain ⟨port, o⟩ := c
    by_cases hm : port ∈ portsOf f
    · cases ho : operandValue slots o with
      | error e => simp [readArgs, hm, ho] at h
      | ok v =>
        cases hr : readArgs slots f rest with
        | error e => simp [readArgs, hm, ho, hr] at h
        | ok vs =>
          simp only [readArgs, hm, ho, hr, if_true] at h
          cases h
          simp [hm, ih hr]
    · have h' : readArgs slots f rest = .ok values := by simpa [readArgs, hm] using h
      simp [hm, ih h']

/-- A value put on a port changes no other port, and not the code. -/
theorem Ports.put_other {p q : Ports} {port : Port} {v : Value} (h : p.put port v = some q) :
    q.op = p.op ∧ ∀ r, r ≠ port → q.get r = p.get r := by
  cases port <;> simp only [Ports.put, Option.map_eq_some_iff] at h <;> obtain ⟨w, -, rfl⟩ := h <;>
    exact ⟨rfl, fun r hr => by cases r <;> first | rfl | exact absurd rfl hr⟩

/-- Two fillings of the ports with the same code and the same value on every port are the same. -/
theorem Ports.ext_get {p q : Ports} (ho : p.op = q.op) (hg : ∀ r, p.get r = q.get r) : p = q := by
  have h : ∀ r ∈ allPorts, p.get r = q.get r := fun r _ => hg r
  simp only [allPorts, List.cons_append, List.nil_append, List.forall_mem_cons, Ports.get, Value.word.injEq, Value.bool.injEq,
    Value.view.injEq, Value.storage.injEq, Value.nat.injEq, Value.byte.injEq] at h
  cases p
  cases q
  simp_all

/-- Where no port of the format is presented twice, no port is read twice. -/
theorem readArgs_nodup {slots : List (Nat × Value)} {f : Format} {args : List (Port × Operand)} {values : List (Port × Value)}
    (h : readArgs slots f args = .ok values) : (values.map Prod.fst).Nodup ↔ ∀ port ∈ portsOf f, ¬ PresentedTwice args port := by
  rw [readArgs_keys h, List.nodup_iff_count_le_one]
  constructor
  · intro hc port hp
    have := hc port
    rw [List.count_filter (by simpa using hp)] at this
    simpa [PresentedTwice] using this
  · intro hc port
    by_cases hp : port ∈ portsOf f
    · rw [List.count_filter (by simpa using hp)]
      simpa [PresentedTwice] using hc port hp
    · rw [List.count_eq_zero.2 (by simp [hp])]
      omega

/-- A port read twice is a port of the format that is presented twice. -/
theorem readArgs_count {slots : List (Nat × Value)} {f : Format} {args : List (Port × Operand)} {values : List (Port × Value)}
    (h : readArgs slots f args = .ok values) {port : Port} (hc : 1 < (values.map Prod.fst).count port) :
    port ∈ portsOf f ∧ PresentedTwice args port := by
  rw [readArgs_keys h] at hc
  have hp : port ∈ portsOf f := by
    by_contra hn
    rw [List.count_eq_zero.2 (by simp [hn])] at hc
    omega
  rw [List.count_filter (by simpa using hp)] at hc
  exact ⟨hp, hc⟩

/-- Everything that putting values on their ports can do: no port is presented twice, each presented port comes to hold what its value put there, the others and
the code stay. -/
theorem latch_ok {values : List (Port × Value)} {p q : Ports} (h : latch values p = .ok q) :
    (values.map Prod.fst).Nodup ∧ q.op = p.op ∧ (∀ r, r ∉ values.map Prod.fst → q.get r = p.get r) ∧
      ∀ c ∈ values, ∃ t u : Ports, t.put c.1 c.2 = some u ∧ q.get c.1 = u.get c.1 := by
  induction values generalizing p with
  | nil =>
    cases h
    simp
  | cons c rest ih =>
    obtain ⟨port, v⟩ := c
    by_cases hm : port ∈ rest.map Prod.fst
    · rw [latch, if_pos hm] at h
      cases h
    rw [latch, if_neg hm] at h
    cases hp : p.put port v with
    | none => simp [hp] at h
    | some u =>
      simp only [hp] at h
      obtain ⟨i0, i1, i2, i3⟩ := ih h
      obtain ⟨o1, o2⟩ := Ports.put_other hp
      refine ⟨List.nodup_cons.2 ⟨hm, i0⟩, i1.trans o1, fun r hr => ?_, fun c hc => ?_⟩
      · simp only [List.map_cons, List.mem_cons, not_or] at hr
        rw [i2 r hr.2, o2 r hr.1]
      · rcases List.mem_cons.1 hc with rfl | hc
        · exact ⟨p, u, hp, i2 port hm⟩
        · exact i3 c hc

/-- Values of which each fits its port, no two on one port, are put there. -/
theorem latch_exists {values : List (Port × Value)} (p : Ports) (hn : (values.map Prod.fst).Nodup)
    (h : ∀ c ∈ values, ¬ Unfit c.1 c.2) : ∃ q, latch values p = .ok q := by
  cases hl : latch values p with
  | ok q => exact ⟨q, rfl⟩
  | error e =>
    obtain ⟨-, ⟨c, hc, -, q, hq⟩ | ⟨port, hr, -⟩⟩ := latch_error hl
    · exact absurd ((Ports.put_eq_none_iff q _ _).1 hq) (h c hc)
    · have := List.nodup_iff_count_le_one.1 hn port
      omega

/-- Values that were put on their ports fit them. -/
theorem latch_fits {values : List (Port × Value)} {p q : Ports} (h : latch values p = .ok q) : ∀ c ∈ values, ¬ Unfit c.1 c.2 := by
  intro c hc hu
  obtain ⟨-, -, -, h4⟩ := latch_ok h
  obtain ⟨t, u, h1, -⟩ := h4 c hc
  rw [(Ports.put_eq_none_iff t _ _).2 hu] at h1
  cases h1

/-- The form of a well-formed issue: its slots do not repeat, and every port of the format is presented. -/
theorem issue_form {dests : List Nat} {code : Byte} {args : List (Port × Operand)} {i : Instr} (hd : decodeOp code = .ok i)
    (hw : Statement.WellFormed (.issue dests code args) = true) :
    (dests = [] ∨ dests.length = partsOf i) ∧ dests.Nodup ∧ ∀ p ∈ portsOf (formatOf i), ∃ o, (p, o) ∈ args := by
  simp only [Statement.WellFormed, statementProblem, hd, issueProblem] at hw
  split at hw
  · simp at hw
  · rename_i h
    simp only [not_or, not_and, not_not] at h
    refine ⟨?_, h.2, ?_⟩
    · by_cases h0 : dests = []
      · exact .inl h0
      · exact .inr (h.1 h0)
    · split at hw
      · simp at hw
      · rename_i h3
        simpa using h3

/-- A value that a port holds as it stands on the ports `q`. -/
abbrev Ports.Holds (q : Ports) (port : Port) (v : Value) : Prop := ∀ t : Ports, ∃ u, t.put port v = some u ∧ u.get port = q.get port

/-- The step of an issue whose operands are read and fit: the operation run on ports that hold the format's operands and, on every
other port, what stood there. -/
theorem step_of_operands {s : State} {dests : List Nat} {code : Byte} {args : List (Port × Operand)} {i : Instr} (q : Ports)
    (hc : s.Clean) (hf : s.fetch = some (.issue dests code args)) (hd : decode [code] = .ok (i, []))
    (hw : Statement.WellFormed (.issue dests code args) = true) (h1 : ∀ port ∈ portsOf (formatOf i), ¬ PresentedTwice args port)
    (ho : q.op = s.ports.op)
    (hp : ∀ port ∈ portsOf (formatOf i), ∃ o v, (port, o) ∈ args ∧ s.Reads o v ∧ q.Holds port v)
    (hk : ∀ port, port ∉ portsOf (formatOf i) → q.get port = s.ports.get port) :
    step s = retired dests (exec i (s.present code q)) := by
  have hd' := (decode_single_iff _ _).1 hd
  have huniq : ∀ port ∈ portsOf (formatOf i), ∀ o o', (port, o) ∈ args → (port, o') ∈ args → o = o' := fun port hm o o' h h' => by
    have hc := h1 port hm
    obtain ⟨l, r, rfl⟩ := List.append_of_mem h
    have hl : port ∉ l.map Prod.fst ∧ port ∉ r.map Prod.fst := by
      simp only [PresentedTwice, List.map_append, List.map_cons, List.count_append, List.count_cons_self] at hc
      constructor <;> exact fun hx => by
        have := List.count_pos_iff.2 hx
        omega
    rcases List.mem_append.1 h' with h' | h'
    · exact absurd (List.mem_map.2 ⟨_, h', rfl⟩) hl.1
    · rcases List.mem_cons.1 h' with h' | h'
      · cases h'
        rfl
      · exact absurd (List.mem_map.2 ⟨_, h', rfl⟩) hl.2
  have hread : ∀ c ∈ args, c.1 ∈ portsOf (formatOf i) → ∃ v, s.Reads c.2 v ∧ q.Holds c.1 v := fun c hm hc1 => by
    obtain ⟨o, v, h1, h2, h3⟩ := hp c.1 hc1
    exact ⟨v, huniq _ hc1 _ _ h1 hm ▸ h2, h3⟩
  obtain ⟨values, hv⟩ := readArgs_exists (fun c hm hc1 => (hread c hm hc1).imp fun _ h => h.1)
  have hval : ∀ c ∈ values, c.1 ∈ portsOf (formatOf i) ∧ q.Holds c.1 c.2 := fun c hm => by
    obtain ⟨o, h1, h2, h3⟩ := (readArgs_ok hv c.1 c.2).1 hm
    obtain ⟨v, h4, h5⟩ := hread (c.1, o) h1 h2
    have := (operandValue_iff s o v).2 h4
    rw [this] at h3
    cases h3
    exact ⟨h2, h5⟩
  obtain ⟨p, hl⟩ := latch_exists (values := values) s.ports ((readArgs_nodup hv).2 h1) fun c hm hu => by
    obtain ⟨u, h1, -⟩ := (hval c hm).2 s.ports
    rw [(Ports.put_eq_none_iff _ _ _).2 hu] at h1
    cases h1
  obtain ⟨-, l1, l2, l3⟩ := latch_ok hl
  have hpq : p = q := Ports.ext_get (l1.trans ho.symm) fun r => by
    by_cases hr : r ∈ values.map Prod.fst
    · obtain ⟨c, hm, rfl⟩ := List.mem_map.1 hr
      obtain ⟨t, u, h1, h2⟩ := l3 c hm
      obtain ⟨u', h3, h4⟩ := (hval c hm).2 t
      rw [h1] at h3
      cases h3
      rw [h2, h4]
    · rw [l2 r hr]
      by_cases hq : r ∈ portsOf (formatOf i)
      · obtain ⟨o, v, h1, h2, -⟩ := hp r hq
        exact absurd (List.mem_map.2 ⟨(r, v), (readArgs_ok hv r v).2 ⟨o, h1, hq, (operandValue_iff s o v).2 h2⟩, rfl⟩) hr
      · exact (hk r hq).symm
  subst hpq
  exact (step_of_fetch hc hf hw).trans ((issue_eq hd' hv hl).trans (by cases exec i (s.present code p) <;> rfl))

theorem State.actionNumber_of_reads {s : State} {o : Operand} {n : Nat} (h : s.ReadsNumber o n) : s.actionNumber o = .ok n := by
  obtain ⟨v, hv, hn⟩ := h
  simp [State.actionNumber, (operandValue_iff s o v).2 hv, (Value.number_eq_some_iff v n).2 hn]

theorem State.actionHandle_of_reads {s : State} {o : Operand} {h : Nat} (ho : s.Reads o (.storage h)) (hl : h < s.storages.length) :
    s.actionHandle o = .ok h := by
  simp [State.actionHandle, (operandValue_iff s o _).2 ho, Value.handle, hl]

theorem State.actionView_of_reads {s : State} {o : Operand} {v : View} (ho : s.Reads o (.view v)) : s.actionView o = .ok v := by
  simp [State.actionView, (operandValue_iff s o _).2 ho, Value.descriptor]

theorem State.actionBytes_of_reads {s : State} {o : Operand} {l : List Byte} (ho : s.Reads o (.bytes l)) : s.actionBytes o = .ok l := by
  simp [State.actionBytes, (operandValue_iff s o _).2 ho, Value.byteList]

end Sys2Proof.Machine
end

