-- ==== Sys2Proof/Laws/PerInstr.lean ====
section
/-! SUPPORT. What holds of every operation as a code word (30_encoding.md R80, R81), one lemma for each. -/

namespace Sys2Proof.Laws.RoundTrip

/-- The operation's code word decodes to the operation, with the rest handed back. -/
def Statement (i : Instr) : Prop := ∀ rest : List Byte, decode (encode i ++ rest) = .ok (i, rest)

theorem idNumeric : Statement .idNumeric := fun _ => rfl
theorem idIsExt : Statement .idIsExt := fun _ => rfl
theorem idIsErr : Statement .idIsErr := fun _ => rfl
theorem idIsRtr : Statement .idIsRtr := fun _ => rfl
theorem idErrCause : Statement .idErrCause := fun _ => rfl
theorem idPack : Statement .idPack := fun _ => rfl
theorem vRawId : Statement .vRawId := fun _ => rfl
theorem vId : Statement .vId := fun _ => rfl
theorem vFlags : Statement .vFlags := fun _ => rfl
theorem vDlen : Statement .vDlen := fun _ => rfl
theorem vBase : Statement .vBase := fun _ => rfl
theorem vSize : Statement .vSize := fun _ => rfl
theorem vIsFd : Statement .vIsFd := fun _ => rfl
theorem vIsExt : Statement .vIsExt := fun _ => rfl
theorem vIsErr : Statement .vIsErr := fun _ => rfl
theorem vErrCause : Statement .vErrCause := fun _ => rfl
theorem vIsRtr : Statement .vIsRtr := fun _ => rfl
theorem vCopyBuf : Statement .vCopyBuf := fun _ => rfl
theorem vCopyArr : Statement .vCopyArr := fun _ => rfl
theorem vRegion : Statement .vRegion := fun _ => rfl
theorem decode : Statement .decode := fun _ => rfl
theorem encode : Statement .encode := fun _ => rfl
theorem equals : Statement .equals := fun _ => rfl
theorem hash : Statement .hash := fun _ => rfl
theorem render : Statement .render := fun _ => rfl

end Sys2Proof.Laws.RoundTrip
end

