-- ==== Sys2Proof/Laws/Text.lean ====
section
/-! SUPPORT. The number texts of RENDER against Lean's own digits, and that no text the model builds has a line break. -/

namespace Sys2Proof.Machine

/-- The digits of a number below `base ^ (fuel + 1)` are Lean's. -/
theorem map_digitsOf {base : Nat} (hb : 1 < base) (fuel n : Nat) (acc : List Nat) (h : n < base ^ (fuel + 1)) :
    (digitsOf base fuel n acc).map Nat.digitChar = Nat.toDigits base n ++ acc.map Nat.digitChar := by
  induction fuel generalizing n acc with
  | zero =>
    have h : n < base := by simpa using h
    simp [digitsOf, Nat.mod_eq_of_lt h, Nat.toDigits_of_lt_base h]
  | succ f ih =>
    unfold digitsOf
    split
    case isTrue h' => simp [Nat.toDigits_of_lt_base h']
    case isFalse h' =>
      have hp : 0 < n / base := Nat.div_pos (by omega) (by omega)
      have hm : n % base < base := Nat.mod_lt _ (by omega)
      rw [ih _ _ (by rw [Nat.div_lt_iff_lt_mul (by omega), ← Nat.pow_succ]; exact h)]
      have := Nat.toDigits_append_toDigits hb hp hm
      rw [Nat.div_add_mod] at this
      rw [← this, Nat.toDigits_of_lt_base hm]
      simp

theorem digitsOf_lt {base : Nat} (hb : 1 < base) (fuel n : Nat) {acc : List Nat} (ha : ∀ d ∈ acc, d < base) :
    ∀ d ∈ digitsOf base fuel n acc, d < base := by
  have hm : ∀ n, n % base < base := fun n => Nat.mod_lt _ (by omega)
  induction fuel generalizing n acc with
  | zero => simpa [digitsOf, hm] using ha
  | succ f ih =>
    unfold digitsOf
    split
    · simpa [*] using ha
    · exact ih _ (by simpa [hm] using ha)

theorem digitChar_false : ∀ d < 16, digitChar false d = Nat.digitChar d := by decide
theorem digitChar_true : ∀ d < 16, digitChar true d = (Nat.digitChar d).toUpper := by decide
theorem digitChar_ne_newline : ∀ u, ∀ d < 16, digitChar u d ≠ '\n' := by decide

/-- `hex(x)` of a word, in the parameter's letter case (R186). -/
theorem hexText_eq (p : Params) {n : Nat} (h : n < 2 ^ 32) :
    hexText p n = (Nat.toDigits 16 n).map (fun c => if p.renderHexUpper then c.toUpper else c) := by
  have := map_digitsOf (base := 16) (by omega) 7 n [] (by simpa using h)
  rw [List.map_nil, List.append_nil] at this
  rw [← this, hexText, List.map_map]
  apply List.map_congr_left
  intro d hd
  have := digitsOf_lt (by omega) 7 n (acc := []) (by simp) d hd
  cases p.renderHexUpper
  · simp [digitChar_false d this]
  · simp [digitChar_true d this]

/-- `dec(x)` of a byte (R186). -/
theorem decText_eq {n : Nat} (h : n < 256) : decText n = Nat.toDigits 10 n := by
  have := map_digitsOf (base := 10) (by omega) 2 n [] (by simp; omega)
  rw [List.map_nil, List.append_nil] at this
  rw [← this, decText]
  apply List.map_congr_left
  intro d hd
  have := digitsOf_lt (by omega) 2 n (acc := []) (by simp) d hd
  exact digitChar_false d (by omega)

theorem joinText_eq (l : List (List Char)) : joinText l = [',', ' '].intercalate l := by
  induction l with
  | nil => rfl
  | cons a l ih =>
    cases l with
    | nil => simp [joinText, List.intercalate]
    | cons b l =>
      rw [joinText, ih]
      simp [List.intercalate]

theorem newline_notMem_digits {base : Nat} (hb : 1 < base) (hb' : base ≤ 16) (fuel n : Nat) (u : Bool) :
    '\n' ∉ (digitsOf base fuel n []).map (digitChar u) := by
  intro h
  rw [List.mem_map] at h
  obtain ⟨d, hd, he⟩ := h
  have hd := digitsOf_lt hb fuel n (acc := []) (by simp) d hd
  exact digitChar_ne_newline u d (by omega) he

theorem newline_notMem_joinText {l : List (List Char)} (h : ∀ t ∈ l, '\n' ∉ t) : '\n' ∉ joinText l := by
  induction l with
  | nil => simp [joinText]
  | cons a l ih =>
    cases l with
    | nil => simpa [joinText] using h
    | cons b l =>
      rw [joinText]
      simp at h ih ⊢
      exact ⟨h.1, ih h.2.1 h.2.2⟩

theorem newline_notMem_hexByteText (p : Params) (b : Byte) : '\n' ∉ hexByteText p b := by
  have := newline_notMem_digits (base := 16) (by omega) (by omega) 7 b.toNat p.renderHexUpper
  unfold hexByteText hexText
  split
  · rw [List.mem_cons, not_or]
    exact ⟨by decide, this⟩
  · exact this

/-- The fixed text is one line (R186). -/
theorem newline_notMem_frameText (p : Params) (id : Word) (flags dlen : Byte) (payload : List Byte) :
    '\n' ∉ frameText p id flags dlen payload := by
  have h1 : ∀ n, '\n' ∉ hexText p n := fun n => newline_notMem_digits (by omega) (by omega) 7 n _
  have h2 : ∀ n, '\n' ∉ decText n := fun n => newline_notMem_digits (by omega) (by omega) 2 n _
  have h3 : '\n' ∉ joinText (payload.map (hexByteText p)) := by
    apply newline_notMem_joinText
    intro t ht
    rw [List.mem_map] at ht
    obtain ⟨b, _, rfl⟩ := ht
    exact newline_notMem_hexByteText p b
  simp [frameText, h1, h2, h3]

theorem newline_notMem_oneLine (t : List Char) : '\n' ∉ oneLine t := by simp [oneLine]

end Sys2Proof.Machine
end

