-- ==== Sys2Proof/Tests/Slice0.lean ====
section
/-! SUPPORT. The model's own tests, their expected results from spec/95_test_vectors.md and the rules' own examples, and for every
obligation with hypotheses a state that meets them. -/

namespace Sys2Proof.Tests

open Sys2Proof.Machine

/-! ### A small world -/

/-- The parameters of 95_test_vectors.md, with upper-case, padded rendering. -/
def params : Params := ⟨.little, 0x80000000, 0x40000000, 0x20000000, 0x000007FF, 0x1FFFFFFF, 0x1FFFFFFF, true, true⟩

/-- F1's 16 bytes. -/
def f1 : List Byte := [0x23, 0x01, 0x00, 0x00, 0x03, 0x00, 0x00, 0x00, 0x11, 0x22, 0x33, 0x00, 0x00, 0x00, 0x00, 0x00]

/-- E1's 16 bytes (95_test_vectors.md 2.6). -/
def e1 : List Byte := [0x10, 0x00, 0x00, 0xA0, 0x02, 0x03, 0x00, 0x00, 0xFE, 0x01]

/-- 0: `s1`, 1: `d`, 2: `t32`, 3: `p3`, 4: `z80`, 5: a payload source of 70 bytes, 6: `e1`. -/
def storages : List Storage :=
  [.ofBytes 16 f1, .ofBytes 8 (List.replicate 8 0xAA), .ofBytes 32 (List.replicate 5 0x00 ++ f1), .ofBytes 3 [0x11, 0x22, 0x33],
   .ofBytes 80 [], .ofBytes 70 [0x00, 0x01, 0x02, 0x03, 0x04, 0x05, 0x06, 0x07, 0x08], .ofBytes 16 e1]

/-- The view of `s1`. -/
def v1 : View := ⟨0, 0, 16, 0⟩
/-- The view of `t32` at base 5. -/
def vt : View := ⟨2, 5, 16, 1⟩
/-- The view of `e1`. -/
def ve : View := ⟨6, 0, 16, 2⟩

/-- The three views live, `view` and `view2` on two of them. -/
def world : State :=
  { State.reset with
    params := params, storages := storages, live := [v1, vt, ve], nextTag := 3,
    ports := { Ports.reset with view := v1, view2 := vt, dst := 1, dcap := 8, src := 3, length := 3, id := 0x123, limit := 16 } }

/-- The world with a host program. -/
def running (program : List Statement) : State := { world with program := program }

/-- What `decode` reads, as data that can be compared. -/
def decoded (bytes : List Byte) : Option Instr :=
  match Sys2Proof.decode bytes with
  | .ok (i, []) => some i
  | _ => none

/-- What an observer of the next state sees. -/
def see {α : Type} (o : Host.Outcome State Fault Refusal) (f : State → α) : Option α :=
  match o with
  | .next t => some (f t)
  | .fault _ => none
  | .refused _ => none

/-- The result of an operation that answered. -/
def parts (i : Instr) (s : State) : Option (List Value) := see (exec i s) (fun t => t.result)

/-- The status of an operation. -/
def code (i : Instr) (s : State) : Option (BitVec 3) := see (exec i s) (fun t => t.status)

/-- The name of a refusal. -/
def refusal (o : Host.Outcome State Fault Refusal) : Option Refusal :=
  match o with
  | .next _ => none
  | .fault _ => none
  | .refused r => some r

/-- An operand written out. -/
def lit (v : Value) : Operand := .lit v

/-- A byte list written out. -/
def byteList (l : List Byte) : Operand := .lit (.bytes l)

/-- `DECODE s=<h>, base=<b>, limit=<l>`. -/
def decodeArgs (h b l : Nat) : List (Port × Operand) := [(.s, lit (.storage h)), (.base, lit (.nat b)), (.limit, lit (.nat l))]

/-- `ENCODE id=0x123, flags=0, src=3, offset=0, length=3`. -/
def encodeArgs : List (Port × Operand) :=
  [(.id, lit (.word 0x123)), (.flags, lit (.byte 0)), (.src, lit (.storage 3)), (.offset, lit (.nat 0)), (.length, lit (.nat 3))]

/-- The world whose fault mark holds an event, with `s1[4] = 20` (95_test_vectors.md 2.7). -/
def broken : State :=
  { world with
    fault := [.hostWrite 0 4],
    storages := storages.set 0 (.ofBytes 16 [0x23, 0x01, 0x00, 0x00, 0x14, 0x00, 0x00, 0x00, 0x11, 0x22, 0x33]) }

/-- The world with a data length and flags written into `z80` at `base`. -/
def z80 (base limit : Nat) (dlen flags : Byte) : State :=
  { world with
    storages := storages.set 4 (.ofBytes 80 (List.replicate (base + 4) 0x00 ++ [dlen, flags])),
    ports := { world.ports with s := 4, base := base, limit := limit } }

/-- The world with ENCODE's source at 70 bytes of storage 5. -/
def source (offset length : Nat) : State :=
  { world with ports := { world.ports with src := 5, offset := offset, length := length } }

theorem test_world_meets_the_invariants :
    world.LiveInv ∧ world.MemWf ∧ world.TagsRise ∧ world.interfaceOk = true ∧ world.Clean ∧ DefaultIds world.params := by decide

/-! ### Codes, bit by bit (30_encoding.md R80, R82) -/

theorem test_decode_codec :
    decoded [0b00000001] = some .idNumeric ∧ decoded [0b00000010] = some .idIsExt ∧ decoded [0b00000011] = some .idIsErr ∧
    decoded [0b00000100] = some .idIsRtr ∧ decoded [0b00000101] = some .idErrCause ∧ decoded [0b00000110] = some .idPack := by
  decide

theorem test_decode_frame_view :
    decoded [0b00010000] = some .vRawId ∧ decoded [0b00010001] = some .vId ∧ decoded [0b00010010] = some .vFlags ∧
    decoded [0b00010011] = some .vDlen ∧ decoded [0b00010100] = some .vBase ∧ decoded [0b00010101] = some .vSize ∧
    decoded [0b00010110] = some .vIsFd ∧ decoded [0b00010111] = some .vIsExt ∧ decoded [0b00011000] = some .vIsErr ∧
    decoded [0b00011001] = some .vErrCause ∧ decoded [0b00011010] = some .vIsRtr ∧ decoded [0b00011011] = some .vCopyBuf ∧
    decoded [0b00011100] = some .vCopyArr ∧ decoded [0b00011101] = some .vRegion := by decide

theorem test_decode_factory_and_values :
    decoded [0b00100000] = some .decode ∧ decoded [0b00100001] = some .encode ∧ decoded [0b00110000] = some .equals ∧
    decoded [0b00110001] = some .hash ∧ decoded [0b00110010] = some .render := by decide

theorem test_decode_refuses_by_name :
    Sys2Proof.decode [] = .error .noCode ∧ Sys2Proof.decode [0b00000000] = .error (.unassigned 0x00) ∧
    Sys2Proof.decode [0b00011110, 0b00000001] = .error (.unassigned 0x1E) := ⟨rfl, rfl, rfl⟩

theorem test_encode_gives_the_code_word : encode .vIsRtr = [0b00011010] ∧ encode .render = [0b00110010] := by decide

theorem test_decodeTableWord :
    decodeTableWord 8 0x21 = some .encode ∧ decodeTableWord 8 0x33 = none ∧ decodeTableWord 4 0x21 = some .idNumeric := by decide

/-! ### Ill-formed statements (30_encoding.md R81, R85; 20_memory.md R50) -/

theorem test_wellFormed_accepts :
    Instr.WellFormed .encode = true ∧ Statement.WellFormed (.issue [0, 1] 0x21 encodeArgs) = true ∧
    Statement.WellFormed (.issue [] 0x00 []) = true ∧ Statement.WellFormed (.supply none (lit (.nat 2)) (byteList [0x01, 0x02])) = true := by decide

theorem test_wellFormed_refuses_a_wrong_number_of_slots :
    statementProblem (.issue [0] 0x21 encodeArgs) = some .slotCount ∧
    Statement.WellFormed (.issue [3, 3] 0x21 encodeArgs) = false := by decide

theorem test_wellFormed_refuses_a_missing_port :
    statementProblem (.issue [] 0x30 [(.view, .slot 0)]) = some (.portMissing .view2) ∧
    Statement.WellFormed (.issue [] 0x30 [(.view, .slot 0)]) = false := by decide

theorem test_step_refuses_a_slot_that_is_unset_or_failed :
    refusal (step (running [.issue [] 0x13 [(.view, .slot 7)]])) = some (.slotUnset 7) ∧
    refusal (step { running [.issue [] 0x13 [(.view, .slot 7)]] with slots := [(7, .failed 1)] }) = some (.slotFailed 7) := by
  decide

theorem test_step_of_a_value_that_its_port_cannot_hold :
    see (step (running [.issue [3] 0x13 [(.view, lit (.nat 0))]])) (fun t => (t.fault, t.slots, t.pc)) =
      some ([.illegalOperand .view (.nat 0)], [(3, .failed 7)], 0) := by decide

theorem test_step_of_a_number_too_wide_for_its_port :
    see (step (running [.issue [] 0x01 [(.raw, lit (.nat 0x100000000))]])) (fun t => (t.status, t.result, t.fault)) =
      some (7, [], [.illegalOperand .raw (.nat 0x100000000)]) := by decide

theorem test_step_of_a_port_presented_twice :
    see (step (running [.issue [] 0x13 [(.view, lit (.view v1)), (.view, lit (.view vt))]])) (fun t => (t.status, t.fault, t.pc)) =
      some (7, [.repeatedOperand .view], 0) := by decide

/-- A port of another format may hold any operand, even an unset slot, and more than one: it is ignored. -/
theorem test_step_ignores_ports_the_format_does_not_name :
    see (step (running [.issue [1] 0x02 [(.view, .slot 9), (.view, lit (.nat 0)), (.dcap, lit (.text [])), (.raw, lit (.word 0x80000000))]]))
      (fun t => (t.slots, t.ports.view, t.ports.dcap)) = some ([(1, .bool true)], v1, 8) := by decide

theorem test_step_refuses_an_ill_formed_host_action :
    refusal (step (running [.hostWrite (lit (.nat 0)) (lit (.nat 0)) (byteList [])])) = some .actionKind ∧
    refusal (step (running [.hostRead none (lit (.storage 9)) (lit (.nat 0)) (lit (.nat 0))])) = some (.actionStorage 9) ∧
    refusal (step (running [.drop (lit (.view ⟨0, 0, 16, 9⟩))])) = some (.dropNotLive ⟨0, 0, 16, 9⟩) ∧
    refusal (step (running [.supply none (lit (.nat 16)) (byteList [0x01])])) = some .supplyLength := by decide

/-! ### The Identifier Codec (95_test_vectors.md 2.1, 2.2) -/

theorem test_idNumeric :
    parts .idNumeric (world.withRaw 0x801ABCDE) = some [.word 0x001ABCDE] ∧
    parts .idNumeric (world.withRaw 0x001ABCDE) = some [.word 0x000004DE] ∧
    parts .idNumeric (world.withRaw 0x7FFFFFFF) = some [.word 0x000007FF] ∧
    parts .idNumeric (world.withRaw 0xFFFFFFFF) = some [.word 0x1FFFFFFF] := by decide

theorem test_idIsExt :
    parts .idIsExt (world.withRaw 0x80000000) = some [.bool true] ∧
    parts .idIsExt (world.withRaw 0x7FFFFFFF) = some [.bool false] := by decide

theorem test_idIsErr :
    parts .idIsErr (world.withRaw 0x20000004) = some [.bool true] ∧
    parts .idIsErr (world.withRaw 0x1FFFFFFF) = some [.bool false] := by decide

theorem test_idIsRtr :
    parts .idIsRtr (world.withRaw 0x40000123) = some [.bool true] ∧
    parts .idIsRtr (world.withRaw 0x00000123) = some [.bool false] := by decide

theorem test_idErrCause :
    parts .idErrCause (world.withRaw 0xA0000010) = some [.word 0x00000010] ∧
    parts .idErrCause (world.withRaw 0xFFFFFFFF) = some [.word 0x1FFFFFFF] := by decide

theorem test_idPack :
    parts .idPack (world.withPack true false false 0x001ABCDE) = some [.word 0x801ABCDE] ∧
    parts .idPack (world.withPack false false false 0x001ABCDE) = some [.word 0x000004DE] ∧
    parts .idPack (world.withPack false false true 0x001ABCDE) = some [.word 0x201ABCDE] ∧
    parts .idPack (world.withPack false true true 0x00000005) = some [.word 0x60000005] := by decide

/-! ### The Frame View (95_test_vectors.md 2.6, 2.7) -/

theorem test_vRawId :
    parts .vRawId world = some [.word 0x00000123] ∧ parts .vRawId (world.withView ve) = some [.word 0xA0000010] := by decide

theorem test_vRawId_big_endian :
    parts .vRawId { world with params := { params with hostEndian := .big } } = some [.word 0x23010000] := by decide

theorem test_vId : parts .vId (world.withView vt) = some [.word 0x123] ∧ parts .vId (world.withView ve) = some [.word 0x10] := by
  decide

theorem test_vFlags : parts .vFlags world = some [.byte 0x00] ∧ parts .vFlags (world.withView ve) = some [.byte 0x03] := by decide

theorem test_vDlen : parts .vDlen world = some [.byte 3] ∧ parts .vDlen (world.withView ve) = some [.byte 2] := by decide

theorem test_vBase : parts .vBase world = some [.nat 0] ∧ parts .vBase (world.withView vt) = some [.nat 5] := by decide

theorem test_vSize : parts .vSize world = some [.nat 16] := by decide

theorem test_vIsFd : parts .vIsFd world = some [.bool false] ∧ parts .vIsFd (world.withView ve) = some [.bool true] := by decide

theorem test_vIsExt : parts .vIsExt world = some [.bool false] ∧ parts .vIsExt (world.withView ve) = some [.bool true] := by decide

theorem test_vIsErr : parts .vIsErr world = some [.bool false] ∧ parts .vIsErr (world.withView ve) = some [.bool true] := by decide

theorem test_vErrCause :
    parts .vErrCause world = some [.word 0x123] ∧ parts .vErrCause (world.withView ve) = some [.word 0x10] := by decide

theorem test_vIsRtr : parts .vIsRtr world = some [.bool false] ∧ parts .vIsRtr (world.withView ve) = some [.bool false] := by decide

theorem test_vRegion : parts .vRegion (world.withView vt) = some [.storage 2, .nat 5, .nat 16] := by decide

theorem test_view_not_live :
    code .vDlen (world.withView ⟨0, 0, 16, 9⟩) = some 7 ∧
    see (exec .vDlen (world.withView ⟨0, 0, 16, 9⟩)) (fun t => t.fault) = some [.illegalView ⟨0, 0, 16, 9⟩] := by decide

theorem test_vCopyBuf :
    see (exec .vCopyBuf (world.withCopy 1 5 3)) (fun t => (t.result, (List.range 8).map (t.byteAt 1))) =
      some ([.nat 3], [some 0xAA, some 0xAA, some 0xAA, some 0xAA, some 0xAA, some 0x11, some 0x22, some 0x33]) ∧
    see (exec .vCopyBuf (world.withCopy 1 0 2)) (fun t => (t.result, [t.byteAt 1 1, t.byteAt 1 2])) =
      some ([.nat 2], [some 0x22, some 0xAA]) := by decide

theorem test_vCopyBuf_failures :
    code .vCopyBuf (world.withCopy 1 6 3) = some 5 ∧ code .vCopyBuf (world.withCopy 0 0 8) = some 6 ∧
    code .vCopyBuf (world.withCopy 2 3 3) = some 6 ∧ code .vCopyBuf (world.withCopy 2 0 3) = some 0 ∧
    see (exec .vCopyBuf broken) (fun t => (t.status, t.info)) = some (6, some (.fault (.brokenSpan v1))) := by decide

theorem test_vCopyArr :
    see (exec .vCopyArr (world.withCopy 1 2 3)) (fun t => (t.result, [t.byteAt 1 1, t.byteAt 1 2, t.byteAt 1 4, t.byteAt 1 5])) =
      some ([.nat 3], [some 0xAA, some 0x11, some 0x33, some 0xAA]) := by decide

theorem test_vCopyArr_of_nothing :
    parts .vCopyArr (world.withCopy 1 8 0) = some [.nat 0] ∧ code .vCopyArr (world.withCopy 1 9 0) = some 5 := by decide

/-! ### The Frame Factory (95_test_vectors.md 2.4, 2.5) -/

theorem test_decode_verdicts_of_16_bytes :
    code .decode (z80 0 15 200 0) = some 1 ∧ code .decode (z80 0 17 0 0) = some 1 ∧ code .decode (z80 0 16 8 0) = some 0 ∧
    code .decode (z80 0 16 9 0) = some 3 ∧ code .decode (z80 0 16 64 0) = some 3 ∧ code .decode (z80 0 16 65 0) = some 2 ∧
    code .decode (z80 0 81 0 0) = some 7 ∧ code .decode (z80 10 5 0 0) = some 7 := by decide

theorem test_decode_verdicts_of_72_bytes :
    code .decode (z80 0 72 64 0) = some 0 ∧ code .decode (z80 0 72 65 0) = some 2 ∧
    see (exec .decode (z80 8 80 64 0x02)) (fun t => (t.result, t.live)) =
      some ([.view ⟨4, 8, 72, 3⟩], [v1, vt, ve, ⟨4, 8, 72, 3⟩]) := by decide

theorem test_encode :
    see (exec .encode world) (fun t => (t.result, (List.range 12).map (t.byteAt 7), t.byteAt 7 15, t.byteAt 7 16)) =
      some ([.storage 7, .view ⟨7, 0, 16, 3⟩],
        [some 0x23, some 0x01, some 0x00, some 0x00, some 0x03, some 0x00, some 0x00, some 0x00, some 0x11, some 0x22, some 0x33,
         some 0x00], some 0x00, none) := by decide

theorem test_encode_sizes_and_failures :
    see (exec .encode (source 0 8)) (fun t => t.cap 7) = some 16 ∧ see (exec .encode (source 0 9)) (fun t => t.cap 7) = some 72 ∧
    code .encode (source 6 64) = some 0 ∧ code .encode (source 0 65) = some 2 ∧ code .encode (source 2 69) = some 4 ∧
    code .encode (source 70 0) = some 0 ∧ code .encode (source 71 0) = some 4 := by decide

/-! ### Value Semantics (95_test_vectors.md 2.8) -/

theorem test_equals :
    parts .equals world = some [.bool true] ∧ parts .equals (world.withViews v1 ve) = some [.bool false] ∧
    parts .equals (world.withViews ve ve) = some [.bool true] := by decide

theorem test_equals_reads_the_padding :
    parts .equals { world with storages := storages.set 2 (.ofBytes 32 (List.replicate 5 0x00 ++ f1.set 6 0x01)) } =
      some [.bool false] := by decide

/-- No value of the hash is known; two frames with one span have one hash (R183). -/
theorem test_hash : parts .hash world = parts .hash (world.withView vt) ∧ code .hash world = some 0 := by
  constructor <;> rfl

theorem test_render_fixed_text :
    frameText params 0x123 0 3 [0x11, 0x22, 0x33] = "CanFrame(ID=123, FLAGS=0, LEN=3, DATA=[11, 22, 33])".toList ∧
    frameText params 0x200 0 0 [] = "CanFrame(ID=200, FLAGS=0, LEN=0, DATA=[])".toList ∧
    frameText params 0x5 0 1 [0x0A] = "CanFrame(ID=5, FLAGS=0, LEN=1, DATA=[0A])".toList ∧
    frameText { params with renderHexUpper := false, renderBytePad := false } 0x5 0 1 [0x0A] =
      "CanFrame(ID=5, FLAGS=0, LEN=1, DATA=[a])".toList := by decide

theorem test_render : code .render world = some 0 ∧ code .render (world.withView ⟨0, 0, 16, 9⟩) = some 7 := by
  constructor <;> rfl

/-! ### Host actions and the run (95_test_vectors.md 2.9, P2, P5) -/

theorem test_supply :
    see (step (running [.supply (some 4) (lit (.nat 3)) (byteList [0x11, 0x00, 0x33])])) (fun t => (t.slots, t.cap 7, t.byteAt 7 1, t.byteAt 7 2, t.pc)) =
      some ([(4, .storage 7)], 3, some 0x00, some 0x33, 1) := by decide

/-- The capacity and the bytes named by slots, as a HOST_READ and a V_SIZE leave them (R85). -/
theorem test_supply_from_slots :
    see (step { running [.supply none (.slot 1) (.slot 0)] with slots := [(0, .bytes [0x11, 0x22]), (1, .nat 2)] })
      (fun t => (t.cap 7, t.byteAt 7 1)) = some (2, some 0x22) := by decide

theorem test_hostRead :
    see (step (running [.hostRead (some 0) (lit (.storage 0)) (lit (.nat 8)) (lit (.nat 4))])) (fun t => (t.slots, t.fault)) =
      some ([(0, .bytes [0x11, 0x22, 0x33, 0x00])], []) ∧
    see (step (running [.hostRead none (lit (.storage 0)) (lit (.nat 8)) (lit (.nat 9))])) (fun t => t.fault) =
      some [.outsideStorage 0 8] := by decide

theorem test_hostWrite :
    see (step (running [.hostWrite (lit (.storage 2)) (lit (.nat 0)) (byteList [0xFF])])) (fun t => (t.byteAt 2 0, t.fault, t.pc)) =
      some (some 0xFF, [], 1) ∧
    see (step (running [.hostWrite (lit (.storage 2)) (lit (.nat 20)) (byteList [0xFF])])) (fun t => (t.byteAt 2 20, t.fault, t.pc)) =
      some (some 0xFF, [.hostWrite 2 20], 0) := by decide

theorem test_drop :
    see (step (running [.drop (lit (.view v1))])) (fun t => (t.live, t.pc)) = some ([vt, ve], 1) := by decide

theorem test_step_fills_the_slots :
    see (step (running [.issue [0, 1] 0x21 encodeArgs])) (fun t => (t.slots, t.pc)) =
      some ([(0, .storage 7), (1, .view ⟨7, 0, 16, 3⟩)], 1) ∧
    see (step (running [.issue [0] 0x20 (decodeArgs 0 0 15)])) (fun t => (t.slots, t.pc, t.info)) =
      some ([(0, .failed 1)], 1, some (.error (.invalidLength 15))) := by decide

theorem test_step_of_an_unassigned_code :
    see (step (running [.issue [] 0xFF []])) (fun t => (t.status, t.fault, t.pc)) = some (7, [.illegalOp 0xFF], 0) := by decide

/-- A recorded fault has stopped the run (P5). -/
theorem test_step_after_a_fault : step broken = .fault (.runStopped (.hostWrite 0 4)) := rfl

/-- The word placed where the step fetches is the operation that the step runs, right after reset. -/
theorem test_withFetchWord :
    see (step (State.reset.withFetchWord 8 0x06)) (fun t => (t.status, t.result, t.pc)) = some (0, [.word 0], 1) ∧
    see (step (State.reset.withFetchWord 8 0x21)) (fun t => (t.status, t.fault)) = some (7, [.illegalStorage 0]) := by
  constructor <;> rfl

/-! ### Witnesses: a state that meets the hypotheses of each obligation that has any -/

theorem witness_DecodeInvertsEncode :
    Sys2Proof.decode [0x1D] = .ok (.vRegion, []) ∧ Instr.WellFormed .vRegion = true := ⟨rfl, rfl⟩

/-- The ends of the listed ranges are unassigned, and the codes next to them are not. -/
theorem witness_UnassignedCodesRaiseIllegalOperation :
    (∀ c ∈ [0x00, 0x07, 0x0F, 0x1E, 0x1F, 0x22, 0x2F, 0x33, 0xFF], Unassigned c) ∧
    (∀ c ∈ [0x01, 0x06, 0x10, 0x1D, 0x20, 0x21, 0x30, 0x32], ¬ Unassigned c) ∧ (running [.issue [] 0x1E []]).Clean ∧
    (running [.issue [] 0x1E []]).program[(running [.issue [] 0x1E []]).pc]? = some (.issue [] 0x1E []) := by decide

theorem witness_StepRunsTheDecodedOperation :
    (running [.issue [0] 0x20 (decodeArgs 0 0 16)]).Clean ∧
    (running [.issue [0] 0x20 (decodeArgs 0 0 16)]).program[0]? = some (.issue [0] 0x20 (decodeArgs 0 0 16)) ∧
    Sys2Proof.decode [0x20] = .ok (.decode, []) ∧ Instr.WellFormed .decode = true ∧
    Statement.WellFormed (.issue [0] 0x20 (decodeArgs 0 0 16)) = true ∧
    ∃ values ports, readArgs [] .D (decodeArgs 0 0 16) = .ok values ∧ latch values world.ports = .ok ports :=
  ⟨rfl, rfl, rfl, rfl, by decide, _, _, rfl, rfl⟩

theorem witness_RunEndsAtAFaultOrAfterTheLastStatement :
    broken.fault = [.hostWrite 0 4] ∧ (running []).Clean ∧ (running []).program.length ≤ (running []).pc ∧
    (State.reset).program.length ≤ State.reset.pc := by decide

/-- One statement that records no fault and one that does. -/
theorem witness_StatementIndexMovesByOne :
    (∃ t, step (running [.issue [] 0x21 encodeArgs]) = .next t ∧ t.fault = [] ∧ t.pc = 1) ∧
    (∃ t, step (running [.issue [] 0xFF []]) = .next t ∧ t.fault ≠ [] ∧ t.pc = 0) :=
  ⟨⟨_, rfl, by decide, by decide⟩, ⟨_, rfl, by decide, by decide⟩⟩

/-- An answer with two parts, an error result and a model fault. -/
theorem witness_ResultOrStatusGoesIntoTheSlots :
    (∃ values ports t, readArgs [] .E encodeArgs = .ok values ∧ latch values world.ports = .ok ports ∧
      exec .encode ((running [.issue [0, 1] 0x21 encodeArgs]).present 0x21 ports) = .next t ∧ t.status = 0 ∧ t.result.length = 2) ∧
    (∃ values ports t, readArgs [] .D (decodeArgs 0 0 15) = .ok values ∧ latch values world.ports = .ok ports ∧
      exec .decode ((running [.issue [0] 0x20 (decodeArgs 0 0 15)]).present 0x20 ports) = .next t ∧ t.status = 1) ∧
    (∃ values ports t, readArgs [] .D (decodeArgs 0 5 0) = .ok values ∧ latch values world.ports = .ok ports ∧
      exec .decode ((running [.issue [0] 0x20 (decodeArgs 0 5 0)]).present 0x20 ports) = .next t ∧ t.status = 7) ∧
    Statement.WellFormed (.issue [0, 1] 0x21 encodeArgs) = true ∧
    Statement.WellFormed (.issue [0] 0x20 (decodeArgs 0 0 15)) = true ∧ decodeOp 0x21 = .ok .encode ∧ decodeOp 0x20 = .ok .decode :=
  ⟨⟨_, _, _, rfl, rfl, rfl, by decide, by decide⟩, ⟨_, _, _, rfl, rfl, rfl, by decide⟩, ⟨_, _, _, rfl, rfl, rfl, by decide⟩,
   by decide, by decide, rfl, rfl⟩

theorem witness_StepKeepsLiveDescriptorsValid :
    (running [.issue [] 0x21 encodeArgs]).LiveInv ∧ ∃ t, step (running [.issue [] 0x21 encodeArgs]) = .next t ∧ t.live.length = 4 :=
  ⟨by decide, _, rfl, by decide⟩

theorem witness_StepKeepsMemoryCanonical :
    (running [.hostWrite (lit (.storage 1)) (lit (.nat 0)) (byteList [0x00])]).MemWf ∧
    ∃ t, step (running [.hostWrite (lit (.storage 1)) (lit (.nat 0)) (byteList [0x00])]) = .next t ∧ t.byteAt 1 0 = some 0 :=
  ⟨by decide, _, rfl, by decide⟩

theorem witness_StepKeepsDescriptorsDistinct :
    (running [.issue [] 0x20 (decodeArgs 0 0 16)]).TagsRise ∧
    ∃ t, step (running [.issue [] 0x20 (decodeArgs 0 0 16)]) = .next t ∧ t.live = [v1, vt, ve, ⟨0, 0, 16, 3⟩] :=
  ⟨by decide, _, rfl, by decide⟩

theorem witness_StepKeepsTheInterfaceConsistent :
    (running [.issue [] 0x20 (decodeArgs 0 0 15)]).interfaceOk = true ∧
    ∃ t, step (running [.issue [] 0x20 (decodeArgs 0 0 15)]) = .next t ∧ t.status = 1 :=
  ⟨by decide, _, rfl, by decide⟩

theorem witness_NoStepChangesAParameter : ∃ t, step (running [.issue [] 0x21 encodeArgs]) = .next t := ⟨_, rfl⟩

/-- A step that adds no storage, a SUPPLY and an ENCODE. -/
theorem witness_StoragesOnlyGrow :
    (∃ t, step (running [.issue [] 0x20 (decodeArgs 0 0 16)]) = .next t ∧ t.storages.length = 7) ∧
    (∃ t, step (running [.supply none (lit (.nat 0)) (byteList [])]) = .next t ∧ t.storages.length = 8) ∧
    (∃ t, step (running [.issue [] 0x21 encodeArgs]) = .next t ∧ t.storages.length = 8) :=
  ⟨⟨_, rfl, by decide⟩, ⟨_, rfl, by decide⟩, ⟨_, rfl, by decide⟩⟩

theorem witness_OnlyConstructionMakesDescriptorsLive :
    (∃ t, exec .vFlags world = .next t ∧ t.live = world.live) ∧ (∃ t, exec .decode world = .next t ∧ t.live.length = 4) ∧
    (∃ t, exec .encode world = .next t ∧ t.live.length = 4) :=
  ⟨⟨_, rfl, by decide⟩, ⟨_, rfl, by decide⟩, ⟨_, rfl, by decide⟩⟩

/-- A copy into a storage beside the live region in it. -/
theorem witness_NoOperationWritesALiveRegion :
    world.LiveInv ∧ (∃ t, exec .vCopyBuf (world.withCopy 2 0 3) = .next t ∧ t.byteAt 2 2 = some 0x33) ∧ vt ∈ world.live :=
  ⟨by decide, ⟨_, rfl, by decide⟩, by decide⟩

theorem witness_CleanStepsLeaveLiveRegionsAlone :
    (running [.hostWrite (lit (.storage 2)) (lit (.nat 4)) (byteList [0xFF])]).LiveInv ∧
    ∃ t, step (running [.hostWrite (lit (.storage 2)) (lit (.nat 4)) (byteList [0xFF])]) = .next t ∧ t.Clean ∧ t.byteAt 2 4 = some 0xFF :=
  ⟨by decide, _, rfl, by decide, by decide⟩

theorem witness_FaultMarkIsSticky :
    (∃ t, exec .vFlags broken = .next t ∧ t.fault = broken.fault) ∧
    (∃ t, exec .vCopyBuf broken = .next t ∧ t.fault = [.hostWrite 0 4, .brokenSpan v1]) :=
  ⟨⟨_, rfl, by decide⟩, ⟨_, rfl, by decide⟩⟩

/-- An error result and a model fault. -/
theorem witness_FailuresArePrecise :
    (∃ t, exec .encode (source 0 65) = .next t ∧ t.status = 2) ∧ (∃ t, exec .vCopyBuf broken = .next t ∧ t.status = 6) :=
  ⟨⟨_, rfl, by decide⟩, ⟨_, rfl, by decide⟩⟩

theorem witness_StatusesByOperation :
    world.LiveInv ∧ (∃ t, exec .idPack world = .next t) ∧ (∃ t, exec .hash world = .next t) ∧ (∃ t, exec .vCopyArr world = .next t) ∧
    (∃ t, exec .decode world = .next t) ∧ (∃ t, exec .encode world = .next t) ∧ (∃ t, exec .equals world = .next t) :=
  ⟨by decide, ⟨_, rfl⟩, ⟨_, rfl⟩, ⟨_, rfl⟩, ⟨_, rfl⟩, ⟨_, rfl⟩, ⟨_, rfl⟩⟩

theorem witness_IllFormedOperandsAreRefused :
    formatOf .vRegion = .V ∧ v1 ∉ State.reset.live ∧ formatOf .equals = .VV ∧ formatOf .vCopyArr = .VC ∧
    (world.withViews v1 ⟨0, 0, 16, 9⟩).ports.view2 ∉ world.live ∧ world.storages.length ≤ (world.withCopy 7 0 0).ports.dst ∧
    State.reset.storages.length ≤ State.reset.ports.src ∧
    ¬ (4 < world.storages.length ∧ 10 ≤ 5 ∧ 5 ≤ world.cap 4) ∧ ¬ (4 < world.storages.length ∧ 0 ≤ 81 ∧ 81 ≤ world.cap 4) ∧
    (source 71 0).ports.src < world.storages.length ∧ 71 + 0 > world.cap 5 ∧ world.LiveInv ∧ world.Clean ∧ v1 ∈ world.live ∧
    1 < world.storages.length ∧ world.byteAt 0 4 = some 3 ∧ 6 + min 3 3 > world.cap 1 ∧ 9 + min 3 0 > world.cap 1 := by decide

/-- R7's values, for every statement that takes them as a premise. -/
theorem witness_DefaultIds :
    DefaultIds params ∧ DefaultIds State.reset.params ∧ parts .idIsExt (world.withRaw 0x9FFFFFFF) = some [.bool true] ∧
    parts .idNumeric (world.withRaw 0x9FFFFFFF) = some [.word 0x1FFFFFFF] ∧
    parts .idIsExt (world.withRaw 0x000007FF) = some [.bool false] := by decide

theorem witness_FlagTestsReadTheirFlag : DefaultIds (world.withRaw 0xE0000000).params := witness_DefaultIds.1
theorem witness_NumericIdAndCauseAreMaskedOut : DefaultIds (world.withRaw 0x001ABCDE).params := witness_DefaultIds.1
theorem witness_NumericIdFitsItsMode : DefaultIds (world.withRaw 0x00000800).params := witness_DefaultIds.1

theorem witness_CodecOperationsArePure :
    Instr.idPack ∈ codecOps ∧ broken.params = world.params ∧ broken.ports.raw = world.ports.raw ∧
    broken.ports.packExt = world.ports.packExt ∧ broken.ports.packRtr = world.ports.packRtr ∧
    broken.ports.packErr = world.ports.packErr ∧ broken.ports.packValue = world.ports.packValue ∧ broken ≠ world := by decide

theorem witness_FlagBitsAreOrthogonal :
    DefaultIds (world.withRaw 0xA0000010).params ∧
    Answers .idIsExt (world.withRaw 0xA0000010) [.bool true] ∧ Answers .idIsErr (world.withRaw 0xA0000010) [.bool true] ∧
    Answers .idIsRtr (world.withRaw 0xA0000010) [.bool false] ∧ Answers .idNumeric (world.withRaw 0xA0000010) [.word 0x10] ∧
    Answers .idErrCause (world.withRaw 0xA0000010) [.word 0x10] :=
  ⟨by decide, ⟨_, rfl, by decide⟩, ⟨_, rfl, by decide⟩, ⟨_, rfl, by decide⟩, ⟨_, rfl, by decide⟩, ⟨_, rfl, by decide⟩⟩

/-- Both directions: a word whose bits 28:11 are lost and one that comes back (95_test_vectors.md 2.2). -/
theorem witness_PackAndUnpackAreInverse :
    DefaultIds world.params ∧ parts .idPack (world.withPack false false false 0x4DE) = some [.word 0x4DE] ∧
    parts .idPack (world.withPack true false false 0x1ABCDE) = some [.word 0x801ABCDE] ∧ (world.withPack true true true 1).ports.packErr = true := by decide

/-- Three live views: of a 16-byte frame at base 0, at base 5, and of an FD-classified frame. -/
theorem witness_live_views :
    world.LiveInv ∧ world.ports.view ∈ world.live ∧ world.ports.view2 ∈ world.live ∧ (world.withView ve).ports.view ∈ world.live := by
  decide

theorem witness_IdentifierAccessorsReadThrough : world.LiveInv ∧ world.ports.view ∈ world.live :=
  ⟨witness_live_views.1, witness_live_views.2.1⟩
theorem witness_FlagsLengthAndFdClassReadThrough : world.LiveInv ∧ world.ports.view ∈ world.live :=
  ⟨witness_live_views.1, witness_live_views.2.1⟩
theorem witness_GeometryIsTheDescriptors : world.LiveInv ∧ world.ports.view ∈ world.live :=
  ⟨witness_live_views.1, witness_live_views.2.1⟩
theorem witness_EqualsComparesEveryByte : world.LiveInv ∧ world.ports.view ∈ world.live ∧ world.ports.view2 ∈ world.live :=
  ⟨witness_live_views.1, witness_live_views.2.1, witness_live_views.2.2.1⟩

theorem witness_DelegationsComposeReadAndCodec :
    Answers .vRawId world [.word 0x123] ∧ Answers .vId world [.word 0x123] ∧ Answers .idNumeric (world.withRaw 0x123) [.word 0x123] :=
  ⟨⟨_, rfl, by decide⟩, ⟨_, rfl, by decide⟩, ⟨_, rfl, by decide⟩⟩

theorem witness_ViewOperationsChangeNothing :
    Instr.vRegion ∈ viewOps ∧ (∃ t, exec .vRegion world = .next t ∧ t.status = 0) ∧ (∃ t, exec .equals world = .next t ∧ t.status = 0) ∧
    (∃ t, exec .vDlen (world.withView ⟨0, 0, 16, 9⟩) = .next t ∧ t.status = 7) :=
  ⟨by decide, ⟨_, rfl, by decide⟩, ⟨_, rfl, by decide⟩, ⟨_, rfl, by decide⟩⟩

/-- Another state with the region's bytes: the destination storage and the data before `t32`'s frame differ. -/
def elsewhere : State := { world with storages := (storages.set 1 (.ofBytes 3 [])).set 2 (.ofBytes 32 ([0x01, 0x02, 0x03, 0x04, 0x05] ++ f1)) }

theorem witness_ViewsReadOnlyTheirOwnRegion :
    Instr.vRawId ∈ viewOps ∧ Instr.vIsFd ∈ viewOps ∧ world.LiveInv ∧ elsewhere.LiveInv ∧ elsewhere.params = world.params ∧
    elsewhere.ports.view = world.ports.view ∧ world.ports.view ∈ world.live ∧ world.ports.view ∈ elsewhere.live ∧
    (∀ k < world.ports.view.size, elsewhere.byteAt world.ports.view.storage (world.ports.view.base + k) =
      world.byteAt world.ports.view.storage (world.ports.view.base + k)) ∧ elsewhere ≠ world := by decide

/-- A copy that runs, one whose destination is out of range, one into a live region, and one of a broken span. -/
theorem witness_CopiesClipCheckAndCopy :
    Instr.vCopyBuf ∈ copyOps ∧ Instr.vCopyArr ∈ copyOps ∧ world.LiveInv ∧ world.MemWf ∧ v1 ∈ world.live ∧ 1 < world.storages.length ∧
    code .vCopyBuf (world.withCopy 1 5 3) = some 0 ∧ code .vCopyArr (world.withCopy 1 8 0) = some 0 ∧
    code .vCopyArr (world.withCopy 1 9 0) = some 5 ∧ code .vCopyArr (world.withCopy 2 3 3) = some 6 ∧
    broken.LiveInv ∧ broken.MemWf ∧ code .vCopyArr broken = some 6 := by decide

theorem witness_CopiesChangeOnlyTheDestination :
    Instr.vCopyArr ∈ copyOps ∧ ∃ t, exec .vCopyArr (world.withCopy 1 2 3) = .next t ∧ t.byteAt 1 2 = some 0x11 ∧
      world.byteAt world.ports.view.storage (world.ports.view.base + 4) = some 3 :=
  ⟨by decide, _, rfl, by decide, by decide⟩

/-- Regions of 16 and 72 bytes at the boundary lengths, an illegal length, and ill-formed regions. -/
theorem witness_DecodeChecksInOrder :
    (∀ s ∈ [z80 0 16 8 0, z80 0 16 9 0, z80 0 16 64 0, z80 0 16 65 0, z80 0 72 64 0, z80 0 72 65 0, z80 0 15 0 0, z80 0 80 0 0],
      s.ports.s < s.storages.length ∧ s.ports.base ≤ s.ports.limit ∧ s.ports.limit ≤ s.cap s.ports.s) ∧
    (∀ s ∈ [z80 0 81 0 0, z80 10 5 0 0],
      ¬ (s.ports.s < s.storages.length ∧ s.ports.base ≤ s.ports.limit ∧ s.ports.limit ≤ s.cap s.ports.s)) ∧
    (z80 8 80 0 0).TagsRise := by decide

theorem witness_DecodeVerdictsBySizeAndLength :
    (∀ s ∈ [z80 0 16 9 0, z80 0 72 9 0], s.ports.s < s.storages.length ∧ s.ports.base ≤ s.ports.limit ∧
      s.ports.limit ≤ s.cap s.ports.s ∧ s.byteAt s.ports.s (s.ports.base + 4) = some 9) ∧
    (z80 8 80 255 0).byteAt 4 12 = some 255 := by decide

/-- Every branch of ENCODE's checks, at its boundary. -/
theorem witness_EncodeChecksAndBuildsTheFrame :
    world.LiveInv ∧ State.reset.storages.length ≤ State.reset.ports.src ∧ code .encode (source 71 0) = some 4 ∧
    code .encode (source 5 65) = some 2 ∧ code .encode (source 6 64) = some 0 ∧ code .encode (source 0 0) = some 0 := by decide

theorem witness_ConstructionChangesNoOldByte :
    (∃ t, exec .decode world = .next t ∧ t.status = 0) ∧ (∃ t, exec .encode world = .next t ∧ t.status = 0) :=
  ⟨⟨_, rfl, by decide⟩, ⟨_, rfl, by decide⟩⟩

/-- The premises, and a destination for the copy back. -/
theorem witness_EncodeThenReadGivesBackTheFrame :
    world.ports.src < world.storages.length ∧ world.ports.offset + world.ports.length ≤ world.cap world.ports.src ∧
    world.ports.length ≤ 64 ∧ world.LiveInv ∧ world.TagsRise ∧ world.MemWf ∧ 1 < world.storages.length ∧ world.ports.length ≤ 64 ∧
    5 + world.ports.length ≤ world.cap 1 ∧ world.meetsLive 1 5 world.ports.length = false := by decide

/-- The fourth law's other state: one byte of the frame `v1` flipped, its padding. -/
def flipped : State := { world with storages := storages.set 0 (.ofBytes 16 (f1.set 6 0x01)) }

theorem witness_EqualityLaws :
    world.LiveInv ∧ v1 ∈ world.live ∧ vt ∈ world.live ∧ Answers .equals (world.withViews v1 vt) [.bool true] ∧
    Answers .equals (world.withViews v1 ve) [.bool false] ∧ flipped.LiveInv ∧ flipped.live = world.live ∧
    flipped.byteAt 0 6 ≠ world.byteAt 0 6 ∧ Answers .equals (flipped.withViews v1 vt) [.bool false] :=
  ⟨by decide, by decide, by decide, ⟨_, rfl, by decide⟩, ⟨_, rfl, by decide⟩, by decide, by decide, by decide, ⟨_, rfl, by decide⟩⟩

theorem witness_HashIsAFunctionOfTheSpan :
    world.LiveInv ∧ world.ports.view ∈ world.live ∧ Answers .equals world [.bool true] :=
  ⟨by decide, by decide, _, rfl, by decide⟩

/-- A frame that is not FD-classified and one that is. -/
theorem witness_RenderObeysItsLaw :
    world.LiveInv ∧ world.ports.view ∈ world.live ∧ Answers .vIsFd world [.bool false] ∧ Answers .vIsFd (world.withView ve) [.bool true] :=
  ⟨by decide, by decide, ⟨_, rfl, by decide⟩, ⟨_, rfl, by decide⟩⟩

theorem reads_lit (s : State) (v : Value) : s.Reads (lit v) v := .inl rfl
theorem reads_nat (s : State) (n : Nat) : s.ReadsNumber (lit (.nat n)) n := ⟨_, .inl rfl, .inl rfl⟩
theorem reads_word (s : State) (w : Word) : s.ReadsNumber (lit (.word w)) w.toNat := ⟨_, .inl rfl, .inr (.inl ⟨w, rfl, rfl⟩)⟩

/-- A world whose slots hold a number, a descriptor, a byte list and a failed operation's status; slot 9 is unset. -/
def slotted (program : List Statement) : State :=
  { running program with slots := [(0, .nat 2), (1, .view v1), (2, .bytes [0x01, 0x02]), (3, .failed 1)] }

theorem slotted_reads :
    (slotted []).ReadsNumber (.slot 0) 2 ∧ (slotted []).Reads (.slot 1) (.view v1) ∧
    (slotted []).Reads (.slot 2) (.bytes [0x01, 0x02]) ∧ (slotted []).Unreadable 3 ∧ (slotted []).Unreadable 9 :=
  ⟨⟨_, .inr ⟨0, rfl, rfl, nofun⟩, .inl rfl⟩, .inr ⟨1, rfl, rfl, nofun⟩, .inr ⟨2, rfl, rfl, nofun⟩, .inr ⟨1, rfl⟩, .inl rfl⟩

/-- Operands written out and operands named by slots. -/
theorem witness_SupplyAddsAStorage :
    (slotted [.supply (some 0) (lit (.nat 2)) (.slot 2)]).Clean ∧
    (slotted [.supply (some 0) (lit (.nat 2)) (.slot 2)]).fetch = some (.supply (some 0) (lit (.nat 2)) (.slot 2)) ∧
    (slotted []).ReadsNumber (lit (.nat 2)) 2 ∧ (slotted []).ReadsNumber (.slot 0) 2 ∧
    (slotted []).Reads (.slot 2) (.bytes [0x01, 0x02]) ∧ ([0x01, 0x02] : List Byte).length = 2 :=
  ⟨by decide, by decide, reads_nat _ 2, slotted_reads.1, slotted_reads.2.2.1, rfl⟩

/-- A read that ends at the storage's last byte. -/
theorem witness_HostReadHasNoEffect :
    (running [.hostRead (some 0) (lit (.storage 0)) (lit (.nat 0)) (lit (.nat 16))]).Clean ∧
    (running [.hostRead (some 0) (lit (.storage 0)) (lit (.nat 0)) (lit (.nat 16))]).fetch =
      some (.hostRead (some 0) (lit (.storage 0)) (lit (.nat 0)) (lit (.nat 16))) ∧
    world.Reads (lit (.storage 0)) (.storage 0) ∧ 0 < world.storages.length ∧ world.ReadsNumber (lit (.nat 0)) 0 ∧
    world.ReadsNumber (lit (.nat 16)) 16 ∧ 0 + 16 ≤ world.cap 0 :=
  ⟨by decide, by decide, reads_lit _ _, by decide, reads_nat _ 0, reads_nat _ 16, by decide⟩

/-- Writes that end just before a live region and that meet its last byte (95_test_vectors.md 2.9). -/
theorem witness_HostWriteWritesAndReportsViolations :
    (running [.hostWrite (lit (.storage 2)) (lit (.nat 4)) (byteList [0xFF])]).Clean ∧
    (running [.hostWrite (lit (.storage 2)) (lit (.nat 4)) (byteList [0xFF])]).MemWf ∧
    (running [.hostWrite (lit (.storage 2)) (lit (.nat 4)) (byteList [0xFF])]).LiveInv ∧
    (running [.hostWrite (lit (.storage 2)) (lit (.nat 4)) (byteList [0xFF])]).fetch =
      some (.hostWrite (lit (.storage 2)) (lit (.nat 4)) (byteList [0xFF])) ∧
    world.Reads (lit (.storage 2)) (.storage 2) ∧ 2 < world.storages.length ∧ world.ReadsNumber (lit (.nat 4)) 4 ∧
    world.Reads (byteList [0xFF]) (.bytes [0xFF]) ∧ 4 + 1 ≤ world.cap 2 ∧
    world.meetsLive 2 4 1 = false ∧ world.meetsLive 2 5 1 = true ∧ world.meetsLive 2 20 1 = true ∧ world.meetsLive 2 21 1 = false :=
  ⟨by decide, by decide, by decide, by decide, reads_lit _ _, by decide, reads_nat _ 4, reads_lit _ _, by decide, by decide, by decide,
   by decide, by decide⟩

theorem witness_DropEndsOneLifetime :
    (slotted [.drop (.slot 1)]).Clean ∧ (slotted [.drop (.slot 1)]).fetch = some (.drop (.slot 1)) ∧
    (slotted []).Reads (.slot 1) (.view v1) ∧ v1 ∈ (slotted []).live :=
  ⟨by decide, by decide, slotted_reads.2.1, by decide⟩

/-- Accesses one byte past the capacity, and of no byte at an address past it. -/
theorem witness_HostAccessPastTheCapacityIsOutOfContract :
    (running [.hostRead none (lit (.storage 0)) (lit (.nat 8)) (lit (.nat 9))]).Clean ∧
    (running [.hostRead none (lit (.storage 0)) (lit (.nat 8)) (lit (.nat 9))]).fetch =
      some (.hostRead none (lit (.storage 0)) (lit (.nat 8)) (lit (.nat 9))) ∧
    (running [.hostWrite (lit (.storage 0)) (lit (.nat 16)) (byteList [0xFF])]).fetch =
      some (.hostWrite (lit (.storage 0)) (lit (.nat 16)) (byteList [0xFF])) ∧
    world.Reads (lit (.storage 0)) (.storage 0) ∧ 0 < world.storages.length ∧ world.ReadsNumber (lit (.nat 8)) 8 ∧
    world.ReadsNumber (lit (.nat 9)) 9 ∧ world.cap 0 < 8 + 9 ∧ world.ReadsNumber (lit (.nat 16)) 16 ∧
    world.Reads (byteList [0xFF]) (.bytes [0xFF]) ∧ world.cap 0 < 16 + 1 ∧ world.cap 0 < 17 + 0 :=
  ⟨by decide, by decide, by decide, reads_lit _ _, by decide, reads_nat _ 8, reads_nat _ 9, by decide, reads_nat _ 16, reads_lit _ _,
   by decide, by decide⟩

/-- One issue per format; the V issue names a slot and presents a port that its format does not name. -/
def issues : List Statement :=
  [.issue [] 0x01 [(.raw, lit (.word 0xFFFFFFFF))],
   .issue [] 0x06 [(.packValue, lit (.nat 0xFFFFFFFF)), (.packExt, lit (.nat 1)), (.packRtr, lit (.nat 0)), (.packErr, lit (.nat 1))],
   .issue [] 0x13 [(.view, .slot 1), (.limit, .slot 9)],
   .issue [] 0x1B [(.view, .slot 1), (.dst, lit (.storage 1)), (.dpos, lit (.nat 5)), (.dcap, .slot 0)],
   .issue [] 0x30 [(.view2, lit (.view vt)), (.view, .slot 1)],
   .issue [] 0x20 [(.limit, lit (.nat 16)), (.s, lit (.storage 0)), (.base, lit (.nat 0))],
   .issue [] 0x21 encodeArgs]

/-- The operands of an issue. -/
def argsOf : Statement → List (Port × Operand)
  | .issue _ _ args => args
  | .supply _ _ _ => []
  | .hostRead _ _ _ _ => []
  | .hostWrite _ _ _ => []
  | .drop _ => []

theorem witness_OperandsStandOnTheirPorts :
    (∀ st ∈ issues, (slotted [st]).Clean ∧ (slotted [st]).fetch = some st ∧ Statement.WellFormed st = true) ∧
    (∀ st ∈ issues, ∀ port ∈ allPorts, ¬ PresentedTwice (argsOf st) port) ∧
    decoded [0x01] = some .idNumeric ∧ decoded [0x06] = some .idPack ∧ decoded [0x13] = some .vDlen ∧
    decoded [0x1B] = some .vCopyBuf ∧ decoded [0x30] = some .equals ∧ decoded [0x20] = some .decode ∧ decoded [0x21] = some .encode ∧
    formatOf .idNumeric = .K ∧ formatOf .idPack = .P ∧ formatOf .vDlen = .V ∧ formatOf .vCopyBuf = .VC ∧ formatOf .equals = .VV ∧
    formatOf .decode = .D ∧ formatOf .encode = .E := by decide

/-- The values that those operands read. -/
theorem witness_OperandsStandOnTheirPorts_values :
    (slotted []).ReadsNumber (lit (.word 0xFFFFFFFF)) (0xFFFFFFFF : Word).toNat ∧
    (slotted []).ReadsNumber (lit (.nat 0xFFFFFFFF)) (0xFFFFFFFF : Word).toNat ∧ (slotted []).ReadsNumber (lit (.nat 1)) true.toNat ∧
    (slotted []).ReadsNumber (lit (.nat 0)) false.toNat ∧ (slotted []).Reads (.slot 1) (.view v1) ∧
    (slotted []).Reads (lit (.storage 1)) (.storage 1) ∧ (slotted []).ReadsNumber (lit (.nat 5)) 5 ∧
    (slotted []).ReadsNumber (.slot 0) 2 ∧ (slotted []).Reads (lit (.view vt)) (.view vt) ∧
    (slotted []).ReadsNumber (lit (.word 0x123)) (0x123 : Word).toNat ∧
    (slotted []).ReadsNumber (lit (.byte 0)) (0 : Byte).toNat :=
  ⟨reads_word _ _, reads_nat _ _, reads_nat _ 1, reads_nat _ 0, slotted_reads.2.1, reads_lit _ _, reads_nat _ 5, slotted_reads.1,
   reads_lit _ _, reads_word _ _, ⟨_, .inl rfl, .inr (.inr (.inl ⟨0, rfl, rfl⟩))⟩⟩

/-- A number that is one too large for `raw`, a second view that is none, and a port presented twice. -/
theorem witness_OperandsThatDoNotFitTheirPortsAreRefused :
    (running [.issue [] 0x01 [(.raw, lit (.nat (2 ^ 32)))]]).Clean ∧
    (running [.issue [] 0x01 [(.raw, lit (.nat (2 ^ 32)))]]).fetch = some (.issue [] 0x01 [(.raw, lit (.nat (2 ^ 32)))]) ∧
    Statement.WellFormed (.issue [] 0x01 [(.raw, lit (.nat (2 ^ 32)))]) = true ∧
    world.Reads (lit (.nat (2 ^ 32))) (.nat (2 ^ 32)) ∧ Unfit .raw (.nat (2 ^ 32)) ∧ ¬ Unfit .raw (.nat (2 ^ 32 - 1)) ∧
    Statement.WellFormed (.issue [] 0x30 [(.view, lit (.view v1)), (.view2, lit (.nat 0))]) = true ∧
    Unfit .view2 (.nat 0) ∧ Unfit .base (.storage 0) ∧ Unfit .src (.nat 0) ∧ Unfit .flags (.nat 256) ∧ ¬ Unfit .flags (.nat 255) ∧
    Unfit .packExt (.nat 2) ∧ ¬ Unfit .packExt (.byte 1) ∧
    Statement.WellFormed (.issue [] 0x13 [(.view, lit (.view v1)), (.view, lit (.view vt))]) = true ∧
    PresentedTwice [(.view, lit (.view v1)), (.view, lit (.view vt))] .view := by
  refine ⟨rfl, rfl, by decide, reads_lit _ _, ?_, fun h => ?_, by decide, ?_, ?_, ?_, ?_, fun h => ?_, ?_, fun h => ?_, by decide, by decide⟩
  · simp [Unfit, IsNumber]
  · exact absurd (h (2 ^ 32 - 1) (.inl rfl)) (by decide)
  · simp [Unfit]
  · simp [Unfit, IsNumber]
  · simp [Unfit]
  · simp [Unfit, IsNumber]
  · exact absurd (h 255 (.inl rfl)) (by decide)
  · simp [Unfit, IsNumber]
  · exact absurd (h 1 (.inr (.inr (.inl ⟨1, rfl, rfl⟩)))) (by decide)

/-- A slot with a failed operation's status and an unset one, in an issue and in each host action. -/
theorem witness_FailedAndUnsetSlotsAreNotRead :
    (slotted []).Unreadable 3 ∧ (slotted []).Unreadable 9 ∧
    (∀ st ∈ [Statement.issue [] 0x13 [(.view, .slot 3)], .supply none (.slot 3) (.slot 2), .supply none (.slot 0) (.slot 3),
        .hostRead none (.slot 3) (.slot 0) (.slot 0), .hostWrite (lit (.storage 1)) (.slot 3) (.slot 2), .drop (.slot 9)],
      (slotted [st]).Clean ∧ (slotted [st]).fetch = some st) ∧
    Port.view ∈ portsOf (formatOf .vDlen) :=
  ⟨slotted_reads.2.2.2.1, slotted_reads.2.2.2.2, by decide, by decide⟩

end Sys2Proof.Tests
end

section
/-! PROOFS. The family of 00_scope.md: the interface stays consistent (R12, R200, R211), and a host access past a capacity is the
model fault of R11. -/

namespace Sys2Proof.Machine

/-! ### What a consistent interface depends on -/

/-- The output ports of `t` are those of `s`, and the fault mark has lost no event: what a host action and the end of a statement
do to the interface. -/
structure State.KeepsInterface (s t : State) : Prop where
  status : t.status = s.status
  result : t.result = s.result
  info : t.info = s.info
  fault : s.fault ⊆ t.fault

/-- The fault mark may grow under a consistent interface: it is only asked to hold the returned model fault. -/
theorem State.KeepsInterface.interfaceOk {s t : State} (hk : s.KeepsInterface t) (hs : s.interfaceOk = true) :
    t.interfaceOk = true := by
  obtain ⟨hstatus, hresult, hinfo, hfault⟩ := hk
  unfold State.interfaceOk at hs ⊢
  rw [hinfo, hstatus, hresult]
  cases hf : s.info with
  | none => simpa [hf] using hs
  | some f =>
    cases f with
    | error e => simpa [hf] using hs
    | fault e =>
      simp only [hf, Bool.and_eq_true, decide_eq_true_eq] at hs ⊢
      exact ⟨hs.1, hfault hs.2⟩

/-- An OK leaves a consistent interface behind, whatever stood there before (R12). -/
theorem State.answer_interfaceOk (s : State) (parts : List Value) : (s.answer parts).interfaceOk = true := by
  simp [State.interfaceOk]

/-- A failure leaves a consistent interface behind, whatever stood there before (R200, R211). -/
theorem State.raise_interfaceOk (s : State) (f : Failure) : (s.raise f).interfaceOk = true := by
  cases f <;> simp [State.interfaceOk, Failure.code]

/-- An issue refused before its operation begins leaves a consistent interface behind (R82, R83). -/
theorem refuseIssue_interfaceOk (dests : List Nat) (code : Byte) (e : FaultEvent) (s : State) :
    (refuseIssue dests code e s).interfaceOk = true := by
  simp [State.interfaceOk]

/-- Every operation ends in an answer or a failure, so its interface is consistent from any state. -/
theorem exec_interfaceOk {i : Instr} {s t : State} (h : exec i s = .next t) : t.interfaceOk = true := by
  cases exec_effect h with
  | answered _ parts => exact State.answer_interfaceOk _ _
  | failed _ f => exact State.raise_interfaceOk _ _
  | copied _ hi bytes st hs hr hm => exact State.answer_interfaceOk _ _
  | decoded v hr hv => exact State.answer_interfaceOk _ _
  | encoded payload v hp hv => exact State.answer_interfaceOk _ _

/-! ### What keeps the interface -/

theorem State.retire_keepsInterface (s : State) (dests : List Nat) : s.KeepsInterface (s.retire dests) := by
  constructor <;> simp

theorem State.give_keepsInterface (s : State) (dest : Option Nat) (v : Value) : s.KeepsInterface (s.give dest v) := by
  constructor <;> simp

theorem hostSupply_keepsInterface (dest : Option Nat) (cap : Nat) (bytes : List Byte) (s : State) :
    s.KeepsInterface (hostSupply dest cap bytes s) := by
  constructor <;> simp [hostSupply]

theorem hostDrop_keepsInterface (v : View) (s : State) : s.KeepsInterface (hostDrop v s) := by
  constructor <;> simp [hostDrop]

theorem State.record_advance_keepsInterface (s : State) (e : FaultEvent) : s.KeepsInterface (s.record e).advance := by
  constructor <;> simp

theorem hostRead_keepsInterface (dest : Option Nat) (h a n : Nat) (s : State) :
    s.KeepsInterface (hostRead dest h a n s) := by
  rcases hostRead_cases dest h a n s with ⟨l, -, he⟩ | he <;> rw [he]
  · exact s.give_keepsInterface dest _
  · exact s.record_advance_keepsInterface _

theorem hostWrite_keepsInterface (h a : Nat) (bytes : List Byte) (s : State) :
    s.KeepsInterface (hostWrite h a bytes s) := by
  rcases hostWrite_cases h a bytes s with ⟨st, -, -, ⟨-, he⟩ | ⟨-, he⟩⟩ | he <;> rw [he]
  · constructor <;> simp
  · constructor <;> simp
  · exact s.record_advance_keepsInterface _

/-- Settles O13, by the inversion of the step: an issue ends in an answer or a failure, a host action keeps the output ports and
clears nothing of the fault mark. -/
theorem stepKeepsTheInterfaceConsistent : Obligations.StepKeepsTheInterfaceConsistent := by
  unfold Obligations.StepKeepsTheInterfaceConsistent
  intro s t hs h
  cases step_effect h with
  | idle hf => exact hs
  | turnedAway dests code args e hf he hw => exact refuseIssue_interfaceOk dests code e s
  | ran dests code args i values ports u hf hd hw hr hl he =>
    exact (u.retire_keepsInterface dests).interfaceOk (exec_interfaceOk he)
  | supplied dest co bo cap bytes hf hlen => exact (hostSupply_keepsInterface dest cap bytes s).interfaceOk hs
  | read dest so ao no g a n hf hh => exact (hostRead_keepsInterface dest g a n s).interfaceOk hs
  | wrote so ao bo bytes g a hf hh => exact (hostWrite_keepsInterface g a bytes s).interfaceOk hs
  | dropped vo v hf hv => exact (hostDrop_keepsInterface v s).interfaceOk hs

/-! ### Host accesses past a capacity -/

/-- A primitive used past a capacity is the model fault of R11. -/
theorem State.withRoom_of_cap_lt {α : Type} {s : State} {h a n : Nat} (f : Storage → α) (hc : s.cap h < a + n) :
    s.withRoom h a n f = .error (.fault (.outsideStorage h a)) := by
  rcases s.withRoom_cases h a n f with ⟨st, hst, hr, -⟩ | he
  · rw [State.cap_eq hst] at hc
    omega
  · exact he

/-- Where an event is the first, recording it stops the run at its statement and changes nothing else (R90). -/
theorem State.Clean.record_advance {s : State} (hs : s.Clean) (e : FaultEvent) :
    (s.record e).advance = { s with fault := [e] } := by
  have hf : s.fault = [] := hs
  simp [State.record, State.advance, hf]

theorem hostRead_of_cap_lt {s : State} {h a n : Nat} (dest : Option Nat) (hs : s.Clean) (hc : s.cap h < a + n) :
    hostRead dest h a n s = { s with fault := [.outsideStorage h a] } := by
  rw [hostRead, State.memRead, State.withRoom_of_cap_lt _ hc]
  exact hs.record_advance _

theorem hostWrite_of_cap_lt {s : State} {h a : Nat} {bytes : List Byte} (hs : s.Clean) (hc : s.cap h < a + bytes.length) :
    hostWrite h a bytes s = { s with fault := [.outsideStorage h a] } := by
  rw [hostWrite, State.memWrite, State.withRoom_of_cap_lt _ hc]
  exact hs.record_advance _

/-- The step at a HOST_READ whose operands are read. -/
theorem step_hostRead {s : State} {dest : Option Nat} {so ao no : Operand} {h a n : Nat} (hs : s.Clean)
    (hf : s.fetch = some (.hostRead dest so ao no)) (hso : s.Reads so (.storage h)) (hh : h < s.storages.length)
    (hao : s.ReadsNumber ao a) (hno : s.ReadsNumber no n) : step s = .next (hostRead dest h a n s) := by
  rw [step_of_fetch hs hf rfl]
  simp [runForm, State.actionHandle_of_reads hso hh, State.actionNumber_of_reads hao, State.actionNumber_of_reads hno]

/-- The step at a HOST_WRITE whose operands are read. -/
theorem step_hostWrite {s : State} {so ao bo : Operand} {bytes : List Byte} {h a : Nat} (hs : s.Clean)
    (hf : s.fetch = some (.hostWrite so ao bo)) (hso : s.Reads so (.storage h)) (hh : h < s.storages.length)
    (hao : s.ReadsNumber ao a) (hbo : s.Reads bo (.bytes bytes)) : step s = .next (hostWrite h a bytes s) := by
  rw [step_of_fetch hs hf rfl]
  simp [runForm, State.actionHandle_of_reads hso hh, State.actionNumber_of_reads hao, State.actionBytes_of_reads hbo]

/-- Settles O53: the step is the host action, whose memory primitive fails past the capacity (R11), and its event is the first. -/
theorem hostAccessPastTheCapacityIsOutOfContract : Obligations.HostAccessPastTheCapacityIsOutOfContract := by
  unfold Obligations.HostAccessPastTheCapacityIsOutOfContract
  constructor
  · intro s dest so ao no h a n hs hf hso hh hao hno hc
    rw [step_hostRead hs hf hso hh hao hno, hostRead_of_cap_lt dest hs hc]
  · intro s so ao bo bytes h a hs hf hso hh hao hbo hc
    rw [step_hostWrite hs hf hso hh hao hbo, hostWrite_of_cap_lt hs hc]

end Sys2Proof.Machine
end

section
/-! PROOFS. The family of 10_state.md: what every step keeps of the parameters, the storages, the live descriptors and the fault mark
(R22 to R26, R30), the frames of the payload copies and of the constructions, and the ports of a step (R32). -/

namespace Sys2Proof.Machine

/-! ### What the host actions do to each field -/

@[simp] theorem hostSupply_params (dest : Option Nat) (cap : Nat) (bytes : List Byte) (s : State) :
    (hostSupply dest cap bytes s).params = s.params := by simp [hostSupply]
@[simp] theorem hostSupply_storages (dest : Option Nat) (cap : Nat) (bytes : List Byte) (s : State) :
    (hostSupply dest cap bytes s).storages = s.storages ++ [Storage.ofBytes cap bytes] := by simp [hostSupply]
@[simp] theorem hostSupply_live (dest : Option Nat) (cap : Nat) (bytes : List Byte) (s : State) :
    (hostSupply dest cap bytes s).live = s.live := by simp [hostSupply]
@[simp] theorem hostSupply_nextTag (dest : Option Nat) (cap : Nat) (bytes : List Byte) (s : State) :
    (hostSupply dest cap bytes s).nextTag = s.nextTag := by simp [hostSupply]

@[simp] theorem hostRead_params (dest : Option Nat) (h a n : Nat) (s : State) : (hostRead dest h a n s).params = s.params := by
  rcases hostRead_cases dest h a n s with ⟨l, -, he⟩ | he <;> simp [he]
@[simp] theorem hostRead_storages (dest : Option Nat) (h a n : Nat) (s : State) :
    (hostRead dest h a n s).storages = s.storages := by
  rcases hostRead_cases dest h a n s with ⟨l, -, he⟩ | he <;> simp [he]
@[simp] theorem hostRead_live (dest : Option Nat) (h a n : Nat) (s : State) : (hostRead dest h a n s).live = s.live := by
  rcases hostRead_cases dest h a n s with ⟨l, -, he⟩ | he <;> simp [he]
@[simp] theorem hostRead_nextTag (dest : Option Nat) (h a n : Nat) (s : State) :
    (hostRead dest h a n s).nextTag = s.nextTag := by
  rcases hostRead_cases dest h a n s with ⟨l, -, he⟩ | he <;> simp [he]

@[simp] theorem hostWrite_params (h a : Nat) (bytes : List Byte) (s : State) : (hostWrite h a bytes s).params = s.params := by
  rcases hostWrite_cases h a bytes s with ⟨st, -, -, ⟨-, he⟩ | ⟨-, he⟩⟩ | he <;> simp [he]
@[simp] theorem hostWrite_live (h a : Nat) (bytes : List Byte) (s : State) : (hostWrite h a bytes s).live = s.live := by
  rcases hostWrite_cases h a bytes s with ⟨st, -, -, ⟨-, he⟩ | ⟨-, he⟩⟩ | he <;> simp [he]
@[simp] theorem hostWrite_nextTag (h a : Nat) (bytes : List Byte) (s : State) :
    (hostWrite h a bytes s).nextTag = s.nextTag := by
  rcases hostWrite_cases h a bytes s with ⟨st, -, -, ⟨-, he⟩ | ⟨-, he⟩⟩ | he <;> simp [he]
@[simp] theorem hostWrite_storages_length (h a : Nat) (bytes : List Byte) (s : State) :
    (hostWrite h a bytes s).storages.length = s.storages.length := by
  rcases hostWrite_cases h a bytes s with ⟨st, -, -, ⟨-, he⟩ | ⟨-, he⟩⟩ | he <;> simp [he]
@[simp] theorem hostWrite_cap (h a : Nat) (bytes : List Byte) (s : State) (k : Nat) :
    (hostWrite h a bytes s).cap k = s.cap k := by
  rcases hostWrite_cases h a bytes s with ⟨st, hs, -, ⟨-, he⟩ | ⟨-, he⟩⟩ | he
  · simp [he, State.setStorage_cap hs]
  · simp [he, State.setStorage_cap hs]
  · simp [he]

@[simp] theorem hostDrop_params (v : View) (s : State) : (hostDrop v s).params = s.params := by simp [hostDrop]
@[simp] theorem hostDrop_storages (v : View) (s : State) : (hostDrop v s).storages = s.storages := by simp [hostDrop]
@[simp] theorem hostDrop_live (v : View) (s : State) :
    (hostDrop v s).live = s.live.filter (fun w => decide (w ≠ v)) := by simp [hostDrop]
@[simp] theorem hostDrop_nextTag (v : View) (s : State) : (hostDrop v s).nextTag = s.nextTag := by simp [hostDrop]

/-! ### Reads of equal storages -/

theorem State.cap_congr {s t : State} (h : t.storages = s.storages) (k : Nat) : t.cap k = s.cap k := by
  simp [State.cap, h]

theorem State.byteAt_congr {s t : State} (h : t.storages = s.storages) (k x : Nat) : t.byteAt k x = s.byteAt k x := by
  simp [State.byteAt, h]

/-- A failure clears nothing of the fault mark (R30). -/
theorem State.fault_subset_raise (s : State) (f : Failure) : s.fault ⊆ (s.raise f).fault := by
  cases f <;> simp

/-! ### The invariants of live descriptors -/

/-- What keeps the invariants of R25: no descriptor is made live, the fault mark has lost no event, and the storages of the live
descriptors have their capacity and, while no fault is recorded, the bytes of every live region. -/
structure State.KeepsRegions (s t : State) : Prop where
  live : t.live ⊆ s.live
  fault : s.fault ⊆ t.fault
  cap : ∀ v ∈ s.live, t.cap v.storage = s.cap v.storage
  bytes : t.Clean → ∀ v ∈ s.live, ∀ k < v.size, t.byteAt v.storage (v.base + k) = s.byteAt v.storage (v.base + k)

theorem State.KeepsRegions.clean {s t : State} (hk : s.KeepsRegions t) (ht : t.Clean) : s.Clean := by
  have hsub := hk.fault
  rw [show t.fault = [] from ht] at hsub
  exact List.eq_nil_of_subset_nil hsub

theorem State.KeepsRegions.liveInv {s t : State} (hk : s.KeepsRegions t) (hs : s.LiveInv) : t.LiveInv := by
  constructor
  · intro v hv
    exact (hs.fits (hk.live hv)).congr (hk.cap v (hk.live hv))
  · intro ht v hv
    have hv' := hk.live hv
    rw [State.spanOk_congr (hs.fits hv') (hk.bytes ht v hv')]
    exact hs.2 (hk.clean ht) v hv'

/-- Where no storage is touched, every region is kept. -/
theorem State.KeepsRegions.of_storages {s t : State} (hlive : t.live ⊆ s.live) (hfault : s.fault ⊆ t.fault)
    (hst : t.storages = s.storages) : s.KeepsRegions t where
  live := hlive
  fault := hfault
  cap _ _ := State.cap_congr hst _
  bytes _ _ _ _ _ := State.byteAt_congr hst _ _

/-- A write that meets no live region keeps them all (R49). -/
theorem State.keepsRegions_write {s : State} {h a : Nat} {st : Storage} {l : List Byte} (hs : s.storages[h]? = some st)
    (hm : s.meetsLive h a l.length = false) : s.KeepsRegions (s.setStorage h ⟨st.cap, st.mem.writeBytes a l⟩) where
  live := by simp
  fault := by simp
  cap v _ := State.setStorage_cap hs _ _
  bytes _ v hv k hk :=
    State.write_byteAt_of_outside hs a l (State.outside_of_not_meetsLive hm hv (by omega) (by omega))

/-- A new storage keeps every region: the live descriptors' storages were there before. -/
theorem State.LiveInv.keepsRegions_addStorage {s : State} (hs : s.LiveInv) (st : Storage) : s.KeepsRegions (s.addStorage st) where
  live := by simp
  fault := by simp
  cap v hv := s.addStorage_cap_of_ne st (hs.fits hv).lt_length.ne
  bytes _ v hv _ _ := s.addStorage_byteAt_of_ne st (hs.fits hv).lt_length.ne _

theorem hostWrite_keepsRegions (h a : Nat) (bytes : List Byte) (s : State) : s.KeepsRegions (hostWrite h a bytes s) := by
  rcases hostWrite_cases h a bytes s with ⟨st, hs, -, ⟨-, he⟩ | ⟨hm, he⟩⟩ | he <;> rw [he]
  · refine ⟨by simp, by simp, fun v _ => by simp [State.setStorage_cap hs], fun hc => ?_⟩
    simp [State.Clean] at hc
  · obtain ⟨-, -, hcap, hbytes⟩ := State.keepsRegions_write hs hm
    exact ⟨by simp, by simp, by simpa using hcap, by simpa [State.Clean] using hbytes⟩
  · exact .of_storages (by simp) (by simp) (by simp)

/-- A descriptor that passed VALIDATE on a region inside its storage meets the invariants (R151, R155). -/
theorem State.validate_valid {s : State} {h base limit : Nat} {v : View} (hv : s.validate h base limit = .ok v)
    (hle : limit ≤ s.cap h) : v.Fits s ∧ s.spanOk v = true := by
  obtain ⟨rfl, hsize, dlen, flags, hd, hf, hmax, hend⟩ := State.validate_ok hv
  refine ⟨⟨by simpa using hsize, ?_⟩, (State.spanOk_iff hd hf).mpr ⟨hmax, ?_⟩⟩ <;> dsimp only <;> omega

/-- A descriptor that meets the invariants may be made live. -/
theorem State.LiveInv.addLive {s : State} (hs : s.LiveInv) {v : View} (hv : v.Fits s ∧ s.spanOk v = true) :
    (s.addLive v).LiveInv := by
  constructor
  · intro w hw
    rcases List.mem_append.mp hw with hw | hw
    · exact hs.1 w hw
    · obtain rfl := List.mem_singleton.mp hw
      exact hv.1
  · intro hc w hw
    rcases List.mem_append.mp hw with hw | hw
    · exact hs.2 hc w hw
    · obtain rfl := List.mem_singleton.mp hw
      exact hv.2

theorem State.regionOk_iff (s : State) (h base limit : Nat) :
    s.regionOk h base limit = true ↔ h < s.storages.length ∧ base ≤ limit ∧ limit ≤ s.cap h := by
  simp [State.regionOk, and_assoc]

theorem State.LiveInv.answer {s : State} (hs : s.LiveInv) (parts : List Value) : (s.answer parts).LiveInv :=
  (State.KeepsRegions.of_storages (by simp) (by simp) (by simp)).liveInv hs

/-- Every operation keeps the invariants of R25: a payload copy writes outside every live region (R140), and a construction ends in
VALIDATE (R151). -/
theorem exec_liveInv {i : Instr} {s t : State} (hs : s.LiveInv) (h : exec i s = .next t) : t.LiveInv := by
  cases exec_effect h with
  | answered _ parts => exact hs.answer parts
  | failed _ f => exact (State.KeepsRegions.of_storages (by simp) (s.fault_subset_raise f) (by simp)).liveInv hs
  | copied _ hi bytes st hst hr hm => exact ((State.keepsRegions_write hst hm).liveInv hs).answer _
  | decoded v hr hv =>
    obtain ⟨-, -, hle⟩ := (State.regionOk_iff _ _ _ _).mp hr
    exact (hs.addLive (State.validate_valid hv hle)).answer _
  | encoded payload v hp hv =>
    have hkept : (s.encodeStorage s.ports.id s.ports.flags payload).LiveInv := (hs.keepsRegions_addStorage _).liveInv hs
    exact (hkept.addLive (State.validate_valid hv (by simp))).answer _

/-- Settles O10, by the inversion of the step: a host write that meets a live region records a fault, every other statement keeps
the live regions, and what a construction adds has passed VALIDATE. -/
theorem stepKeepsLiveDescriptorsValid : Obligations.StepKeepsLiveDescriptorsValid := by
  unfold Obligations.StepKeepsLiveDescriptorsValid
  intro s t hs h
  cases step_effect h with
  | idle hf => exact hs
  | turnedAway dests code args e hf he hw =>
    exact (State.KeepsRegions.of_storages (by simp) (by simp) (by simp)).liveInv hs
  | ran dests code args i values ports u hf hd hw hr hl he =>
    have hpres : (s.present code ports).LiveInv :=
      (State.KeepsRegions.of_storages (by simp) (by simp) (by simp)).liveInv hs
    exact (State.KeepsRegions.of_storages (by simp) (by simp) (by simp)).liveInv (exec_liveInv hpres he)
  | supplied dest co bo cap bytes hf hlen =>
    exact (State.KeepsRegions.of_storages (by simp [hostSupply]) (by simp [hostSupply]) (by simp [hostSupply])).liveInv
      ((hs.keepsRegions_addStorage (Storage.ofBytes cap bytes)).liveInv hs)
  | read dest so ao no g a n hf hh =>
    exact (State.KeepsRegions.of_storages (by simp) (hostRead_keepsInterface dest g a n s).fault (by simp)).liveInv hs
  | wrote so ao bo bytes g a hf hh => exact (hostWrite_keepsRegions g a bytes s).liveInv hs
  | dropped vo v hf hv =>
    exact (State.KeepsRegions.of_storages (by simp) (hostDrop_keepsInterface v s).fault (by simp)).liveInv hs

/-! ### Distinct descriptors -/

theorem State.TagsRise.nodup {s : State} (hs : s.TagsRise) : s.live.Nodup :=
  hs.2.imp fun hlt heq => hlt.ne (congrArg View.tag heq)

/-- A descriptor with the next tag comes above all the live ones (R165; log entry 3). -/
theorem State.TagsRise.addLive {s : State} (hs : s.TagsRise) {v : View} (hv : v.tag = s.nextTag) : (s.addLive v).TagsRise := by
  obtain ⟨hbelow, hrise⟩ := hs
  constructor
  · intro w hw
    rcases List.mem_append.mp hw with hw | hw
    · exact Nat.lt_succ_of_lt (hbelow w hw)
    · obtain rfl := List.mem_singleton.mp hw
      exact hv ▸ Nat.lt_succ_self _
  · refine List.pairwise_append.mpr ⟨hrise, List.pairwise_singleton _ _, fun w hw x hx => ?_⟩
    obtain rfl := List.mem_singleton.mp hx
    exact hv ▸ hbelow w hw

theorem State.TagsRise.hostDrop {s : State} (hs : s.TagsRise) (v : View) : (hostDrop v s).TagsRise := by
  obtain ⟨hbelow, hrise⟩ := hs
  rw [State.TagsRise, hostDrop_live, hostDrop_nextTag]
  exact ⟨fun w hw => hbelow w (List.mem_of_mem_filter hw), hrise.filter _⟩

theorem State.validate_tag {s : State} {h base limit : Nat} {v : View} (hv : s.validate h base limit = .ok v) :
    v.tag = s.nextTag := by
  obtain ⟨rfl, -⟩ := State.validate_ok hv
  rfl

/-- Every operation keeps the tags rising: a construction takes the next one. -/
theorem exec_tagsRise {i : Instr} {s t : State} (hs : s.TagsRise) (h : exec i s = .next t) : t.TagsRise := by
  cases exec_effect h with
  | answered _ parts => exact hs
  | failed _ f => simpa [State.TagsRise] using hs
  | copied _ hi bytes st hst hr hm => exact hs
  | decoded v hr hv => exact hs.addLive (State.validate_tag hv)
  | encoded payload v hp hv => exact State.TagsRise.addLive (s := s.addStorage _) hs (State.validate_tag hv)

/-- Settles O12, by the inversion of the step: only a construction adds a descriptor, with the next tag, and DROP removes one. -/
theorem stepKeepsDescriptorsDistinct : Obligations.StepKeepsDescriptorsDistinct := by
  unfold Obligations.StepKeepsDescriptorsDistinct
  intro s t hs h
  suffices ht : t.TagsRise from ⟨ht, ht.nodup⟩
  cases step_effect h with
  | idle hf => exact hs
  | turnedAway dests code args e hf he hw => simpa [State.TagsRise] using hs
  | ran dests code args i values ports u hf hd hw hr hl he =>
    have hu := exec_tagsRise (s := s.present code ports) hs he
    simpa [State.TagsRise] using hu
  | supplied dest co bo cap bytes hf hlen => simpa [State.TagsRise] using hs
  | read dest so ao no g a n hf hh => simpa [State.TagsRise] using hs
  | wrote so ao bo bytes g a hf hh => simpa [State.TagsRise] using hs
  | dropped vo v hf hv => exact hs.hostDrop v

/-! ### Parameters -/

theorem exec_params {i : Instr} {s t : State} (h : exec i s = .next t) : t.params = s.params := by
  cases exec_effect h <;> simp

/-- Settles O14, by the inversion of the step. -/
theorem noStepChangesAParameter : Obligations.NoStepChangesAParameter := by
  unfold Obligations.NoStepChangesAParameter
  intro s t h
  cases step_effect h with
  | ran dests code args i values ports u hf hd hw hr hl he => simpa using exec_params he
  | _ => simp

/-! ### Storages -/

/-- An operation fixes every old capacity, and only a successful ENCODE adds a storage (R22, R162). -/
theorem exec_storages_grow {i : Instr} {s t : State} (h : exec i s = .next t) :
    (∀ g, g < s.storages.length → t.cap g = s.cap g) ∧
      (t.storages.length = s.storages.length ∨
        (t.storages.length = s.storages.length + 1 ∧ i = .encode ∧ t.status = 0)) := by
  cases exec_effect h with
  | answered _ parts => simp
  | failed _ f => simp
  | copied _ hi bytes st hst hr hm => simp [State.setStorage_cap hst]
  | decoded v hr hv => simp
  | encoded payload v hp hv => exact ⟨fun g hg => by simp [State.addStorage_cap_of_ne _ _ hg.ne], .inr (by simp)⟩

theorem opCode_of_mem_opTable : ∀ row ∈ opTable, opCode row.2 = row.1 := by decide

/-- A code that selects an operation is that operation's code (R80). -/
theorem opCode_of_decodeOp {code : Byte} {i : Instr} (h : decodeOp code = .ok i) : opCode i = code := by
  unfold decodeOp at h
  split at h
  case h_1 row hrow =>
    cases h
    rw [opCode_of_mem_opTable row (List.mem_of_find?_eq_some hrow)]
    simpa using List.find?_some hrow
  case h_2 => cases h

/-- Settles O15, by the inversion of the step: SUPPLY adds a storage, and an operation that adds one is an ENCODE. -/
theorem storagesOnlyGrow : Obligations.StoragesOnlyGrow := by
  unfold Obligations.StoragesOnlyGrow
  intro s t h
  cases step_effect h with
  | idle hf => simp
  | turnedAway dests code args e hf he hw => simp
  | ran dests code args i values ports u hf hd hw hr hl he =>
    obtain ⟨hcap, hlen | ⟨hlen, rfl, hok⟩⟩ := exec_storages_grow he
    · exact ⟨by simpa using hcap, .inl (by simpa using hlen)⟩
    · obtain rfl : 0x21 = code := opCode_of_decodeOp hd
      exact ⟨by simpa using hcap, .inr ⟨by simpa using hlen, .inr ⟨dests, args, hf, by simpa using hok⟩⟩⟩
  | supplied dest co bo cap bytes hf hlen =>
    refine ⟨fun g hg => ?_, .inr ⟨by simp, .inl ⟨dest, co, bo, hf⟩⟩⟩
    simp [hostSupply, State.addStorage_cap_of_ne _ _ hg.ne]
  | read dest so ao no g a n hf hh => exact ⟨fun k _ => State.cap_congr (by simp) k, .inl (by simp)⟩
  | wrote so ao bo bytes g a hf hh => simp
  | dropped vo v hf hv => exact ⟨fun k _ => State.cap_congr (by simp) k, .inl (by simp)⟩

/-! ### Which operations make a descriptor live, and which add to the fault mark -/

/-- Settles O16, by the inversion of `exec`: only its two constructions change the live descriptors. -/
theorem onlyConstructionMakesDescriptorsLive : Obligations.OnlyConstructionMakesDescriptorsLive := by
  unfold Obligations.OnlyConstructionMakesDescriptorsLive
  intro i s t h
  cases exec_effect h with
  | answered _ parts => exact .inl rfl
  | failed _ f => exact .inl (s.raise_live f)
  | copied _ hi bytes st hst hr hm => exact .inl rfl
  | decoded v hr hv => exact .inr ⟨v, rfl, rfl, .inl ⟨rfl, rfl⟩⟩
  | encoded payload v hp hv => exact .inr ⟨v, rfl, rfl, .inr ⟨rfl, s.storages.length, rfl⟩⟩

/-- What a failure does to the fault mark and the interface: an error result adds nothing, a model fault its own event (R30, R211). -/
theorem State.raise_fault_cases (s : State) (f : Failure) :
    ((s.raise f).fault = s.fault ∧ (s.raise f).status.toNat < 6) ∨
      ∃ e, (s.raise f).fault = s.fault ++ [e] ∧ 6 ≤ (s.raise f).status.toNat ∧ (s.raise f).info = some (.fault e) := by
  cases f with
  | error e => exact .inl ⟨rfl, e.code_lt⟩
  | fault e => exact .inr ⟨e, rfl, e.code_ge, rfl⟩

/-- Settles O19: an operation ends in an answer, which leaves the mark, or in a failure; and only a clean state has a next one. -/
theorem faultMarkIsSticky : Obligations.FaultMarkIsSticky := by
  unfold Obligations.FaultMarkIsSticky
  refine ⟨rfl, fun i s t h => ?_, fun s t hf h => hf (step_clean h)⟩
  cases exec_effect h with
  | failed _ f => exact s.raise_fault_cases f
  | _ => simp

/-! ### The frames of the operations that change the state -/

/-- Settles O39: a copy that fails changes no storage, and one that succeeds writes the lesser of the data length and `dcap` (R140). -/
theorem copiesChangeOnlyTheDestination : Obligations.CopiesChangeOnlyTheDestination := by
  unfold Obligations.CopiesChangeOnlyTheDestination
  intro i s t hi h
  rw [exec_copy hi] at h
  rcases State.commit_cases s _ with ⟨u, parts, hc, he⟩ | ⟨f, -, he⟩ <;> rw [he] at h <;> cases h
  · obtain ⟨dlen, flags, bytes, st, -, hd, -, -, -, -, hst, -, -, hlen, rfl, -⟩ := State.payloadCopy_ok hc
    refine ⟨rfl, rfl, rfl, rfl, rfl, rfl, rfl, by simp, fun g => by simp [State.setStorage_cap hst], ?_⟩
    intro dlen' hd' g a hout
    obtain rfl : dlen = dlen' := Option.some.inj (hd.symm.trans hd')
    rw [← hlen] at hout
    exact State.write_byteAt_of_outside hst _ _ hout
  · simp

/-- Settles O43, by the inversion of `exec`: DECODE touches no storage, and ENCODE adds one above the old ones. -/
theorem constructionChangesNoOldByte : Obligations.ConstructionChangesNoOldByte := by
  unfold Obligations.ConstructionChangesNoOldByte
  intro i s t hi h
  cases exec_effect h with
  | answered _ parts => simp
  | failed _ f => simp
  | copied _ hcopy bytes st hst hr hm => rcases hcopy with rfl | rfl <;> simp at hi
  | decoded v hr hv => simpa using fun w hw => Or.inl hw
  | encoded payload v hp hv =>
    refine ⟨rfl, rfl, rfl, rfl, rfl, fun g a hg => ?_, fun g hg => ?_, fun w hw => by simp [hw], by simp⟩
    · exact s.addStorage_byteAt_of_ne _ hg.ne a
    · exact s.addStorage_cap_of_ne _ hg.ne

/-! ### The ports of a step -/

/-- The value `v` may come where `x` is to stand on a port: a number as any value of that number, everything else as itself (log
entry 6). -/
def Value.StandsFor (v : Value) : Value → Prop
  | .bool b => IsNumber v b.toNat
  | .byte b => IsNumber v b.toNat
  | .word w => IsNumber v w.toNat
  | .nat n => IsNumber v n
  | x => v = x

/-- A one-bit number is read back as the bit. -/
theorem Value.bits_of_bool {v : Value} {b : Bool} (h : IsNumber v b.toNat) : Value.bits 1 v = some (BitVec.ofBool b) :=
  Value.bits_of_isNumber (by simpa using h)

theorem beq_one_ofBool (b : Bool) : (BitVec.ofBool b == 1#1) = b := by cases b <;> rfl

/-- A port holds every value that stands for what is on it. -/
theorem Ports.holds_of_standsFor {q : Ports} {port : Port} {v : Value} (h : v.StandsFor (q.get port)) : q.Holds port v := by
  intro t
  cases port with
  | raw | packValue | id | flags => simp [Ports.put, Ports.get, Value.bits_of_isNumber h]
  | packExt | packRtr | packErr => simp [Ports.put, Ports.get, Value.bits_of_bool h, beq_one_ofBool]
  | view | view2 => simp [Ports.put, Ports.get, (Value.descriptor_eq_some_iff v _).mpr h]
  | s | src | dst => simp [Ports.put, Ports.get, (Value.handle_eq_some_iff v _).mpr h]
  | base | limit | offset | length | dpos | dcap => simp [Ports.put, Ports.get, (Value.number_eq_some_iff v _).mpr h]

/-- An issue presents `x` on the port: an operand of it reads a value that stands for `x`. -/
def State.Presents (s : State) (args : List (Port × Operand)) (port : Port) (x : Value) : Prop :=
  ∃ o v, (port, o) ∈ args ∧ s.Reads o v ∧ v.StandsFor x

section
variable {s : State} {args : List (Port × Operand)} {port : Port} {o : Operand}

/-! An operand presents the number it reads at whatever width the port has, and a handle or descriptor as itself. -/

theorem State.presents_bool {b : Bool} (hm : (port, o) ∈ args) (hr : s.ReadsNumber o b.toNat) :
    s.Presents args port (.bool b) := ⟨o, hr.choose, hm, hr.choose_spec⟩

theorem State.presents_byte {b : Byte} (hm : (port, o) ∈ args) (hr : s.ReadsNumber o b.toNat) :
    s.Presents args port (.byte b) := ⟨o, hr.choose, hm, hr.choose_spec⟩

theorem State.presents_word {w : Word} (hm : (port, o) ∈ args) (hr : s.ReadsNumber o w.toNat) :
    s.Presents args port (.word w) := ⟨o, hr.choose, hm, hr.choose_spec⟩

theorem State.presents_nat {n : Nat} (hm : (port, o) ∈ args) (hr : s.ReadsNumber o n) :
    s.Presents args port (.nat n) := ⟨o, hr.choose, hm, hr.choose_spec⟩

theorem State.presents_storage {h : Nat} (hm : (port, o) ∈ args) (hr : s.Reads o (.storage h)) :
    s.Presents args port (.storage h) := ⟨o, _, hm, hr, rfl⟩

theorem State.presents_view {v : View} (hm : (port, o) ∈ args) (hr : s.Reads o (.view v)) :
    s.Presents args port (.view v) := ⟨o, _, hm, hr, rfl⟩

end

/-- The step of an issue that presents on every port of its format what stands there in `q`, where `q` agrees with the ports
before it on all the others: the operation at `q` (R32, R81). -/
theorem step_of_presents {s : State} {dests : List Nat} {code : Byte} {args : List (Port × Operand)} {i : Instr} (q : Ports)
    (hc : s.Clean) (hf : s.fetch = some (.issue dests code args)) (hd : decode [code] = .ok (i, []))
    (hw : Statement.WellFormed (.issue dests code args) = true) (h1 : ∀ port ∈ portsOf (formatOf i), ¬ PresentedTwice args port)
    (hop : q.op = s.ports.op) (hp : ∀ port ∈ portsOf (formatOf i), s.Presents args port (q.get port))
    (hk : ∀ port, port ∈ portsOf (formatOf i) ∨ q.get port = s.ports.get port) :
    step s = retired dests (exec i (s.present code q)) := by
  refine step_of_operands q hc hf hd hw h1 hop (fun port hm => ?_) fun port hm => (hk port).resolve_left hm
  obtain ⟨o, v, ho, hr, hv⟩ := hp port hm
  exact ⟨o, v, ho, hr, Ports.holds_of_standsFor hv⟩

/-- Settles O54, format by format: the operands present on the format's ports what the claimed state has there, which agrees with the
state before on every other port. -/
theorem operandsStandOnTheirPorts : Obligations.OperandsStandOnTheirPorts := by
  unfold Obligations.OperandsStandOnTheirPorts
  intro s dests code args i hc hf hd hw h1
  have hstep := fun q => step_of_presents q hc hf hd hw h1
  refine ⟨?_, ?_, ?_, ?_, ?_, ?_, ?_⟩
  · intro hform o raw hm hrm
    rw [hform] at hstep
    refine hstep { s.ports with raw := raw } rfl ?_
      fun port => by cases port <;> simp [portsOf, Ports.get]
    simp [portsOf, Ports.get, State.presents_word hm hrm]
  · intro hform oe ot oa ov ext rtr err value he ht ha hv hre hrt hra hrv
    rw [hform] at hstep
    refine hstep { s.ports with packExt := ext, packRtr := rtr, packErr := err, packValue := value } rfl ?_
      fun port => by cases port <;> simp [portsOf, Ports.get]
    simp [portsOf, Ports.get, State.presents_bool he hre, State.presents_bool ht hrt, State.presents_bool ha hra,
      State.presents_word hv hrv]
  · intro hform o v hm hrm
    rw [hform] at hstep
    refine hstep { s.ports with view := v } rfl ?_
      fun port => by cases port <;> simp [portsOf, Ports.get]
    simp [portsOf, Ports.get, State.presents_view hm hrm]
  · intro hform ov od op oc v dst dpos dcap hv hd hp hc hrv hrd hrp hrc
    rw [hform] at hstep
    refine hstep { s.ports with view := v, dst := dst, dpos := dpos, dcap := dcap } rfl ?_
      fun port => by cases port <;> simp [portsOf, Ports.get]
    simp [portsOf, Ports.get, State.presents_view hv hrv, State.presents_storage hd hrd, State.presents_nat hp hrp,
      State.presents_nat hc hrc]
  · intro hform ov ow v w hv hw hrv hrw
    rw [hform] at hstep
    refine hstep { s.ports with view := v, view2 := w } rfl ?_
      fun port => by cases port <;> simp [portsOf, Ports.get]
    simp [portsOf, Ports.get, State.presents_view hv hrv, State.presents_view hw hrw]
  · intro hform os ob ol h base limit hs hb hl hrs hrb hrl
    rw [hform] at hstep
    refine hstep { s.ports with s := h, base := base, limit := limit } rfl ?_
      fun port => by cases port <;> simp [portsOf, Ports.get]
    simp [portsOf, Ports.get, State.presents_storage hs hrs, State.presents_nat hb hrb, State.presents_nat hl hrl]
  · intro hform oi og os oo ol id flags src offset length hi hg hs ho hl hri hrg hrs hro hrl
    rw [hform] at hstep
    refine hstep { s.ports with id := id, flags := flags, src := src, offset := offset, length := length } rfl ?_
      fun port => by cases port <;> simp [portsOf, Ports.get]
    simp [portsOf, Ports.get, State.presents_word hi hri, State.presents_byte hg hrg, State.presents_storage hs hrs,
      State.presents_nat ho hro, State.presents_nat hl hrl]

/-- Settles O6: the statement at the index is run, its operands go on the ports, and the operation ends in `retire` (R90). -/
theorem stepRunsTheDecodedOperation : Obligations.StepRunsTheDecodedOperation := by
  unfold Obligations.StepRunsTheDecodedOperation
  intro s dests code args i values ports hc hf hd _ hw hr hl
  have hd' := (decode_single_iff code i).mp hd
  exact (step_of_fetch hc hf hw).trans (issue_eq hd' hr hl)

end Sys2Proof.Machine
end

section
/-! PROOFS. The family of 20_memory.md: the ownership of live regions (R49), the canonical form of the storages (log entry 2), the byte
order of the identifier (R42), the reads of a view (R45, R48) and the host actions (R50). -/

namespace Sys2Proof.Machine

/-! ### Live regions -/

/-- Every byte of every region that is live in `s` reads in `t` as in `s`. -/
def State.KeepsLiveBytes (s t : State) : Prop :=
  ∀ v ∈ s.live, ∀ k < v.size, t.byteAt v.storage (v.base + k) = s.byteAt v.storage (v.base + k)

theorem State.KeepsLiveBytes.of_byteAt {s t : State} (h : ∀ g x, t.byteAt g x = s.byteAt g x) : s.KeepsLiveBytes t :=
  fun _ _ _ _ => h _ _

/-- A write that meets no live region keeps their bytes (R49, R140). -/
theorem State.keepsLiveBytes_write {s : State} {h a : Nat} {st : Storage} {l : List Byte} (hst : s.storages[h]? = some st)
    (hm : s.meetsLive h a l.length = false) : s.KeepsLiveBytes (s.setStorage h ⟨st.cap, st.mem.writeBytes a l⟩) :=
  fun _ hv _ _ => State.write_byteAt_of_outside hst a l (State.outside_of_not_meetsLive hm hv (by omega) (by omega))

/-- A new storage is none that a live region lies in. -/
theorem State.LiveInv.keepsLiveBytes_addStorage {s : State} (hs : s.LiveInv) (st : Storage) :
    s.KeepsLiveBytes (s.addStorage st) :=
  fun _ hv _ _ => s.addStorage_byteAt_of_ne st (hs.fits hv).lt_length.ne _

/-- No operation writes into a live region, whether it answers or fails (R236). -/
theorem exec_keepsLiveBytes {i : Instr} {s t : State} (hs : s.LiveInv) (h : exec i s = .next t) : s.KeepsLiveBytes t := by
  cases exec_effect h with
  | answered _ parts => exact .of_byteAt (by simp)
  | failed _ f => exact .of_byteAt (by simp)
  | copied _ hi bytes st hst hr hm => exact State.keepsLiveBytes_write hst hm
  | decoded v hr hv => exact .of_byteAt (by simp)
  | encoded payload v hp hv => exact hs.keepsLiveBytes_addStorage _

/-- Settles O18, by the inversion of the step: an operation writes no live region, a HOST_WRITE that meets one records a fault, and
SUPPLY's storage is new. -/
theorem cleanStepsLeaveLiveRegionsAlone : Obligations.CleanStepsLeaveLiveRegionsAlone := by
  unfold Obligations.CleanStepsLeaveLiveRegionsAlone
  intro s t hs h hclean
  change s.KeepsLiveBytes t
  cases step_effect h with
  | idle hf => exact .of_byteAt fun _ _ => rfl
  | turnedAway dests code args e hf he hw => exact .of_byteAt (by simp)
  | ran dests code args i values ports u hf hd hw hr hl he =>
    have hpres : (s.present code ports).LiveInv :=
      (State.KeepsRegions.of_storages (by simp) (by simp) (by simp)).liveInv hs
    simpa [State.KeepsLiveBytes] using exec_keepsLiveBytes hpres he
  | supplied dest co bo cap bytes hf hlen =>
    simpa [State.KeepsLiveBytes, hostSupply] using hs.keepsLiveBytes_addStorage (Storage.ofBytes cap bytes)
  | read dest so ao no g a n hf hh => exact .of_byteAt (State.byteAt_congr (by simp))
  | wrote so ao bo bytes g a hf hh => exact (hostWrite_keepsRegions g a bytes s).bytes hclean
  | dropped vo v hf hv => exact .of_byteAt (State.byteAt_congr (by simp))

/-! ### The canonical form of the storages -/

theorem State.MemWf.of_storages {s t : State} (hs : s.MemWf) (h : t.storages = s.storages) : t.MemWf := by
  rwa [State.MemWf, h]

/-- ENCODE's bytes fit its new storage (R161, R162). -/
theorem length_frameBytes_le (e : Endian) (id : Word) (flags : Byte) {payload : List Byte} (h : payload.length ≤ 64) :
    (frameBytes e id flags payload).length ≤ encodeSize payload.length := by
  rw [length_frameBytes]
  rcases encodeSize_cases (n := payload.length) with ⟨hle, hsize⟩ | ⟨hlt, hsize⟩ <;> omega

/-- Every operation keeps the canonical form. -/
theorem exec_memWf {i : Instr} {s t : State} (hs : s.MemWf) (h : exec i s = .next t) : t.MemWf := by
  cases exec_effect h with
  | answered _ parts => exact hs
  | failed _ f => exact hs.of_storages (by simp)
  | copied _ hi bytes st hst hr hm => exact hs.write hst hr
  | decoded v hr hv => exact hs
  | encoded payload v hp hv =>
    obtain ⟨-, -, hmax, hlen, -⟩ := State.encodePayload_ok hp
    exact hs.addStorage (Storage.wf_ofBytes (length_frameBytes_le _ _ _ (hlen ▸ hmax)))

theorem hostWrite_memWf {s : State} (hs : s.MemWf) (h a : Nat) (bytes : List Byte) : (hostWrite h a bytes s).MemWf := by
  rcases hostWrite_cases h a bytes s with ⟨st, hst, hr, ⟨-, he⟩ | ⟨-, he⟩⟩ | he <;> rw [he]
  · exact (hs.write hst hr).of_storages (by simp)
  · exact (hs.write hst hr).of_storages (by simp)
  · exact hs.of_storages (by simp)

/-- Settles O11, by the inversion of the step: every write is inside its storage, and a new storage is made of bytes that fit it. -/
theorem stepKeepsMemoryCanonical : Obligations.StepKeepsMemoryCanonical := by
  unfold Obligations.StepKeepsMemoryCanonical
  intro s t hs h
  cases step_effect h with
  | idle hf => exact hs
  | turnedAway dests code args e hf he hw => exact hs.of_storages (by simp)
  | ran dests code args i values ports u hf hd hw hr hl he =>
    exact (exec_memWf (s := s.present code ports) hs he).of_storages (by simp)
  | supplied dest co bo cap bytes hf hlen =>
    exact (hs.addStorage (Storage.wf_ofBytes hlen.le)).of_storages (by simp)
  | read dest so ao no g a n hf hh => exact hs.of_storages (by simp)
  | wrote so ao bo bytes g a hf hh => exact hostWrite_memWf hs g a bytes
  | dropped vo v hf hv => exact hs.of_storages (by simp)

/-! ### Byte order -/

/-- Four bytes side by side, in the words of R42. -/
theorem append_bytes_eq_or (b0 b1 b2 b3 : Byte) :
    b3 ++ b2 ++ b1 ++ b0 =
      b3.setWidth 32 <<< 24 ||| b2.setWidth 32 <<< 16 ||| b1.setWidth 32 <<< 8 ||| b0.setWidth 32 :=
  (BitVec.setWidth_eq (b3 ++ b2 ++ b1 ++ b0)).symm.trans BitVec.setWidth_append_append_append_eq_shiftLeft_setWidth_or

theorem Word.or_reverse (x0 x1 x2 x3 : Word) : x0 ||| x1 ||| x2 ||| x3 = x3 ||| x2 ||| x1 ||| x0 := by ac_rfl

/-- The little order puts the first byte lowest (R42). -/
theorem word32_little_eq_append (b0 b1 b2 b3 : Byte) : word32 .little b0 b1 b2 b3 = b3 ++ b2 ++ b1 ++ b0 := by
  rw [append_bytes_eq_or]
  exact Word.or_reverse _ _ _ _

/-- The big order is the little one of the bytes reversed (R42). -/
theorem word32_big_eq_little (b0 b1 b2 b3 : Byte) : word32 .big b0 b1 b2 b3 = word32 .little b3 b2 b1 b0 := rfl

/-- A word is four bytes side by side exactly when they are its four slices. -/
theorem append_bytes_eq_iff (b0 b1 b2 b3 : Byte) (w : Word) :
    b3 ++ b2 ++ b1 ++ b0 = w ↔
      w.extractLsb' 0 8 = b0 ∧ w.extractLsb' 8 8 = b1 ∧ w.extractLsb' 16 8 = b2 ∧ w.extractLsb' 24 8 = b3 := by
  constructor
  · rintro rfl
    refine ⟨BitVec.extractLsb'_append_eq_right, ?_, ?_, ?_⟩
    · rw [BitVec.extractLsb'_append_eq_of_le (by decide), BitVec.extractLsb'_append_eq_right]
    · rw [BitVec.extractLsb'_append_eq_of_le (by decide), BitVec.extractLsb'_append_eq_of_le (by decide),
        BitVec.extractLsb'_append_eq_right]
    · rw [BitVec.extractLsb'_append_eq_of_le (by decide), BitVec.extractLsb'_append_eq_of_le (by decide),
        BitVec.extractLsb'_append_eq_left]
  · rintro ⟨rfl, rfl, rfl, rfl⟩
    rw [BitVec.extractLsb'_append_extractLsb'_eq_extractLsb' (by decide),
      BitVec.extractLsb'_append_extractLsb'_eq_extractLsb' (by decide),
      BitVec.extractLsb'_append_extractLsb'_eq_extractLsb' (by decide)]
    exact BitVec.extractLsb'_eq_self

/-- `Bytes32` is the inverse of `Word32`, in both orders (R42). -/
theorem word32_eq_iff (e : Endian) (w : Word) (b0 b1 b2 b3 : Byte) :
    word32 e b0 b1 b2 b3 = w ↔ bytes32 e w = [b0, b1, b2, b3] := by
  cases e with
  | little =>
    rw [word32_little_eq_append, append_bytes_eq_iff]
    simp only [bytes32, List.cons.injEq, and_true]
  | big =>
    rw [word32_big_eq_little, word32_little_eq_append, append_bytes_eq_iff]
    simp only [bytes32, List.cons.injEq, and_true]
    tauto

/-- Settles O31: `Word32` is the definition, and the bytes of a word are its slices. -/
theorem byteOrderOfTheIdentifier : Obligations.ByteOrderOfTheIdentifier := by
  unfold Obligations.ByteOrderOfTheIdentifier
  exact ⟨fun _ _ _ _ => ⟨rfl, rfl⟩, word32_eq_iff⟩

/-! ### What a view reads -/

/-- The descriptor is live in both states and fits in them, and they agree on the parameters, the view port that holds it, and the
bytes of its region. -/
structure State.SameFrame (s s' : State) (v : View) : Prop where
  fits : v.Fits s
  fits' : v.Fits s'
  live : s.ports.view ∈ s.live
  live' : s'.ports.view ∈ s'.live
  view : s.ports.view = v
  view' : s'.ports.view = v
  params : s'.params = s.params
  bytes : ∀ k < v.size, s'.byteAt v.storage (v.base + k) = s.byteAt v.storage (v.base + k)

/-- A read that gives one and the same in both states. -/
def SameRead {α : Type} (r r' : Except Failure α) : Prop := ∃ x, r = .ok x ∧ r' = .ok x

theorem SameRead.map {α β : Type} {r r' : Except Failure α} (h : SameRead r r') (f : α → β) :
    SameRead (do let x ← r; return f x) (do let x ← r'; return f x) := by
  obtain ⟨x, rfl, rfl⟩ := h
  exact ⟨f x, rfl, rfl⟩

namespace State.SameFrame

variable {s s' : State} {v : View}

theorem byte (h : s.SameFrame s' v) {k : Nat} (hk : k < v.size) :
    ∃ b, s.byteAt v.storage (v.base + k) = some b ∧ s'.byteAt v.storage (v.base + k) = some b := by
  obtain ⟨b, hb⟩ := h.fits.byte hk
  exact ⟨b, hb, (h.bytes k hk).trans hb⟩

theorem viewDlen (h : s.SameFrame s' v) : SameRead (s.viewDlen v) (s'.viewDlen v) := by
  obtain ⟨b, hb, hb'⟩ := h.byte (k := 4) (by have := h.fits.size_ge; omega)
  exact ⟨b, State.viewDlen_eq hb, State.viewDlen_eq hb'⟩

theorem viewFlags (h : s.SameFrame s' v) : SameRead (s.viewFlags v) (s'.viewFlags v) := by
  obtain ⟨b, hb, hb'⟩ := h.byte (k := 5) (by have := h.fits.size_ge; omega)
  exact ⟨b, State.viewFlags_eq hb, State.viewFlags_eq hb'⟩

theorem viewIsFd (h : s.SameFrame s' v) : SameRead (s.viewIsFd v) (s'.viewIsFd v) := by
  obtain ⟨dlen, hd, hd'⟩ := h.byte (k := 4) (by have := h.fits.size_ge; omega)
  obtain ⟨flags, hf, hf'⟩ := h.byte (k := 5) (by have := h.fits.size_ge; omega)
  exact ⟨_, State.viewIsFd_eq hd hf, State.viewIsFd_eq hd' hf'⟩

theorem viewRawId (h : s.SameFrame s' v) : SameRead (s.viewRawId v) (s'.viewRawId v) := by
  obtain ⟨b0, b1, b2, b3, h0, h1, h2, h3, hr⟩ := h.fits.rawId
  have hsize := h.fits.size_ge
  have hr' := State.viewRawId_eq (s := s') ((h.bytes 0 (by omega)).trans h0) ((h.bytes 1 (by omega)).trans h1)
    ((h.bytes 2 (by omega)).trans h2) ((h.bytes 3 (by omega)).trans h3)
  rw [h.params] at hr'
  exact ⟨_, hr, hr'⟩

theorem viewCodec (h : s.SameFrame s' v) (f : Params → Word → Value) :
    SameRead (s.viewCodec f v) (s'.viewCodec f v) := by
  obtain ⟨w, hw, hw'⟩ := h.viewRawId
  exact ⟨_, State.viewCodec_eq f hw, h.params ▸ State.viewCodec_eq f hw'⟩

theorem viewSpan (h : s.SameFrame s' v) : SameRead (s.viewSpan v) (s'.viewSpan v) := by
  obtain ⟨l, hl, hlen, hbytes⟩ := h.fits.span
  obtain ⟨l', hl', hlen', hbytes'⟩ := h.fits'.span
  have heq : l' = l := by
    refine List.ext_getElem? fun k => ?_
    by_cases hk : k < v.size
    · rw [← hbytes k hk, ← hbytes' k hk, h.bytes k hk]
    · rw [List.getElem?_eq_none (by omega), List.getElem?_eq_none (by omega)]
  exact ⟨l, hl, heq ▸ hl'⟩

/-- A view operation whose read is the same in both states answers the same in both. -/
theorem answers (h : s.SameFrame s' v) {i : Instr} {f f' : View → Except Failure (List Value)} (he : exec i s = s.onView f)
    (he' : exec i s' = s'.onView f') (hread : SameRead (f v) (f' v)) : ∃ parts, Answers i s parts ∧ Answers i s' parts := by
  obtain ⟨parts, hp, hp'⟩ := hread
  rw [← h.view] at hp
  rw [← h.view'] at hp'
  exact ⟨parts, answers_of_onView he h.live hp, answers_of_onView he' h.live' hp'⟩

/-- The identifier accessors read the identifier word and the parameters. -/
theorem answers_viewCodec (h : s.SameFrame s' v) {i : Instr} {f : Params → Word → Value}
    (he : ∀ s, exec i s = s.onView (s.viewCodec f)) : ∃ parts, Answers i s parts ∧ Answers i s' parts :=
  h.answers (he s) (he s') (h.viewCodec f)

/-- The geometry accessors read the descriptor alone. -/
theorem answers_geometry (h : s.SameFrame s' v) {i : Instr} {f : View → List Value}
    (he : ∀ s, exec i s = s.onView (fun v => .ok (f v))) : ∃ parts, Answers i s parts ∧ Answers i s' parts :=
  h.answers (he s) (he s') ⟨f v, rfl, rfl⟩

end State.SameFrame

/-- Settles O37, by the operation: each reads the descriptor, the parameters or bytes of its region, which are the same. -/
theorem viewsReadOnlyTheirOwnRegion : Obligations.ViewsReadOnlyTheirOwnRegion := by
  unfold Obligations.ViewsReadOnlyTheirOwnRegion
  intro i s s' hi hs hs' hparams hview hlive hlive' hbytes
  have h : s.SameFrame s' s.ports.view :=
    ⟨hs.fits hlive, hs'.fits hlive', hlive, hview ▸ hlive', rfl, hview, hparams, hbytes⟩
  cases i with
  | vRawId => exact h.answers_viewCodec exec_vRawId
  | vId => exact h.answers_viewCodec exec_vId
  | vIsExt => exact h.answers_viewCodec exec_vIsExt
  | vIsErr => exact h.answers_viewCodec exec_vIsErr
  | vErrCause => exact h.answers_viewCodec exec_vErrCause
  | vIsRtr => exact h.answers_viewCodec exec_vIsRtr
  | vFlags => exact h.answers (exec_vFlags s) (exec_vFlags s') (h.viewFlags.map _)
  | vDlen => exact h.answers (exec_vDlen s) (exec_vDlen s') (h.viewDlen.map _)
  | vIsFd => exact h.answers (exec_vIsFd s) (exec_vIsFd s') (h.viewIsFd.map _)
  | vBase => exact h.answers_geometry exec_vBase
  | vSize => exact h.answers_geometry exec_vSize
  | vRegion => exact h.answers_geometry exec_vRegion
  | hash => exact h.answers (exec_hash s) (exec_hash s') (h.viewSpan.map _)
  | render =>
    refine h.answers (exec_render s) (exec_render s') ?_
    rw [hparams]
    exact h.viewSpan.map _
  | _ => simp [viewOps] at hi

/-! ### The host actions -/

/-- The step at a SUPPLY whose operands are read. -/
theorem step_supply {s : State} {dest : Option Nat} {co bo : Operand} {bytes : List Byte} (hs : s.Clean)
    (hf : s.fetch = some (.supply dest co bo)) (hco : s.ReadsNumber co bytes.length) (hbo : s.Reads bo (.bytes bytes)) :
    step s = .next (hostSupply dest bytes.length bytes s) := by
  rw [step_of_fetch hs hf rfl]
  simp [runForm, State.actionNumber_of_reads hco, State.actionBytes_of_reads hbo]

/-- The step at a DROP of a live descriptor. -/
theorem step_drop {s : State} {vo : Operand} {v : View} (hs : s.Clean) (hf : s.fetch = some (.drop vo))
    (hvo : s.Reads vo (.view v)) (hv : v ∈ s.live) : step s = .next (hostDrop v s) := by
  rw [step_of_fetch hs hf rfl]
  simp [runForm, State.actionView_of_reads hvo, hv]

/-- The slot of a host action that gives a value holds it (log entry 6). -/
theorem State.slotGet_give (s : State) (n : Nat) (v : Value) : slotGet (s.give (some n) v).slots n = some v := by
  simp [State.give, slotGet_slotPut_self]

/-- A storage that exactly holds its bytes. -/
theorem Storage.get_ofBytes_length {bytes : List Byte} {a : Nat} (ha : a < bytes.length) :
    some ((Storage.ofBytes bytes.length bytes).mem.get a) = bytes[a]? := by
  simp [Storage.get_ofBytes, List.getD_eq_getElem?_getD, ha]

/-- Settles O49: the step is the host action, which adds the storage at the next handle. -/
theorem supplyAddsAStorage : Obligations.SupplyAddsAStorage := by
  unfold Obligations.SupplyAddsAStorage
  rintro s dest co bo cap bytes hs hf hco hbo rfl
  refine ⟨_, _, step_supply hs hf hco hbo, rfl, by simp, by simp [hostSupply], fun a ha => ?_, fun g a hg => ?_, by simp,
    by simpa [State.Clean, hostSupply] using hs, ?_⟩
  · rw [hostSupply, State.give_byteAt, State.addStorage_byteAt_self, Storage.cap_ofBytes, if_pos ha,
      Storage.get_ofBytes_length ha]
  · rw [hostSupply, State.give_byteAt, State.addStorage_byteAt_of_ne s _ hg]
  · rintro n rfl
    exact State.slotGet_give _ n _

/-- Settles O50: the step is the host action, whose read inside the capacity succeeds. -/
theorem hostReadHasNoEffect : Obligations.HostReadHasNoEffect := by
  unfold Obligations.HostReadHasNoEffect
  intro s dest so ao no h a n hs hf hso hh hao hno hcap
  obtain ⟨l, hl⟩ := State.memRead_exists hh hcap
  obtain ⟨hlen, hbytes⟩ := State.memRead_ok hl
  have hgive : hostRead dest h a n s = s.give dest (.bytes l) := by simp [hostRead, hl]
  refine ⟨_, l, hgive ▸ step_hostRead hs hf hso hh hao hno, by simp, by simp, by simp, by simp, by simp,
    by simpa [State.Clean] using hs, hlen, hbytes, ?_⟩
  rintro d rfl
  exact s.slotGet_give d _

/-- What a HOST_WRITE inside its storage does (R50): the bytes written, and the event recorded where they meet a live region. -/
theorem hostWrite_of_le_cap {s : State} {h a : Nat} {bytes : List Byte} (hh : h < s.storages.length)
    (hcap : a + bytes.length ≤ s.cap h) :
    ∃ st, s.storages[h]? = some st ∧ a + bytes.length ≤ st.cap ∧
      (∀ g x, (hostWrite h a bytes s).byteAt g x = (s.setStorage h ⟨st.cap, st.mem.writeBytes a bytes⟩).byteAt g x) ∧
      (hostWrite h a bytes s).ports = s.ports ∧
      (hostWrite h a bytes s).fault = s.fault ++ if s.meetsLive h a bytes.length then [.hostWrite h a] else [] := by
  obtain ⟨st, hst, hr, hw⟩ := State.memWrite_exists hh hcap
  refine ⟨st, hst, hr, ?_⟩
  cases hm : s.meetsLive h a bytes.length <;> simp [hostWrite, hw, hm]

/-- Bytes meet a region that is not empty exactly where they have one in common. -/
theorem View.meets_iff_exists_byte {v : View} (hv : 0 < v.size) (h a n : Nat) :
    v.meets h a n = true ↔ v.storage = h ∧ ∃ x, v.base ≤ x ∧ x < v.base + v.size ∧ a ≤ x ∧ x < a + n := by
  rw [View.meets_iff]
  constructor
  · rintro ⟨hstorage, hn, hlt, hlt'⟩
    exact ⟨hstorage, max a v.base, by omega⟩
  · rintro ⟨hstorage, x, hx⟩
    exact ⟨hstorage, by omega⟩

/-- Bytes meet a live region exactly where they have one in common with it: a live region is not empty (R25). -/
theorem State.LiveInv.meetsLive_iff {s : State} (hs : s.LiveInv) (h a n : Nat) :
    s.meetsLive h a n = true ↔
      ∃ v ∈ s.live, v.storage = h ∧ ∃ x, v.base ≤ x ∧ x < v.base + v.size ∧ a ≤ x ∧ x < a + n := by
  rw [State.meetsLive_iff]
  refine exists_congr fun v => and_congr_right fun hv => View.meets_iff_exists_byte ?_ h a n
  have := (hs.fits hv).size_ge
  omega

/-- Settles O51: the step is the host action, whose write inside the capacity succeeds and is reported exactly where it meets a live
region. -/
theorem hostWriteWritesAndReportsViolations : Obligations.HostWriteWritesAndReportsViolations := by
  unfold Obligations.HostWriteWritesAndReportsViolations
  intro s so ao bo bytes h a hs hw hlive hf hso hh hao hbo hcap
  obtain ⟨st, hst, hr, hbyte, hports, hfault⟩ := hostWrite_of_le_cap hh hcap
  rw [show s.fault = [] from hs, List.nil_append] at hfault
  refine ⟨_, step_hostWrite hs hf hso hh hao hbo, by simp, by simp, hports, fun k hk => ?_, fun g x hout => ?_, fun hmeets => ?_,
    fun hnone => ?_⟩
  · rw [hbyte, State.write_byteAt_of_inside hst (Storage.mem_wf (hw.storage hst)) hr hk, List.getElem?_eq_getElem hk]
  · rw [hbyte, State.write_byteAt_of_outside hst a bytes hout]
  · rw [hfault, if_pos ((hlive.meetsLive_iff _ _ _).mpr hmeets)]
  · rw [State.Clean, hfault, if_neg]
    intro hmeets
    obtain ⟨v, hv, hstorage, x, hbase, hend, hx⟩ := (hlive.meetsLive_iff _ _ _).mp hmeets
    exact hnone v hv x hstorage hbase hend hx

/-- Settles O52: the step is the host action, which takes one descriptor out of the live ones. -/
theorem dropEndsOneLifetime : Obligations.DropEndsOneLifetime := by
  unfold Obligations.DropEndsOneLifetime
  intro s vo v hs hf hvo hv
  refine ⟨_, step_drop hs hf hvo hv, by simp, fun w hw => by simp [hw], by simp, ?_⟩
  simpa [State.Clean, hostDrop] using hs

end Sys2Proof.Machine
end

section
/-! PROOFS. The family of 30_encoding.md: the codes and the operations (R80 to R82), the form of a statement's operands (R83, R85), the
identifier delegations (R86), and what a statement does to the index and the slots (R90). -/

namespace Sys2Proof.Machine

/-! ### Codes -/

/-- An operation's code selects the operation (R80). -/
theorem decodeOp_opCode (i : Instr) : decodeOp (opCode i) = .ok i := by
  cases i <;> rfl

/-- Settles O2: the code of an operation selects it, and no other code does. -/
theorem decodeInvertsEncode : Obligations.DecodeInvertsEncode := by
  unfold Obligations.DecodeInvertsEncode
  constructor
  · intro i rest _
    simp [encode, decode, decodeOp_opCode]
  · intro code i h
    rw [encode, opCode_of_decodeOp ((decode_single_iff code i).mp h)]

/-- Settles O1, row by row of the operation map. -/
theorem tableCodesDecode : Obligations.TableCodesDecode := by
  unfold Obligations.TableCodesDecode
  decide

/-- The codes that select no operation are those outside the operation map (R82). -/
theorem decodeOp_ne_ok_iff (code : Byte) : (∀ i, decodeOp code ≠ .ok i) ↔ code ∉ opTable.map Prod.fst := by
  constructor
  · intro h hmem
    obtain ⟨row, hrow, rfl⟩ := List.mem_map.mp hmem
    rw [← opCode_of_mem_opTable row hrow] at h
    exact h row.2 (decodeOp_opCode row.2)
  · intro h i hi
    unfold decodeOp at hi
    split at hi
    case h_1 row hrow =>
      have hcode : row.1 = code := by simpa using List.find?_some hrow
      exact h (hcode ▸ List.mem_map_of_mem (List.mem_of_find?_eq_some hrow))
    case h_2 => cases hi

/-- R82's ranges are the complement of the operation map. -/
theorem unassigned_iff_notMem_opTable : ∀ code : Byte, Unassigned code ↔ code ∉ opTable.map Prod.fst := by
  decide

/-- Settles O3: the listed codes are those outside the operation map, and the issue of one is refused before it begins. -/
theorem unassignedCodesRaiseIllegalOperation : Obligations.UnassignedCodesRaiseIllegalOperation := by
  unfold Obligations.UnassignedCodesRaiseIllegalOperation
  have hcodes (code : Byte) : Unassigned code ↔ ∀ i, decodeOp code ≠ .ok i :=
    (unassigned_iff_notMem_opTable code).trans (decodeOp_ne_ok_iff code).symm
  refine ⟨hcodes, fun s dests code args hcode hs hf => ⟨_, step_unassigned hs hf ((hcodes code).mp hcode), ?_⟩⟩
  have hfault : s.fault = [] := hs
  simp [hfault, FaultEvent.code]

/-! ### The end of the run and the statement index -/

/-- Settles O7: a step looks at the fault mark first, and past the last statement it fetches none. -/
theorem runEndsAtAFaultOrAfterTheLastStatement : Obligations.RunEndsAtAFaultOrAfterTheLastStatement := by
  unfold Obligations.RunEndsAtAFaultOrAfterTheLastStatement
  constructor
  · intro s e rest h
    simp [step, runStep, h]
  · intro s hs hpc
    rw [step_of_clean hs, State.fetch, List.getElem?_eq_none hpc]

/-- An operation leaves the host agent alone: its program, its statement index and its slots (R90). -/
theorem exec_keepsHost {i : Instr} {s t : State} (h : exec i s = .next t) :
    t.program = s.program ∧ t.pc = s.pc ∧ t.slots = s.slots := by
  cases exec_effect h <;> simp

/-- What a statement does to the program and the index: the index moves on by one exactly where no fault is recorded (R90; log
entry 6). -/
def State.MovesOn (s t : State) : Prop := t.program = s.program ∧ t.pc = if t.fault = [] then s.pc + 1 else s.pc

theorem State.movesOn_advance {s u : State} (hprogram : u.program = s.program) (hpc : u.pc = s.pc) : s.MovesOn u.advance := by
  simp [State.MovesOn, State.advance_pc, hprogram, hpc]

theorem State.movesOn_retire {s u : State} (dests : List Nat) (hprogram : u.program = s.program) (hpc : u.pc = s.pc) :
    s.MovesOn (u.retire dests) := State.movesOn_advance hprogram hpc

theorem State.movesOn_give {s u : State} (dest : Option Nat) (v : Value) (hprogram : u.program = s.program) (hpc : u.pc = s.pc) :
    s.MovesOn (u.give dest v) := by
  cases dest with
  | none => exact State.movesOn_advance hprogram hpc
  | some n => exact State.movesOn_advance hprogram hpc

theorem hostRead_movesOn (dest : Option Nat) (h a n : Nat) (s : State) : s.MovesOn (hostRead dest h a n s) := by
  rcases hostRead_cases dest h a n s with ⟨l, -, he⟩ | he <;> rw [he]
  · exact State.movesOn_give dest _ rfl rfl
  · exact State.movesOn_advance rfl rfl

theorem hostWrite_movesOn (h a : Nat) (bytes : List Byte) (s : State) : s.MovesOn (hostWrite h a bytes s) := by
  rcases hostWrite_cases h a bytes s with ⟨st, -, -, ⟨-, he⟩ | ⟨-, he⟩⟩ | he <;> rw [he]
  · exact State.movesOn_advance rfl rfl
  · exact State.movesOn_advance rfl rfl
  · exact State.movesOn_advance rfl rfl

/-- Settles O8, by the inversion of the step: every statement ends in `advance`. -/
theorem statementIndexMovesByOne : Obligations.StatementIndexMovesByOne := by
  unfold Obligations.StatementIndexMovesByOne
  intro s t hpc h
  suffices hmove : s.MovesOn t by
    obtain ⟨hprogram, hindex⟩ := hmove
    exact ⟨hprogram, fun hf => by rw [hindex, if_pos hf], fun hf => by rw [hindex, if_neg hf]⟩
  cases step_effect h with
  | idle hf =>
    have hle : s.program.length ≤ s.pc := List.getElem?_eq_none_iff.mp hf
    omega
  | turnedAway dests code args e hf he hw => exact State.movesOn_retire dests rfl rfl
  | ran dests code args i values ports u hf hd hw hr hl he =>
    obtain ⟨hprogram, hindex, -⟩ := exec_keepsHost he
    exact State.movesOn_retire dests hprogram hindex
  | supplied dest co bo cap bytes hf hlen => exact State.movesOn_give dest _ rfl rfl
  | read dest so ao no g a n hf hh => exact hostRead_movesOn dest g a n s
  | wrote so ao bo bytes g a hf hh => exact hostWrite_movesOn g a bytes s
  | dropped vo v hf hv => exact State.movesOn_advance rfl rfl

/-! ### The parts of a result -/

/-- What a read gives has `n` parts. -/
def GivesParts (n : Nat) (r : Except Failure (List Value)) : Prop := ∀ parts, r = .ok parts → parts.length = n

theorem givesParts_ok (parts : List Value) : GivesParts parts.length (.ok parts) := by
  rintro _ ⟨⟩
  rfl

theorem givesParts_error (n : Nat) (f : Failure) : GivesParts n (.error f) := by
  rintro _ ⟨⟩

theorem givesParts_map {α : Type} (r : Except Failure α) (g : α → Value) : GivesParts 1 (do let x ← r; return [g x]) := by
  cases r with
  | error f => exact givesParts_error 1 f
  | ok x => exact givesParts_ok [g x]

theorem givesParts_viewCodec (s : State) (f : Params → Word → Value) (v : View) : GivesParts 1 (s.viewCodec f v) :=
  givesParts_map (s.viewRawId v) _

theorem givesParts_viewEquals (s : State) (v w : View) : GivesParts 1 (s.viewEquals v w) := by
  unfold State.viewEquals
  split
  · exact givesParts_ok [_]
  · cases s.viewSpan v with
    | error f => exact givesParts_error 1 f
    | ok a => exact givesParts_map (s.viewSpan w) _

theorem State.raise_status_ne_zero (s : State) (f : Failure) : (s.raise f).status ≠ 0 := by
  rw [State.raise_status]
  exact f.code_ne_zero

theorem result_length_of_conclude {n : Nat} {s t : State} {r : Except Failure (List Value)} (hr : GivesParts n r)
    (h : s.conclude r = .next t) (ht : t.status = 0) : t.result.length = n := by
  rcases s.conclude_cases r with ⟨parts, hp, he⟩ | ⟨f, -, he⟩ <;> rw [he] at h <;> cases h
  · exact hr parts hp
  · exact absurd ht (s.raise_status_ne_zero f)

theorem result_length_of_onView {n : Nat} {s t : State} {f : View → Except Failure (List Value)} (hf : ∀ v, GivesParts n (f v))
    (h : s.onView f = .next t) (ht : t.status = 0) : t.result.length = n := by
  refine result_length_of_conclude ?_ h ht
  split
  · exact hf _
  · exact givesParts_error n _

theorem result_length_of_commit {n : Nat} {s t : State} {r : Except Failure (State × List Value)}
    (hr : ∀ u parts, r = .ok (u, parts) → parts.length = n) (h : s.commit r = .next t) (ht : t.status = 0) : t.result.length = n := by
  rcases s.commit_cases r with ⟨u, parts, hp, he⟩ | ⟨f, -, he⟩ <;> rw [he] at h <;> cases h
  · exact hr u parts hp
  · exact absurd ht (s.raise_status_ne_zero f)

/-- The result of an OK has as many parts as the operation's row of R80 gives. -/
theorem exec_result_length {i : Instr} {s t : State} (h : exec i s = .next t) (ht : t.status = 0) :
    t.result.length = partsOf i := by
  cases i with
  | idNumeric | idIsExt | idIsErr | idIsRtr | idErrCause | idPack => exact result_length_of_conclude (givesParts_ok [_]) h ht
  | vRawId | vId | vIsExt | vIsErr | vErrCause | vIsRtr =>
    exact result_length_of_onView (s := s) (givesParts_viewCodec s _) h ht
  | vFlags | vDlen | vIsFd => exact result_length_of_onView (s := s) (fun v => givesParts_map _ _) h ht
  | hash =>
    rw [exec_hash] at h
    exact result_length_of_onView (fun v => givesParts_map _ _) h ht
  | render =>
    rw [exec_render] at h
    exact result_length_of_onView (fun v => givesParts_map _ _) h ht
  | vBase | vSize => exact result_length_of_onView (fun v => givesParts_ok [_]) h ht
  | vRegion => exact result_length_of_onView (fun v => givesParts_ok [_, _, _]) h ht
  | equals =>
    rw [exec_equals] at h
    refine result_length_of_onView (fun v => ?_) h ht
    split
    · exact givesParts_viewEquals s v _
    · exact givesParts_error 1 _
  | vCopyBuf | vCopyArr =>
    rw [exec_copy (by simp)] at h
    refine result_length_of_commit (fun u parts hp => ?_) h ht
    obtain ⟨-, -, -, -, -, -, -, -, -, -, -, -, -, -, -, rfl⟩ := State.payloadCopy_ok hp
    rfl
  | decode =>
    rw [exec_decode] at h
    refine result_length_of_commit (fun u parts hp => ?_) h ht
    obtain ⟨v, -, -, -, rfl⟩ := State.decodeRegion_ok hp
    rfl
  | encode =>
    rcases execEncode_cases s with ⟨f, he⟩ | ⟨f, he⟩ | ⟨payload, v, -, -, he⟩ <;> rw [exec, he] at h <;> cases h
    · exact absurd ht (s.raise_status_ne_zero f)
    · rfl

/-! ### The slots of a statement -/

/-- The values of a statement's slots, one for each part of the result (R85). -/
theorem State.length_slotValues {t : State} {dests : List Nat} (h : t.status = 0 → t.result.length = dests.length) :
    (t.slotValues dests).length = dests.length := by
  unfold State.slotValues
  split
  · exact h ‹_›
  · exact List.length_map _

theorem State.getElem?_slotValues {t : State} {dests : List Nat} {k d : Nat} (hk : dests[k]? = some d) :
    (t.slotValues dests)[k]? = if t.status = 0 then t.result[k]? else some (.failed t.status) := by
  unfold State.slotValues
  split
  · rfl
  · rw [List.getElem?_map, hk]
    rfl

/-- What a statement's end does to the slots: its own hold a part of the result or the status each, and no other changes (R85, R90). -/
theorem State.slotGet_retire {t : State} {dests : List Nat} (hd : dests.Nodup)
    (h : t.status = 0 → dests = [] ∨ t.result.length = dests.length) :
    (∀ k d : Nat, dests[k]? = some d →
      slotGet (t.retire dests).slots d = if t.status = 0 then t.result[k]? else some (.failed t.status)) ∧
    ∀ n, n ∉ dests → slotGet (t.retire dests).slots n = slotGet t.slots n := by
  rw [State.retire_slots]
  by_cases hnil : dests = []
  · subst hnil
    simp [slotPutAll]
  · obtain ⟨hown, hother⟩ :=
      slotGet_slotPutAll t.slots hd (State.length_slotValues fun ht => (h ht).resolve_left hnil)
    exact ⟨fun k d hk => by rw [hown k d hk, State.getElem?_slotValues hk], hother⟩

/-- Settles O9: the step is the operation and its end, the operation's result has its row's number of parts, and its status tells
whether a fault is recorded. -/
theorem resultOrStatusGoesIntoTheSlots : Obligations.ResultOrStatusGoesIntoTheSlots := by
  unfold Obligations.ResultOrStatusGoesIntoTheSlots
  intro s t dests code args i values ports hs hf hd hw hr hl he
  obtain ⟨hdests, hnodup, -⟩ := issue_form hd hw
  obtain ⟨hprogram, hpc, hslots⟩ := exec_keepsHost he
  have hstep : step s = .next (t.retire dests) :=
    (step_of_fetch hs hf hw).trans ((issue_eq hd hr hl).trans (by rw [he]))
  have hlength := exec_result_length he
  obtain ⟨hown, hother⟩ := State.slotGet_retire hnodup fun ht => hdests.imp_right fun h => (hlength ht).trans h.symm
  obtain ⟨-, hmove⟩ := State.movesOn_retire dests hprogram hpc
  refine ⟨_, hstep, hlength, hdests, hown, fun n hn => by rw [hother n hn, hslots]; rfl, ?_⟩
  have hfault : (s.present code ports).fault = [] := hs
  obtain ⟨-, hmark, -⟩ := faultMarkIsSticky
  rcases hmark i _ t he with ⟨htf, hlt⟩ | ⟨e, htf, hge, -⟩
  · have hclean : (t.retire dests).fault = [] := by rw [State.retire_fault, htf, hfault]
    exact ⟨fun _ => ⟨hclean, by rw [hmove, if_pos hclean]; rfl⟩, fun h => by omega⟩
  · have hstop : (t.retire dests).fault ≠ [] := by simp [htf]
    exact ⟨fun h => by omega, fun _ => ⟨hstop, by rw [hmove, if_neg hstop]; rfl⟩⟩

/-! ### Ill-formed operands -/

/-- An operation of format V is a view operation. -/
theorem exists_onView_of_formatOf {i : Instr} (hi : formatOf i = .V) (s : State) : ∃ f, exec i s = s.onView f := by
  cases i with
  | vRawId => exact ⟨_, exec_vRawId s⟩
  | vId => exact ⟨_, exec_vId s⟩
  | vFlags => exact ⟨_, exec_vFlags s⟩
  | vDlen => exact ⟨_, exec_vDlen s⟩
  | vBase => exact ⟨_, exec_vBase s⟩
  | vSize => exact ⟨_, exec_vSize s⟩
  | vIsFd => exact ⟨_, exec_vIsFd s⟩
  | vIsExt => exact ⟨_, exec_vIsExt s⟩
  | vIsErr => exact ⟨_, exec_vIsErr s⟩
  | vErrCause => exact ⟨_, exec_vErrCause s⟩
  | vIsRtr => exact ⟨_, exec_vIsRtr s⟩
  | vRegion => exact ⟨_, exec_vRegion s⟩
  | hash => exact ⟨_, exec_hash s⟩
  | render => exact ⟨_, exec_render s⟩
  | _ => cases hi

theorem eq_equals_of_formatOf {i : Instr} (hi : formatOf i = .VV) : i = .equals := by
  cases i with
  | equals => rfl
  | _ => cases hi

theorem mem_copyOps_of_formatOf {i : Instr} (hi : formatOf i = .VC) : i ∈ copyOps := by
  cases i with
  | vCopyBuf | vCopyArr => simp
  | _ => cases hi

theorem raises_of_onView_of_notMem {i : Instr} {s : State} {f : View → Except Failure (List Value)} (he : exec i s = s.onView f)
    (hv : s.ports.view ∉ s.live) : Raises i s 7 (.fault (.illegalView s.ports.view)) :=
  raises_of_exec (he.trans (State.onView_of_not_mem f hv)) rfl

theorem raises_of_onView_of_error {i : Instr} {s : State} {f : View → Except Failure (List Value)} {e : Failure}
    (he : exec i s = s.onView f) (hv : s.ports.view ∈ s.live) (hf : f s.ports.view = .error e) : Raises i s e.code e :=
  raises_of_exec (by rw [he, State.onView_of_mem f hv, hf]; rfl) rfl

theorem raises_of_commit {i : Instr} {s : State} {r : Except Failure (State × List Value)} {f : Failure}
    (he : exec i s = s.commit r) (hr : r = .error f) : Raises i s f.code f :=
  raises_of_exec (by rw [he, hr]; rfl) rfl

/-- A failing ENCODE check (R160, R164). -/
theorem raises_encode {s : State} {f : Failure} (h : s.encodePayload s.ports.src s.ports.offset s.ports.length = .error f) :
    Raises .encode s f.code f := raises_of_exec (execEncode_error h) rfl

theorem State.payloadCopy_illegalView {s : State} {v : View} (hv : v ∉ s.live) (dst dpos dcap : Nat) :
    s.payloadCopy v dst dpos dcap = .error (.fault (.illegalView v)) := if_pos hv

theorem State.payloadCopy_illegalStorage {s : State} {v : View} {dst : Nat} (hv : v ∈ s.live) (hh : s.storages.length ≤ dst)
    (dpos dcap : Nat) : s.payloadCopy v dst dpos dcap = .error (.fault (.illegalStorage dst)) := by
  rw [State.payloadCopy, if_neg (not_not_intro hv), if_pos hh]

/-- The destination check of a payload copy whose other operands are sound (R140, R205). -/
theorem State.payloadCopy_destinationOutOfRange {s : State} {v : View} {dst dpos dcap : Nat} {dlen : Byte} (hs : s.LiveInv)
    (hc : s.Clean) (hv : v ∈ s.live) (hh : dst < s.storages.length) (hd : s.byteAt v.storage (v.base + 4) = some dlen)
    (hr : s.cap dst < dpos + min dlen.toNat dcap) :
    s.payloadCopy v dst dpos dcap = .error (.error (.destinationOutOfRange dst)) := by
  have hsize := (hs.fits hv).size_ge
  obtain ⟨flags, hf⟩ := (hs.fits hv).byte (k := 5) (by omega)
  have hspan := (State.spanOk_iff hd hf).mp (hs.2 hc v hv)
  rw [State.payloadCopy_eq hv hh hd hf, if_neg (by omega), if_pos hr]

/-- Settles O23, clause by clause: each operation's first check is that of its operand. -/
theorem illFormedOperandsAreRefused : Obligations.IllFormedOperandsAreRefused := by
  unfold Obligations.IllFormedOperandsAreRefused
  intro i s
  refine ⟨?_, ?_, ?_, ?_, ?_, ?_, ?_⟩
  · intro hi hv
    obtain ⟨f, he⟩ := exists_onView_of_formatOf hi s
    exact raises_of_onView_of_notMem he hv
  · intro hi hdead
    obtain rfl := eq_equals_of_formatOf hi
    by_cases hv : s.ports.view ∈ s.live
    · have hw : s.ports.view2 ∉ s.live := hdead.resolve_left (not_not_intro hv)
      exact ⟨_, .inr rfl, hw, raises_of_onView_of_error (exec_equals s) hv (if_neg hw)⟩
    · exact ⟨_, .inl rfl, hv, raises_of_onView_of_notMem (exec_equals s) hv⟩
  · intro hi hbad
    have he := exec_copy (mem_copyOps_of_formatOf hi) s
    by_cases hv : s.ports.view ∈ s.live
    · have hdst := hbad.resolve_left (not_not_intro hv)
      exact .inr ⟨hdst, raises_of_commit he (State.payloadCopy_illegalStorage hv hdst _ _)⟩
    · exact .inl ⟨hv, raises_of_commit he (State.payloadCopy_illegalView hv _ _ _)⟩
  · rintro rfl hsrc
    exact raises_encode (if_pos hsrc)
  · rintro rfl hregion
    exact raises_of_commit (exec_decode s) (if_neg (mt (s.regionOk_iff _ _ _).mp hregion))
  · rintro rfl hsrc hrange
    exact raises_encode ((if_neg (Nat.not_le.mpr hsrc)).trans (if_pos hrange))
  · intro dlen hi hs hc hv hdst hd hrange
    exact raises_of_commit (exec_copy (mem_copyOps_of_formatOf hi) s)
      (State.payloadCopy_destinationOutOfRange hs hc hv hdst hd hrange)

/-- Settles O55: the operands are all read, not all of them go on their ports, and so the issue is refused with one that does not. -/
theorem operandsThatDoNotFitTheirPortsAreRefused : Obligations.OperandsThatDoNotFitTheirPortsAreRefused := by
  unfold Obligations.OperandsThatDoNotFitTheirPortsAreRefused
  intro s dests code args i hs hf hd hw hread hbad
  have hd' := (decode_single_iff code i).mp hd
  obtain ⟨values, hv⟩ := readArgs_exists hread
  cases hl : latch values s.ports with
  | ok q =>
    exfalso
    obtain ⟨hnodup, -⟩ := latch_ok hl
    obtain ⟨port, hp, htwice | ⟨o, v, hm, hr, hunfit⟩⟩ := hbad
    · exact (readArgs_nodup hv).mp hnodup port hp htwice
    · exact latch_fits hl (port, v) ((readArgs_ok hv port v).mpr ⟨o, hm, hp, (operandValue_iff s o v).mpr hr⟩) hunfit
  | error e =>
    obtain ⟨hcode, hcause⟩ := latch_error hl
    obtain ⟨-, hnodup, -⟩ := issue_form hd' hw
    obtain ⟨hown, hother⟩ := slotGet_refuseIssue code s hnodup e.code_ne_zero
    have hfault : s.fault = [] := hs
    rw [hcode] at hown
    refine ⟨_, e, step_illegalOperand hs hf hd' hw hv hl, ?_, by simp [hcode], by simp, by simp, by simp [hfault], by simp, by simp,
      by simp, by simp, by simp, by simp, by simp, hown, hother⟩
    rcases hcause with ⟨⟨port, v⟩, hm, he, q, hput⟩ | ⟨port, hcount, he⟩
    · obtain ⟨o, ho, hp, hr⟩ := (readArgs_ok hv port v).mp hm
      exact ⟨port, hp, .inr ⟨o, v, ho, (operandValue_iff s o v).mp hr, (Ports.put_eq_none_iff q port v).mp hput, he⟩⟩
    · obtain ⟨hp, htwice⟩ := readArgs_count hv hcount
      exact ⟨port, hp, .inl ⟨htwice, he⟩⟩

/-! ### Slots that are not read -/

/-- The step at a statement is refused where its run is, whether or not the statement is well formed. -/
theorem step_refused_of_runForm {s : State} {st : Statement} (hs : s.Clean) (hf : s.fetch = some st)
    (h : ∃ r, runForm st s = .refused r) : ∃ r, step s = .refused r := by
  rw [step_of_clean hs, hf]
  dsimp only
  unfold runStatement
  split
  · exact ⟨_, rfl⟩
  · exact h

section
variable {s : State} {n : Nat}

/-! A host action's operand that names such a slot is refused, whatever kind of value it is to be. -/

theorem State.Unreadable.actionNumber (h : s.Unreadable n) : ∃ r, s.actionNumber (.slot n) = .error r := by
  obtain ⟨r, hr⟩ := operandValue_unreadable h
  exact ⟨r, by simp [State.actionNumber, hr]⟩

theorem State.Unreadable.actionHandle (h : s.Unreadable n) : ∃ r, s.actionHandle (.slot n) = .error r := by
  obtain ⟨r, hr⟩ := operandValue_unreadable h
  exact ⟨r, by simp [State.actionHandle, hr]⟩

theorem State.Unreadable.actionView (h : s.Unreadable n) : ∃ r, s.actionView (.slot n) = .error r := by
  obtain ⟨r, hr⟩ := operandValue_unreadable h
  exact ⟨r, by simp [State.actionView, hr]⟩

theorem State.Unreadable.actionBytes (h : s.Unreadable n) : ∃ r, s.actionBytes (.slot n) = .error r := by
  obtain ⟨r, hr⟩ := operandValue_unreadable h
  exact ⟨r, by simp [State.actionBytes, hr]⟩

/-! A host action is refused where one of its operands is. -/

theorem runForm_supply_refused {dest : Option Nat} {co bo : Operand}
    (h : (∃ r, s.actionNumber co = .error r) ∨ ∃ r, s.actionBytes bo = .error r) :
    ∃ r, runForm (.supply dest co bo) s = .refused r := by
  simp only [runForm]
  split
  case h_1 hc hb => simp [hc, hb] at h
  all_goals exact ⟨_, rfl⟩

theorem runForm_hostRead_refused {dest : Option Nat} {so ao no : Operand}
    (h : (∃ r, s.actionHandle so = .error r) ∨ (∃ r, s.actionNumber ao = .error r) ∨ ∃ r, s.actionNumber no = .error r) :
    ∃ r, runForm (.hostRead dest so ao no) s = .refused r := by
  simp only [runForm]
  split
  case h_1 hs ha hn => simp [hs, ha, hn] at h
  all_goals exact ⟨_, rfl⟩

theorem runForm_hostWrite_refused {so ao bo : Operand}
    (h : (∃ r, s.actionHandle so = .error r) ∨ (∃ r, s.actionNumber ao = .error r) ∨ ∃ r, s.actionBytes bo = .error r) :
    ∃ r, runForm (.hostWrite so ao bo) s = .refused r := by
  simp only [runForm]
  split
  case h_1 hs ha hb => simp [hs, ha, hb] at h
  all_goals exact ⟨_, rfl⟩

theorem runForm_drop_refused {vo : Operand} (h : ∃ r, s.actionView vo = .error r) : ∃ r, runForm (.drop vo) s = .refused r := by
  obtain ⟨r, hr⟩ := h
  exact ⟨r, by simp [runForm, hr]⟩

end

/-- An issue is refused where an operand on a port of its format cannot be read. -/
theorem runForm_issue_refused {s : State} {n : Nat} {dests : List Nat} {code : Byte} {args : List (Port × Operand)} {i : Instr}
    {port : Port} (h : s.Unreadable n) (hd : decodeOp code = .ok i) (hp : port ∈ portsOf (formatOf i)) (hm : (port, .slot n) ∈ args) :
    ∃ r, runForm (.issue dests code args) s = .refused r := by
  obtain ⟨_, ho⟩ := operandValue_unreadable h
  obtain ⟨r, hr⟩ := readArgs_error hm hp ho
  exact ⟨r, by simp [runForm, issue, hd, hr]⟩

/-- Settles O56: no operand reads such a slot, and each statement is refused where an operand that it needs is not read. -/
theorem failedAndUnsetSlotsAreNotRead : Obligations.FailedAndUnsetSlotsAreNotRead := by
  unfold Obligations.FailedAndUnsetSlotsAreNotRead
  intro s n hs h
  have hstep (st : Statement) (hf : s.fetch = some st) := step_refused_of_runForm hs hf
  refine ⟨?_, ?_, ?_, ?_, ?_⟩
  · intro dests code args i port hf hd hp hm
    exact hstep _ hf (runForm_issue_refused h ((decode_single_iff code i).mp hd) hp hm)
  · intro dest co bo hf hslot
    refine hstep _ hf (runForm_supply_refused ?_)
    rcases hslot with rfl | rfl
    · exact .inl h.actionNumber
    · exact .inr h.actionBytes
  · intro dest so ao no hf hslot
    refine hstep _ hf (runForm_hostRead_refused ?_)
    rcases hslot with rfl | rfl | rfl
    · exact .inl h.actionHandle
    · exact .inr (.inl h.actionNumber)
    · exact .inr (.inr h.actionNumber)
  · intro so ao bo hf hslot
    refine hstep _ hf (runForm_hostWrite_refused ?_)
    rcases hslot with rfl | rfl | rfl
    · exact .inl h.actionHandle
    · exact .inr (.inl h.actionNumber)
    · exact .inr (.inr h.actionBytes)
  · intro hf
    exact hstep _ hf (runForm_drop_refused h.actionView)

/-! ### The identifier delegations -/

/-- A view operation answers exactly what its read of a live descriptor gives. -/
theorem answers_onView_iff {i : Instr} {s : State} {f : View → Except Failure (List Value)} (he : exec i s = s.onView f)
    (parts : List Value) : Answers i s parts ↔ s.ports.view ∈ s.live ∧ f s.ports.view = .ok parts := by
  refine ⟨fun ⟨t, ht, hstatus, hresult, _⟩ => ?_, fun ⟨hv, hf⟩ => answers_of_onView he hv hf⟩
  rw [he] at ht
  by_cases hv : s.ports.view ∈ s.live
  · rw [State.onView_of_mem f hv] at ht
    rcases s.conclude_cases (f s.ports.view) with ⟨p, hp, hc⟩ | ⟨e, -, hc⟩ <;> rw [hc] at ht <;> cases ht
    · exact ⟨hv, hp.trans (congrArg _ hresult)⟩
    · exact absurd hstatus (s.raise_status_ne_zero e)
  · rw [State.onView_of_not_mem f hv] at ht
    cases ht
    exact absurd hstatus (s.raise_status_ne_zero _)

/-- An operation that is known to answer answers nothing else. -/
theorem Answers.iff_eq {i : Instr} {s : State} {p : List Value} (h : Answers i s p) (q : List Value) : Answers i s q ↔ q = p :=
  ⟨fun h' => answers_unique h' h, fun he => he ▸ h⟩

theorem State.viewRawId_of_viewCodec {s : State} {v : View} {w : Word}
    (h : s.viewCodec (fun _ raw => .word raw) v = .ok [.word w]) : s.viewRawId v = .ok w := by
  cases hr : s.viewRawId v with
  | error f => simp [State.viewCodec, hr, bind, Except.bind] at h
  | ok raw =>
    rw [State.viewCodec_eq _ hr] at h
    cases h
    rfl

/-- An accessor that applies `f` to the identifier word and a codec operation that applies it to `raw` answer alike where `raw` is
that word (R86). -/
theorem delegation_iff {i j : Instr} {s : State} {w : Word} {f : Params → Word → Value} (hw : Answers .vRawId s [.word w])
    (hi : exec i s = s.onView (s.viewCodec f)) (hj : exec j (s.withRaw w) = .next ((s.withRaw w).answer [f s.params w]))
    (parts : List Value) : Answers i s parts ↔ Answers j (s.withRaw w) parts := by
  obtain ⟨hv, hread⟩ := (answers_onView_iff (exec_vRawId s) _).mp hw
  have hanswer : Answers i s [f s.params w] :=
    answers_of_onView hi hv (State.viewCodec_eq f (State.viewRawId_of_viewCodec hread))
  exact (hanswer.iff_eq parts).trans ((answers_of_exec hj).iff_eq parts).symm

/-- Settles O33, each delegation by one and the same argument. -/
theorem delegationsComposeReadAndCodec : Obligations.DelegationsComposeReadAndCodec := by
  unfold Obligations.DelegationsComposeReadAndCodec
  intro s w parts hw
  exact ⟨delegation_iff hw (exec_vId s) rfl parts, delegation_iff hw (exec_vIsExt s) rfl parts,
    delegation_iff hw (exec_vIsErr s) rfl parts, delegation_iff hw (exec_vErrCause s) rfl parts,
    delegation_iff hw (exec_vIsRtr s) rfl parts⟩

end Sys2Proof.Machine
end

section
/-! PROOFS. The family of 40_identifier_codec.md: what each codec operation answers (R100 to R106), and the laws of the identifier word
under R7's values (R107 to R109), bit by bit. -/

namespace Sys2Proof.Machine

/-! ### The states with other codec operands -/

@[simp] theorem State.withRaw_params (s : State) (w : Word) : (s.withRaw w).params = s.params := rfl
@[simp] theorem State.withRaw_raw (s : State) (w : Word) : (s.withRaw w).ports.raw = w := rfl

section
variable (s : State) (ext rtr err : Bool) (v : Word)

@[simp] theorem State.withPack_params : (s.withPack ext rtr err v).params = s.params := rfl
@[simp] theorem State.withPack_packExt : (s.withPack ext rtr err v).ports.packExt = ext := rfl
@[simp] theorem State.withPack_packRtr : (s.withPack ext rtr err v).ports.packRtr = rtr := rfl
@[simp] theorem State.withPack_packErr : (s.withPack ext rtr err v).ports.packErr = err := rfl
@[simp] theorem State.withPack_packValue : (s.withPack ext rtr err v).ports.packValue = v := rfl

end

/-! ### What each codec operation answers -/

theorem answers_idNumeric (s : State) : Answers .idNumeric s [.word (idNumeric s.params s.ports.raw)] := answers_of_exec rfl
theorem answers_idIsExt (s : State) : Answers .idIsExt s [.bool (idIsExt s.params s.ports.raw)] := answers_of_exec rfl
theorem answers_idIsErr (s : State) : Answers .idIsErr s [.bool (idIsErr s.params s.ports.raw)] := answers_of_exec rfl
theorem answers_idIsRtr (s : State) : Answers .idIsRtr s [.bool (idIsRtr s.params s.ports.raw)] := answers_of_exec rfl
theorem answers_idErrCause (s : State) : Answers .idErrCause s [.word (idErrCause s.params s.ports.raw)] := answers_of_exec rfl
theorem answers_idPack (s : State) :
    Answers .idPack s [.word (idPack s.params s.ports.packExt s.ports.packRtr s.ports.packErr s.ports.packValue)] :=
  answers_of_exec rfl

/-- Settles O27: the answers above name only the parameters and the codec operands. -/
theorem codecOperationsArePure : Obligations.CodecOperationsArePure := by
  unfold Obligations.CodecOperationsArePure
  intro i s s' hi hparams hraw hext hrtr herr hvalue
  have hnumeric := answers_idNumeric s'
  have hisExt := answers_idIsExt s'
  have hisErr := answers_idIsErr s'
  have hisRtr := answers_idIsRtr s'
  have hcause := answers_idErrCause s'
  have hpack := answers_idPack s'
  rw [hparams, hraw] at hnumeric hisExt hisErr hisRtr hcause
  rw [hparams, hext, hrtr, herr, hvalue] at hpack
  cases i with
  | idNumeric => exact ⟨_, answers_idNumeric s, hnumeric⟩
  | idIsExt => exact ⟨_, answers_idIsExt s, hisExt⟩
  | idIsErr => exact ⟨_, answers_idIsErr s, hisErr⟩
  | idIsRtr => exact ⟨_, answers_idIsRtr s, hisRtr⟩
  | idErrCause => exact ⟨_, answers_idErrCause s, hcause⟩
  | idPack => exact ⟨_, answers_idPack s, hpack⟩
  | _ => simp at hi

/-- Settles O26: the model's composition is R106's. -/
theorem packComposesTheWord : Obligations.PackComposesTheWord := ⟨rfl, answers_idPack⟩

/-! ### The flag tests and the extractions -/

/-- Under R7's values the error cause is the low 29 bits (R73). -/
theorem idErrCause_eq {p : Params} (hp : DefaultIds p) (w : Word) : idErrCause p w = w &&& 0x1FFFFFFF := by
  obtain ⟨-, -, -, -, -, herr⟩ := hp
  rw [idErrCause, herr]

/-- Settles O24: the tests are the model's, and R7's flags are single bits. -/
theorem flagTestsReadTheirFlag : Obligations.FlagTestsReadTheirFlag := by
  unfold Obligations.FlagTestsReadTheirFlag
  refine ⟨rfl, rfl, rfl, fun s => ?_⟩
  simp only [← word_bne_eq_decide]
  refine ⟨answers_idIsExt s, answers_idIsRtr s, answers_idIsErr s, fun hp => ?_⟩
  rw [← idIsExt_eq hp, ← idIsRtr_eq hp, ← idIsErr_eq hp]
  exact ⟨answers_idIsExt s, answers_idIsRtr s, answers_idIsErr s⟩

/-- Settles O25: under R7's values the masks keep the low 29 and the low 11 bits. -/
theorem numericIdAndCauseAreMaskedOut : Obligations.NumericIdAndCauseAreMaskedOut := by
  unfold Obligations.NumericIdAndCauseAreMaskedOut
  refine ⟨rfl, rfl, fun s => ⟨?_, answers_idErrCause s, fun hp => ?_⟩⟩
  · simpa [idNumeric] using answers_idNumeric s
  · rw [← and_mask29, ← and_mask11, ← idNumeric_eq hp, ← idErrCause_eq hp]
    exact ⟨answers_idNumeric s, answers_idErrCause s⟩

/-! ### The width of the numeric id -/

/-- Settles O28: in either mode the numeric id is masked by that mode's mask. -/
theorem numericIdFitsItsMode : Obligations.NumericIdFitsItsMode := by
  unfold Obligations.NumericIdFitsItsMode
  intro s hp
  refine ⟨_, _, answers_idIsExt s, answers_idNumeric s, fun hext => ?_, fun hext => ?_⟩
  all_goals rw [idIsExt_eq hp] at hext
  · rw [idNumeric_eq hp, if_pos hext, BitVec.toNat_and]
    exact Nat.and_lt_two_pow _ (by decide)
  · rw [idNumeric_eq hp, if_neg (ne_true_of_eq_false hext), BitVec.toNat_and]
    exact Nat.and_lt_two_pow _ (by decide)

/-! ### Flipping a flag bit -/

/-- Flipping a bit flips that bit of the word and no other. -/
theorem getLsbD_xor_twoPow (w : Word) {j : Nat} (k : Nat) (hj : j < 32) :
    (w ^^^ BitVec.twoPow 32 k).getLsbD j = (w.getLsbD j ^^ decide (k = j)) := by
  have h : (decide (k < 32) && decide (k = j)) = decide (k = j) := by
    by_cases hkj : k = j <;> simp [hkj, hj]
  rw [BitVec.getLsbD_xor, BitVec.getLsbD_twoPow, h]

theorem getLsbD_xor_twoPow_same (w : Word) {k : Nat} (hk : k < 32) : (w ^^^ BitVec.twoPow 32 k).getLsbD k = !w.getLsbD k := by
  rw [getLsbD_xor_twoPow w k hk, decide_eq_true rfl, Bool.xor_true]

theorem getLsbD_xor_twoPow_ne (w : Word) {j k : Nat} (hj : j < 32) (h : k ≠ j) :
    (w ^^^ BitVec.twoPow 32 k).getLsbD j = w.getLsbD j := by
  rw [getLsbD_xor_twoPow w k hj, decide_eq_false h, Bool.xor_false]

/-- A mask without the flipped bit does not see the flip. -/
theorem xor_twoPow_and (w m : Word) {k : Nat} (h : m.getLsbD k = false) : (w ^^^ BitVec.twoPow 32 k) &&& m = w &&& m := by
  apply BitVec.eq_of_getLsbD_eq
  intro j hj
  rw [BitVec.getLsbD_and, BitVec.getLsbD_and]
  by_cases hkj : k = j
  · rw [← hkj, h, Bool.and_false, Bool.and_false]
  · rw [getLsbD_xor_twoPow_ne w hj hkj]

section
variable {p : Params} (hp : DefaultIds p) (w : Word) {k : Nat}
include hp

/-! What a codec function gives of a word with a bit flipped that it does not read. -/

theorem idIsExt_xor_twoPow (hk : k ≠ 31) : idIsExt p (w ^^^ BitVec.twoPow 32 k) = idIsExt p w := by
  rw [idIsExt_eq hp, idIsExt_eq hp, getLsbD_xor_twoPow_ne w (by omega) hk]

theorem idIsRtr_xor_twoPow (hk : k ≠ 30) : idIsRtr p (w ^^^ BitVec.twoPow 32 k) = idIsRtr p w := by
  rw [idIsRtr_eq hp, idIsRtr_eq hp, getLsbD_xor_twoPow_ne w (by omega) hk]

theorem idIsErr_xor_twoPow (hk : k ≠ 29) : idIsErr p (w ^^^ BitVec.twoPow 32 k) = idIsErr p w := by
  rw [idIsErr_eq hp, idIsErr_eq hp, getLsbD_xor_twoPow_ne w (by omega) hk]

theorem idErrCause_xor_twoPow (hk : 29 ≤ k) : idErrCause p (w ^^^ BitVec.twoPow 32 k) = idErrCause p w := by
  rw [idErrCause_eq hp, idErrCause_eq hp, xor_twoPow_and w _ (by rw [getLsbD_mask29, decide_eq_false (by omega)])]

theorem idNumeric_xor_twoPow (hk : 29 ≤ k) (hk' : k ≠ 31) : idNumeric p (w ^^^ BitVec.twoPow 32 k) = idNumeric p w := by
  rw [idNumeric_eq hp, idNumeric_eq hp, getLsbD_xor_twoPow_ne w (by omega) hk',
    xor_twoPow_and w _ (by rw [getLsbD_mask29, decide_eq_false (by omega)]),
    xor_twoPow_and w _ (by rw [getLsbD_mask11, decide_eq_false (by omega)])]

/-! And of a word with its own flag flipped. -/

theorem idIsExt_xor_flag : idIsExt p (w ^^^ BitVec.twoPow 32 31) = !idIsExt p w := by
  rw [idIsExt_eq hp, idIsExt_eq hp, getLsbD_xor_twoPow_same w (by omega)]

theorem idIsRtr_xor_flag : idIsRtr p (w ^^^ BitVec.twoPow 32 30) = !idIsRtr p w := by
  rw [idIsRtr_eq hp, idIsRtr_eq hp, getLsbD_xor_twoPow_same w (by omega)]

theorem idIsErr_xor_flag : idIsErr p (w ^^^ BitVec.twoPow 32 29) = !idIsErr p w := by
  rw [idIsErr_eq hp, idIsErr_eq hp, getLsbD_xor_twoPow_same w (by omega)]

end

/-- An operation that computes `f` of `raw` answers alike of a word of which `f` gives the same. -/
theorem answers_withRaw {i : Instr} {s : State} {w : Word} {f : Params → Word → Value}
    (hi : ∀ t : State, Answers i t [f t.params t.ports.raw]) (hf : f s.params w = f s.params s.ports.raw) {parts : List Value}
    (h : Answers i s parts) : Answers i (s.withRaw w) parts := by
  rw [answers_unique h (hi s), ← hf]
  exact hi (s.withRaw w)

/-- A test that is negated by another word on `raw` answers the negation of what it answered. -/
theorem answers_withRaw_not {i : Instr} {s : State} {w : Word} {f : Params → Word → Bool}
    (hi : ∀ t : State, Answers i t [.bool (f t.params t.ports.raw)]) (hf : f s.params w = !f s.params s.ports.raw) {b : Bool}
    (h : Answers i s [.bool b]) : Answers i (s.withRaw w) [.bool (!b)] := by
  have hb : b = f s.params s.ports.raw := by simpa using answers_unique h (hi s)
  rw [hb, ← hf]
  exact hi (s.withRaw w)

/-- Settles O29: each codec function reads its own flag bit and bits below 29, and ID_NUMERIC the EFF bit too. -/
theorem flagBitsAreOrthogonal : Obligations.FlagBitsAreOrthogonal := by
  unfold Obligations.FlagBitsAreOrthogonal
  intro s parts hp
  simp only [rtrFlag_eq, errFlag_eq, effFlag_eq, List.forall_mem_cons, List.not_mem_nil, false_implies, implies_true, and_true]
  have hext {k : Nat} (hk : k ≠ 31) := answers_withRaw (f := fun p w => .bool (idIsExt p w)) (parts := parts) answers_idIsExt
    (congrArg Value.bool (idIsExt_xor_twoPow hp s.ports.raw hk))
  have hrtr {k : Nat} (hk : k ≠ 30) := answers_withRaw (f := fun p w => .bool (idIsRtr p w)) (parts := parts) answers_idIsRtr
    (congrArg Value.bool (idIsRtr_xor_twoPow hp s.ports.raw hk))
  have herr {k : Nat} (hk : k ≠ 29) := answers_withRaw (f := fun p w => .bool (idIsErr p w)) (parts := parts) answers_idIsErr
    (congrArg Value.bool (idIsErr_xor_twoPow hp s.ports.raw hk))
  have hcause {k : Nat} (hk : 29 ≤ k) := answers_withRaw (f := fun p w => .word (idErrCause p w)) (parts := parts)
    answers_idErrCause (congrArg Value.word (idErrCause_xor_twoPow hp s.ports.raw hk))
  have hnumeric {k : Nat} (hk : 29 ≤ k) (hk' : k ≠ 31) := answers_withRaw (f := fun p w => .word (idNumeric p w))
    (parts := parts) answers_idNumeric (congrArg Value.word (idNumeric_xor_twoPow hp s.ports.raw hk hk'))
  exact ⟨⟨hext (by omega), herr (by omega), hnumeric (by omega) (by omega), hcause (by omega)⟩,
    ⟨hext (by omega), hrtr (by omega), hnumeric (by omega) (by omega), hcause (by omega)⟩,
    ⟨hrtr (by omega), herr (by omega), hcause (by omega)⟩,
    fun b => answers_withRaw_not answers_idIsRtr (idIsRtr_xor_flag hp _),
    fun b => answers_withRaw_not answers_idIsErr (idIsErr_xor_flag hp _),
    fun b => answers_withRaw_not answers_idIsExt (idIsExt_xor_flag hp _)⟩

/-! ### The round trip -/

/-- Bits 28:11 of a word are zero as a field exactly when each of them is. -/
theorem extractLsb'_11_18_eq_zero_iff (w : Word) :
    w.extractLsb' 11 18 = 0 ↔ ∀ k, 11 ≤ k → k < 29 → w.getLsbD k = false := by
  refine BitVec.zero_iff_eq_false.trans ⟨fun h k hk hk' => ?_, fun h k => ?_⟩
  · have hbit := h (k - 11)
    rw [BitVec.getLsbD_extractLsb', Nat.add_sub_cancel' hk] at hbit
    simpa [show k - 11 < 18 by omega] using hbit
  · rw [BitVec.getLsbD_extractLsb']
    by_cases hk : k < 18
    · rw [h (11 + k) (by omega) (by omega), Bool.and_false]
    · simp [hk]

section
variable {p : Params} (hp : DefaultIds p)
include hp

/-- The numeric id keeps the low 11 bits of the word, and in extended mode the low 29. -/
theorem getLsbD_idNumeric_low (w : Word) {k : Nat} (hk : k < 29) :
    (idNumeric p w).getLsbD k = (w.getLsbD k && (decide (k < 11) || idIsExt p w)) := by
  rw [idNumeric_eq hp, ← idIsExt_eq hp]
  cases idIsExt p w
  · rw [if_neg Bool.false_ne_true, BitVec.getLsbD_and, getLsbD_mask11, Bool.or_false]
  · rw [if_pos rfl, BitVec.getLsbD_and, getLsbD_mask29, decide_eq_true hk, Bool.or_true]

/-! The unpacking of a packed word. -/

theorem idIsExt_idPack (ext rtr err : Bool) (v : Word) : idIsExt p (idPack p ext rtr err v) = ext := by
  rw [idIsExt_eq hp, getLsbD_idPack hp _ _ _ _ (by omega), if_pos rfl]

theorem idIsRtr_idPack (ext rtr err : Bool) (v : Word) : idIsRtr p (idPack p ext rtr err v) = rtr := by
  rw [idIsRtr_eq hp, getLsbD_idPack hp _ _ _ _ (by omega), if_neg (by omega), if_pos rfl]

theorem idIsErr_idPack (ext rtr err : Bool) (v : Word) : idIsErr p (idPack p ext rtr err v) = err := by
  rw [idIsErr_eq hp, getLsbD_idPack hp _ _ _ _ (by omega), if_neg (by omega), if_neg (by omega), if_pos rfl]

/-- The low 29 bits of a packed word are those of the masked value. -/
theorem getLsbD_idPack_low (ext rtr err : Bool) (v : Word) {k : Nat} (hk : k < 29) :
    (idPack p ext rtr err v).getLsbD k = (v.getLsbD k && (decide (k < 11) || ext || err)) := by
  rw [getLsbD_idPack hp _ _ _ _ (by omega), if_neg (by omega), if_neg (by omega), if_neg (by omega)]

/-- A mask that lies within the mask packed with does not tell a packed word from its value. -/
theorem idPack_and_mask (ext rtr err : Bool) (v : Word) {m : Word}
    (hm : ∀ k, m.getLsbD k = true → k < 29 ∧ (decide (k < 11) || ext || err) = true) : idPack p ext rtr err v &&& m = v &&& m := by
  apply BitVec.eq_of_getLsbD_eq
  intro k _
  rw [BitVec.getLsbD_and, BitVec.getLsbD_and]
  cases hk : m.getLsbD k
  · rw [Bool.and_false, Bool.and_false]
  · obtain ⟨hlow, hmask⟩ := hm k hk
    rw [getLsbD_idPack_low hp _ _ _ _ hlow, hmask, Bool.and_true]

/-- The numeric id of a word packed without ERR is the value under the mode's mask. -/
theorem idNumeric_idPack (ext rtr : Bool) (v : Word) :
    idNumeric p (idPack p ext rtr false v) = v &&& (if ext then 0x1FFFFFFF else 0x000007FF) := by
  rw [idNumeric_eq hp, ← idIsExt_eq hp, idIsExt_idPack hp]
  cases ext
  · refine idPack_and_mask hp false rtr false v fun k hk => ?_
    rw [getLsbD_mask11] at hk
    have hk := of_decide_eq_true hk
    exact ⟨by omega, by simp [hk]⟩
  · refine idPack_and_mask hp true rtr false v fun k hk => ?_
    rw [getLsbD_mask29] at hk
    exact ⟨of_decide_eq_true hk, by simp⟩

/-- The error cause of a word packed with ERR is the value under the error mask. -/
theorem idErrCause_idPack (ext rtr : Bool) (v : Word) : idErrCause p (idPack p ext rtr true v) = v &&& 0x1FFFFFFF := by
  rw [idErrCause_eq hp]
  refine idPack_and_mask hp ext rtr true v fun k hk => ?_
  rw [getLsbD_mask29] at hk
  exact ⟨of_decide_eq_true hk, by simp⟩

/-- Packing what is read of a word keeps its low bits, but in standard mode not its bits 28:11. -/
theorem getLsbD_repack_low (w : Word) {k : Nat} (hk : k < 29) :
    (idPack p (idIsExt p w) (idIsRtr p w) false (idNumeric p w)).getLsbD k =
      (w.getLsbD k && (decide (k < 11) || idIsExt p w)) := by
  rw [getLsbD_idPack_low hp _ _ _ _ hk, getLsbD_idNumeric_low hp w hk, Bool.or_false, Bool.and_assoc, Bool.and_self]

/-- Packing what is read of a word is the word exactly when nothing is lost (R109). -/
theorem repack_eq_iff (w : Word) :
    idPack p (idIsExt p w) (idIsRtr p w) false (idNumeric p w) = w ↔
      idIsErr p w = false ∧ (idIsExt p w = false → w.extractLsb' 11 18 = 0) := by
  rw [extractLsb'_11_18_eq_zero_iff]
  constructor
  · intro h
    refine ⟨?_, fun hext k hk hk' => ?_⟩
    · rw [← h, idIsErr_idPack hp]
    · have hbit := getLsbD_repack_low hp w hk'
      rwa [h, hext, decide_eq_false (by omega), Bool.or_false, Bool.and_false] at hbit
  · intro ⟨herr, hlow⟩
    apply BitVec.eq_of_getLsbD_eq
    intro k _
    obtain hk | rfl | rfl | rfl : k < 29 ∨ k = 29 ∨ k = 30 ∨ k = 31 := by omega
    · rw [getLsbD_repack_low hp w hk]
      by_cases hk' : k < 11
      · simp [hk']
      · cases hext : idIsExt p w
        · rw [hlow hext k (by omega) hk, Bool.false_and]
        · rw [Bool.or_true, Bool.and_true]
    · rw [← idIsErr_eq hp, ← idIsErr_eq hp, idIsErr_idPack hp, herr]
    · rw [← idIsRtr_eq hp, ← idIsRtr_eq hp, idIsRtr_idPack hp]
    · rw [← idIsExt_eq hp, ← idIsExt_eq hp, idIsExt_idPack hp]

end

/-- Settles O30: the round trips of the codec functions, and that ID_PACK answers one word. -/
theorem packAndUnpackAreInverse : Obligations.PackAndUnpackAreInverse := by
  unfold Obligations.PackAndUnpackAreInverse
  intro s hp
  refine ⟨⟨_, answers_idPack s, ?_, ?_, ?_, ?_, ?_⟩, _, _, _, _, answers_idIsExt s, answers_idIsRtr s, answers_idIsErr s,
    answers_idNumeric s, ?_⟩
  · rw [(answers_idIsExt _).iff_eq]
    simp [idIsExt_idPack hp]
  · rw [(answers_idIsRtr _).iff_eq]
    simp [idIsRtr_idPack hp]
  · rw [(answers_idIsErr _).iff_eq]
    simp [idIsErr_idPack hp]
  · intro herr
    rw [(answers_idNumeric _).iff_eq]
    simp [herr, idNumeric_idPack hp]
  · intro herr
    rw [(answers_idErrCause _).iff_eq]
    simp [herr, idErrCause_idPack hp]
  · rw [(answers_idPack _).iff_eq, ← repack_eq_iff hp]
    simp [eq_comm]

end Sys2Proof.Machine
end

section
/-! PROOFS. The family of 41_frame_view.md: what the accessors read through a live descriptor (R121 to R132, R143), that they change
nothing (R120), and the checks and the effect of a payload copy (R140 to R142). -/

namespace Sys2Proof.Machine

/-! ### Views that are not live -/

/-- Operations of format V refuse a view that is not live (R24, R120). -/
theorem raises_illegalView {ops : List Instr} (hops : ∀ i ∈ ops, formatOf i = .V) (s : State) (hv : s.ports.view ∉ s.live) :
    ∀ i ∈ ops, Raises i s 7 (.fault (.illegalView s.ports.view)) := by
  intro i hi
  obtain ⟨f, he⟩ := exists_onView_of_formatOf (hops i hi) s
  exact raises_of_onView_of_notMem he hv

/-! ### The frame of the view operations -/

/-- Settles O36, by the inversion of `exec`: what is neither a copy nor a construction answers or fails. -/
theorem viewOperationsChangeNothing : Obligations.ViewOperationsChangeNothing := by
  unfold Obligations.ViewOperationsChangeNothing
  intro i s t hi h
  cases exec_effect h with
  | answered _ parts => simp [State.Keeps]
  | failed _ f => simp [State.Keeps]
  | copied _ hcopy bytes st hst hr hm => rcases hcopy with rfl | rfl <;> simp at hi
  | decoded v hr hv => simp at hi
  | encoded payload v hp hv => simp at hi

/-! ### The accessors -/

/-- Settles O35: the geometry accessors read the descriptor alone. -/
theorem geometryIsTheDescriptors : Obligations.GeometryIsTheDescriptors := by
  unfold Obligations.GeometryIsTheDescriptors
  refine ⟨rfl, rfl, rfl, raises_illegalView (by decide), fun s hv => ⟨?_, ?_, ?_, fun hs => (hs.fits hv).1⟩⟩
  · exact answers_of_onView (exec_vBase s) hv rfl
  · exact answers_of_onView (exec_vSize s) hv rfl
  · exact answers_of_onView (exec_vRegion s) hv rfl

/-- An identifier accessor answers its codec function of the identifier word (R86). -/
theorem answers_of_viewRawId {i : Instr} {s : State} {w : Word} {f : Params → Word → Value}
    (hw : s.viewRawId s.ports.view = .ok w) (hv : s.ports.view ∈ s.live) (he : exec i s = s.onView (s.viewCodec f)) :
    Answers i s [f s.params w] := answers_of_onView he hv (State.viewCodec_eq f hw)

/-- Settles O32: the identifier word of a live view is read once, and each accessor applies its codec function to it. -/
theorem identifierAccessorsReadThrough : Obligations.IdentifierAccessorsReadThrough := by
  unfold Obligations.IdentifierAccessorsReadThrough
  refine ⟨rfl, rfl, rfl, rfl, rfl, rfl, raises_illegalView (by decide), fun s hs hv => ?_⟩
  obtain ⟨b0, b1, b2, b3, h0, h1, h2, h3, hw⟩ := (hs.fits hv).rawId
  exact ⟨b0, b1, b2, b3, _, h0, h1, h2, h3, rfl, answers_of_viewRawId hw hv (exec_vRawId s),
    answers_of_viewRawId hw hv (exec_vId s), answers_of_viewRawId hw hv (exec_vIsExt s),
    answers_of_viewRawId hw hv (exec_vIsErr s), answers_of_viewRawId hw hv (exec_vErrCause s),
    answers_of_viewRawId hw hv (exec_vIsRtr s)⟩

/-- The two bytes of a descriptor that fits from which the FD classification and the span check are computed (R130, R140). -/
theorem View.Fits.flagsDlen {v : View} {s : State} (h : v.Fits s) :
    ∃ flags dlen, s.byteAt v.storage (v.base + 5) = some flags ∧ s.byteAt v.storage (v.base + 4) = some dlen := by
  have hsize := h.size_ge
  obtain ⟨flags, hf⟩ := h.byte (k := 5) (by omega)
  obtain ⟨dlen, hd⟩ := h.byte (k := 4) (by omega)
  exact ⟨flags, dlen, hf, hd⟩

theorem fdClass_eq_decide (flags dlen : Byte) : fdClass flags dlen = decide (flags ≠ 0 ∨ 8 < dlen.toNat) := by
  rw [Bool.eq_iff_iff]
  simp [fdClass]

/-- Settles O34: the two bytes are read whole, and R130's test is computed from them. -/
theorem flagsLengthAndFdClassReadThrough : Obligations.FlagsLengthAndFdClassReadThrough := by
  unfold Obligations.FlagsLengthAndFdClassReadThrough
  refine ⟨rfl, rfl, rfl, raises_illegalView (by decide), fun s hs hv => ?_⟩
  obtain ⟨flags, dlen, hf, hd⟩ := (hs.fits hv).flagsDlen
  refine ⟨flags, dlen, hf, hd, answers_of_onView (exec_vFlags s) hv ?_, answers_of_onView (exec_vDlen s) hv ?_,
    answers_of_onView (exec_vIsFd s) hv ?_⟩
  · rw [State.viewFlags_eq hf]
    rfl
  · rw [State.viewDlen_eq hd]
    rfl
  · rw [State.viewIsFd_eq hd hf, fdClass_eq_decide]
    rfl

/-! ### The payload copies -/

/-- Bytes meet a live region exactly when there are any and they overlap it (R140). -/
theorem State.meetsLive_iff_overlap (s : State) (h a n : Nat) :
    s.meetsLive h a n = true ↔ n > 0 ∧ ∃ w ∈ s.live, w.storage = h ∧ a < w.base + w.size ∧ w.base < a + n := by
  simp only [State.meetsLive_iff, View.meets_iff]
  constructor
  · rintro ⟨w, hw, hh, hn, ha, hb⟩
    exact ⟨hn, w, hw, hh, ha, hb⟩
  · rintro ⟨hn, w, hw, hh, ha, hb⟩
    exact ⟨w, hw, hh, hn, ha, hb⟩

/-- A payload copy that passes its checks reads exactly the clipped payload and writes it to the destination (R140): the payload lies
inside the region, so the read cannot fail. -/
theorem State.payloadCopy_passed {s : State} {v : View} {dst dpos dcap : Nat} {dlen flags : Byte} (hfits : v.Fits s)
    (hv : v ∈ s.live) (hh : dst < s.storages.length) (hd : s.byteAt v.storage (v.base + 4) = some dlen)
    (hf : s.byteAt v.storage (v.base + 5) = some flags)
    (hspan : ¬ (v.size < 8 + dlen.toNat ∨ effMaxLength flags dlen < dlen.toNat))
    (hcap : ¬ s.cap dst < dpos + min dlen.toNat dcap) (hmeets : ¬ s.meetsLive dst dpos (min dlen.toNat dcap) = true) :
    ∃ bytes st, s.memRead v.storage (v.base + 8) (min dlen.toNat dcap) = .ok bytes ∧ s.storages[dst]? = some st ∧
      dpos + bytes.length ≤ st.cap ∧
      s.payloadCopy v dst dpos dcap =
        .ok (s.setStorage dst ⟨st.cap, st.mem.writeBytes dpos bytes⟩, [.nat (min dlen.toNat dcap)]) := by
  have hregion := hfits.2
  obtain ⟨bytes, hread⟩ := State.memRead_exists (n := min dlen.toNat dcap) (a := v.base + 8) hfits.lt_length (by omega)
  have hlen := (State.memRead_ok hread).1
  obtain ⟨st, hst, hroom, hwrite⟩ := State.memWrite_exists (a := dpos) (l := bytes) hh (by omega)
  refine ⟨bytes, st, hread, hst, hroom, ?_⟩
  rw [State.payloadCopy_eq hv hh hd hf, if_neg hspan, if_neg hcap, if_neg hmeets, hread]
  simp only [hwrite]

/-- Settles O38: the checks of `payloadCopy_eq` in their order, and the bytes of `payloadCopy_passed`. -/
theorem copiesClipCheckAndCopy : Obligations.CopiesClipCheckAndCopy := by
  unfold Obligations.CopiesClipCheckAndCopy
  refine ⟨rfl, rfl, fun s hv _ i hi => raises_of_commit (exec_copy hi s) (State.payloadCopy_illegalView hv _ _ _), ?_⟩
  intro i s hi hs hw hv hdst
  have he := exec_copy hi s
  have hfits := hs.fits hv
  obtain ⟨flags, dlen, hf, hd⟩ := hfits.flagsDlen
  have hchecks := State.payloadCopy_eq (dpos := s.ports.dpos) (dcap := s.ports.dcap) hv hdst hd hf
  have hmax := effMaxLength_eq_maxLength flags dlen
  refine ⟨flags, dlen, _, hf, hd, rfl, fun hclean => ?_, ?_⟩
  · rw [← hmax]
    exact ((State.spanOk_iff hd hf).mp (hs.2 hclean _ hv)).symm
  simp only [gt_iff_lt, ← hmax, ← State.meetsLive_iff_overlap]
  split_ifs with hspan hcap hmeets
  · exact raises_of_commit he (by rw [hchecks, if_pos hspan])
  · exact raises_of_commit he (by rw [hchecks, if_neg hspan, if_pos hcap])
  · exact raises_of_commit he (by rw [hchecks, if_neg hspan, if_neg hcap, if_pos hmeets])
  · obtain ⟨bytes, st, hread, hst, hroom, hcopy⟩ := State.payloadCopy_passed hfits hv hdst hd hf hspan hcap hmeets
    obtain ⟨hlen, hpayload⟩ := State.memRead_ok hread
    refine ⟨_, he.trans (congrArg s.commit hcopy), rfl, rfl, rfl, rfl, fun k hk => ?_, fun h a hout => ?_⟩
    · have hk' : k < bytes.length := by omega
      rw [State.answer_byteAt, State.write_byteAt_of_inside hst (Storage.mem_wf (hw.storage hst)) hroom hk', hpayload k hk,
        List.getElem?_eq_getElem hk']
    · rw [← hlen] at hout
      exact State.write_byteAt_of_outside hst _ _ hout

end Sys2Proof.Machine
end

section
/-! PROOFS. The family of 42_frame_factory.md: every operation answers (R163), DECODE's verdicts (R151 to R157), what ENCODE builds
(R160 to R164), and the round trip from ENCODE through the accessors, a copy and a later DECODE (R165). -/

namespace Sys2Proof.Machine

/-! ### Every operation answers -/

theorem State.conclude_next (s : State) (r : Except Failure (List Value)) : ∃ t, s.conclude r = .next t := by
  rcases s.conclude_cases r with ⟨parts, -, h⟩ | ⟨f, -, h⟩ <;> exact ⟨_, h⟩

theorem State.commit_next (s : State) (r : Except Failure (State × List Value)) : ∃ t, s.commit r = .next t := by
  rcases s.commit_cases r with ⟨t, parts, -, h⟩ | ⟨f, -, h⟩ <;> exact ⟨_, h⟩

/-- ENCODE fails by its argument checks or answers: the frame that it built passes its own re-validation (R163). -/
theorem exec_encode_next (s : State) : ∃ t, exec .encode s = .next t := by
  cases hp : s.encodePayload s.ports.src s.ports.offset s.ports.length with
  | error f => exact ⟨_, execEncode_error hp⟩
  | ok payload => exact ⟨_, execEncode_ok hp⟩

/-- Settles O22, by the end that each operation has: ENCODE's own, `commit`, a codec operation's answer, or `onView`, which is a
`conclude`. -/
theorem everyOperationAnswers : Obligations.EveryOperationAnswers := by
  unfold Obligations.EveryOperationAnswers
  intro i s
  cases i with
  | encode => exact exec_encode_next s
  | vCopyBuf | vCopyArr | decode => exact s.commit_next _
  | idNumeric | idIsExt | idIsErr | idIsRtr | idErrCause | idPack => exact ⟨_, rfl⟩
  | vRawId | vId | vFlags | vDlen | vBase | vSize | vIsFd | vIsExt | vIsErr | vErrCause | vIsRtr | vRegion | equals | hash
  | render => exact s.conclude_next _

/-! ### DECODE -/

theorem State.validate_invalidLength {s : State} {h base limit : Nat} (hsize : limit - base ≠ 16 ∧ limit - base ≠ 72) :
    s.validate h base limit = .error (.error (.invalidLength (limit - base))) := if_pos hsize

/-- DECODE of a well-formed region fails as VALIDATE does (R151). -/
theorem raises_decode_of_validate {s : State} {f : Failure}
    (hr : s.regionOk s.ports.s s.ports.base s.ports.limit = true)
    (hv : s.validate s.ports.s s.ports.base s.ports.limit = .error f) : Raises .decode s f.code f :=
  raises_of_commit (exec_decode s) (by rw [State.decodeRegion, if_pos hr, hv]; rfl)

/-- DECODE of a well-formed region that VALIDATE accepts makes its view live (R155, R156). -/
theorem exec_decode_of_validate {s : State} {v : View} (hr : s.regionOk s.ports.s s.ports.base s.ports.limit = true)
    (hv : s.validate s.ports.s s.ports.base s.ports.limit = .ok v) :
    exec .decode s = .next ((s.addLive v).answer [.view v]) := by
  rw [exec_decode, State.decodeRegion, if_pos hr, hv]
  rfl

/-- A descriptor with the next tag is not yet live (log entry 3). -/
theorem State.TagsRise.notMem {s : State} (hs : s.TagsRise) {v : View} (hv : v.tag = s.nextTag) : v ∉ s.live :=
  fun hmem => (hs.1 v hmem).ne hv

/-- The data length passes R131's maximum exactly when it is at most 64 (R153). -/
theorem maxLength_lt_iff (flags dlen : Byte) : maxLength flags dlen < dlen.toNat ↔ 64 < dlen.toNat := by
  rw [← effMaxLength_eq_maxLength, effMaxLength_lt_iff]

/-- Settles O40: DECODE's own check of the region, then those of `validate_eq` in their order. -/
theorem decodeChecksInOrder : Obligations.DecodeChecksInOrder := by
  unfold Obligations.DecodeChecksInOrder
  refine ⟨rfl, fun s => ⟨fun hbad => ?_, fun hs hle hcap => ?_⟩⟩
  · exact raises_of_commit (exec_decode s) (if_neg (mt (s.regionOk_iff _ _ _).mp hbad))
  have hr := (s.regionOk_iff _ _ _).mpr ⟨hs, hle, hcap⟩
  refine ⟨fun hsize => raises_decode_of_validate hr (State.validate_invalidLength hsize), fun hsize => ?_⟩
  obtain ⟨flags, hf⟩ := s.exists_byteAt (h := s.ports.s) (a := s.ports.base + 5) (by omega)
  obtain ⟨dlen, hd⟩ := s.exists_byteAt (h := s.ports.s) (a := s.ports.base + 4) (by omega)
  have hchecks := State.validate_eq hsize hd hf
  refine ⟨flags, dlen, hf, hd, ?_⟩
  simp only [gt_iff_lt, maxLength_lt_iff]
  split_ifs with hlong hover
  · exact raises_decode_of_validate hr (by rw [hchecks, if_pos hlong])
  · exact raises_decode_of_validate hr (by rw [hchecks, if_neg hlong, if_pos hover])
  · rw [if_neg hlong, if_neg hover] at hchecks
    exact ⟨_, _, exec_decode_of_validate hr hchecks, rfl, rfl, rfl, rfl, rfl, rfl, rfl, rfl, rfl, fun ht => ht.notMem rfl⟩

/-- Settles O41: the branch of O40 that the size and the length byte select gives the status. -/
theorem decodeVerdictsBySizeAndLength : Obligations.DecodeVerdictsBySizeAndLength := by
  unfold Obligations.DecodeVerdictsBySizeAndLength
  intro s dlen hs hle hcap hd
  obtain ⟨-, hdecode⟩ := decodeChecksInOrder
  obtain ⟨-, hregion⟩ := hdecode s
  obtain ⟨hillegal, hlegal⟩ := hregion hs hle hcap
  by_cases hsize : s.ports.limit - s.ports.base = 16 ∨ s.ports.limit - s.ports.base = 72
  · obtain ⟨flags, dlen', -, hd', hverdict⟩ := hlegal hsize
    obtain rfl : dlen' = dlen := Option.some.inj (hd'.symm.trans hd)
    simp only [gt_iff_lt, maxLength_lt_iff] at hverdict
    split_ifs at hverdict with hlong hover
    · obtain ⟨t, he, ht, -⟩ := hverdict
      refine ⟨t, he, ?_⟩
      rw [ht]
      exact ⟨iff_of_false (by decide) (by omega), iff_of_true rfl (by omega), iff_of_false (by decide) (by omega),
        iff_of_false (by decide) (by omega)⟩
    · obtain ⟨t, he, ht, -⟩ := hverdict
      refine ⟨t, he, ?_⟩
      rw [ht]
      exact ⟨iff_of_false (by decide) (by omega), iff_of_false (by decide) (by omega), iff_of_true rfl (by omega),
        iff_of_false (by decide) (by omega)⟩
    · obtain ⟨t, -, he, ht, -⟩ := hverdict
      refine ⟨t, he, ?_⟩
      rw [ht]
      exact ⟨iff_of_false (by decide) (by omega), iff_of_false (by decide) (by omega), iff_of_false (by decide) (by omega),
        iff_of_true rfl (by omega)⟩
  · obtain ⟨t, he, ht, -⟩ := hillegal (by omega)
    refine ⟨t, he, ?_⟩
    rw [ht]
    exact ⟨iff_of_true rfl (by omega), iff_of_false (by decide) (by omega), iff_of_false (by decide) (by omega),
      iff_of_false (by decide) (by omega)⟩

/-! ### The bytes of a built frame -/

theorem frameBytes_rawId (e : Endian) (id : Word) (flags : Byte) (p : List Byte) :
    word32 e ((frameBytes e id flags p).getD 0 0) ((frameBytes e id flags p).getD 1 0) ((frameBytes e id flags p).getD 2 0)
      ((frameBytes e id flags p).getD 3 0) = id := by
  rw [word32_eq_iff]
  cases e <;> rfl

theorem frameBytes_padding (e : Endian) (id : Word) (flags : Byte) (p : List Byte) :
    (frameBytes e id flags p).getD 6 0 = 0 ∧ (frameBytes e id flags p).getD 7 0 = 0 := by
  cases e <;> exact ⟨rfl, rfl⟩

theorem frameBytes_after (e : Endian) (id : Word) (flags : Byte) (p : List Byte) {a : Nat} (ha : 8 + p.length ≤ a) :
    (frameBytes e id flags p).getD a 0 = 0 := List.getD_eq_default _ _ (by simpa using ha)

theorem encodeSize_eq (n : Nat) : encodeSize n = if n ≤ 8 then 16 else 72 := rfl

/-- V_DLEN answers the data-length byte (R124). -/
theorem answers_vDlen {s : State} {dlen : Byte} (hv : s.ports.view ∈ s.live)
    (hd : s.byteAt s.ports.view.storage (s.ports.view.base + 4) = some dlen) : Answers .vDlen s [.byte dlen] :=
  answers_of_onView (exec_vDlen s) hv (by rw [State.viewDlen_eq hd]; rfl)

/-- V_FLAGS answers the flags byte (R123). -/
theorem answers_vFlags {s : State} {flags : Byte} (hv : s.ports.view ∈ s.live)
    (hf : s.byteAt s.ports.view.storage (s.ports.view.base + 5) = some flags) : Answers .vFlags s [.byte flags] :=
  answers_of_onView (exec_vFlags s) hv (by rw [State.viewFlags_eq hf]; rfl)

/-- The descriptor is live, and its region holds the frame that ENCODE builds of the identifier, the flags and the payload, of the
size that ENCODE gives it (R161, R162). -/
structure State.HoldsFrame (s : State) (v : View) (id : Word) (flags : Byte) (p : List Byte) : Prop where
  live : v ∈ s.live
  length_le : p.length ≤ 64
  size : v.size = encodeSize p.length
  bytes : ∀ k < v.size, s.byteAt v.storage (v.base + k) = some ((frameBytes s.params.hostEndian id flags p).getD k 0)

namespace State.HoldsFrame

variable {s : State} {v : View} {id : Word} {flags : Byte} {p : List Byte}

/-- The frame stands in every state with the same live descriptors, storages and parameters. -/
theorem congr (h : s.HoldsFrame v id flags p) {t : State} (hlive : t.live = s.live) (hstorages : t.storages = s.storages)
    (hparams : t.params = s.params) : t.HoldsFrame v id flags p where
  live := hlive ▸ h.live
  length_le := h.length_le
  size := h.size
  bytes k hk := by rw [State.byteAt_congr hstorages, hparams, h.bytes k hk]

theorem size_ge (h : s.HoldsFrame v id flags p) : 16 ≤ v.size := h.size ▸ encodeSize_ge _

theorem payload_fits (h : s.HoldsFrame v id flags p) : 8 + p.length ≤ v.size := by
  have hlen := h.length_le
  rw [h.size]
  rcases encodeSize_cases (n := p.length) with ⟨hle, hsize⟩ | ⟨hlt, hsize⟩ <;> omega

theorem size_legal (h : s.HoldsFrame v id flags p) : v.size = 16 ∨ v.size = 72 := by
  rw [h.size]
  rcases encodeSize_cases (n := p.length) with ⟨-, hsize⟩ | ⟨-, hsize⟩
  · exact .inl hsize
  · exact .inr hsize

/-- The region's last byte exists, so the region lies inside its storage. -/
theorem fits (h : s.HoldsFrame v id flags p) : v.Fits s := by
  have hsize := h.size_ge
  have hlast := (s.byteAt_isSome_iff v.storage (v.base + (v.size - 1))).mp (by simp [h.bytes (v.size - 1) (by omega)])
  exact ⟨h.size_legal, by omega⟩

theorem toNat_length (h : s.HoldsFrame v id flags p) : (BitVec.ofNat 8 p.length).toNat = p.length := by
  have hlen := h.length_le
  rw [BitVec.toNat_ofNat, Nat.mod_eq_of_lt (by omega)]

theorem rawId (h : s.HoldsFrame v id flags p) : s.viewRawId v = .ok id := by
  have hsize := h.size_ge
  rw [State.viewRawId_eq (h.bytes 0 (by omega)) (h.bytes 1 (by omega)) (h.bytes 2 (by omega)) (h.bytes 3 (by omega)),
    frameBytes_rawId]

theorem dlen (h : s.HoldsFrame v id flags p) : s.byteAt v.storage (v.base + 4) = some (BitVec.ofNat 8 p.length) := by
  have hsize := h.size_ge
  rw [h.bytes 4 (by omega), frameBytes_dlen]

theorem flags_eq (h : s.HoldsFrame v id flags p) : s.byteAt v.storage (v.base + 5) = some flags := by
  have hsize := h.size_ge
  rw [h.bytes 5 (by omega), frameBytes_flags]

theorem payload (h : s.HoldsFrame v id flags p) {k : Nat} (hk : k < p.length) :
    s.byteAt v.storage (v.base + (8 + k)) = p[k]? := by
  have hfits := h.payload_fits
  rw [h.bytes (8 + k) (by omega), frameBytes_payload, List.getElem?_eq_getElem hk, List.getD_eq_getElem _ _ hk]

/-- What the accessors answer of a built frame (R165). -/
theorem answers (h : s.HoldsFrame v id flags p) :
    Answers .vRawId (s.withView v) [.word id] ∧ Answers .vDlen (s.withView v) [.byte (BitVec.ofNat 8 p.length)] ∧
      Answers .vFlags (s.withView v) [.byte flags] ∧ Answers .vSize (s.withView v) [.nat (encodeSize p.length)] := by
  have hs : (s.withView v).HoldsFrame v id flags p := h.congr rfl rfl rfl
  refine ⟨answers_of_viewRawId hs.rawId hs.live (exec_vRawId _), answers_vDlen hs.live hs.dlen,
    answers_vFlags hs.live hs.flags_eq, ?_⟩
  exact answers_of_onView (exec_vSize _) hs.live (by rw [← hs.size]; rfl)

/-- A copy of a built frame's payload into room that meets no live region writes exactly the payload (R140, R165). -/
theorem vCopyBuf (h : s.HoldsFrame v id flags p) {d dpos dcap : Nat} (hw : s.MemWf) (hd : d < s.storages.length)
    (hclip : p.length ≤ dcap) (hroom : dpos + p.length ≤ s.cap d) (hmeets : s.meetsLive d dpos p.length = false) :
    ∃ u, exec .vCopyBuf ((s.withView v).withCopy d dpos dcap) = .next u ∧ u.status = 0 ∧ u.result = [.nat p.length] ∧
      ∀ k < p.length, u.byteAt d (dpos + k) = p[k]? := by
  have hs : ((s.withView v).withCopy d dpos dcap).HoldsFrame v id flags p := h.congr rfl rfl rfl
  have hn : min (BitVec.ofNat 8 p.length).toNat dcap = p.length := by rw [h.toNat_length, Nat.min_eq_left hclip]
  have hmax := effMaxLength_lt_iff flags (BitVec.ofNat 8 p.length)
  have hlen := h.length_le
  have hfits := h.payload_fits
  rw [h.toNat_length] at hmax
  obtain ⟨bytes, st, hread, hst, hin, hcopy⟩ := State.payloadCopy_passed (dpos := dpos) (dcap := dcap) hs.fits hs.live hd
    hs.dlen hs.flags_eq (by rw [h.toNat_length]; omega) (by rw [hn]; exact Nat.not_lt.mpr hroom)
    (by rw [hn]; exact ne_true_of_eq_false hmeets)
  rw [hn] at hread hcopy
  obtain ⟨hbytes, hpayload⟩ := State.memRead_ok hread
  refine ⟨_, (exec_copy (by simp) _).trans (congrArg (State.commit _) hcopy), rfl, rfl, fun k hk => ?_⟩
  rw [State.answer_byteAt, State.write_byteAt_of_inside hst (Storage.mem_wf (hw.storage hst)) hin (hbytes ▸ hk),
    ← List.getElem?_eq_getElem, ← hpayload k hk, Nat.add_assoc, hs.payload hk]

/-- DECODE of a built frame's region makes a second descriptor of the same frame live, with the next tag (R165; log entry 3). -/
theorem decode (h : s.HoldsFrame v id flags p) {limit : Nat} (hl : limit = v.base + v.size) :
    ∃ u v2, exec .decode (s.withRegion v.storage v.base limit) = .next u ∧ u.status = 0 ∧ u.result = [.view v2] ∧
      v2 = ⟨v.storage, v.base, v.size, s.nextTag⟩ ∧ u.live = s.live ++ [v2] ∧ u.HoldsFrame v2 id flags p := by
  have hs : (s.withRegion v.storage v.base limit).HoldsFrame v id flags p := h.congr rfl rfl rfl
  have hsize : limit - v.base = v.size := by omega
  have hlen := h.length_le
  have hfits := h.payload_fits
  have hv : (s.withRegion v.storage v.base limit).validate v.storage v.base limit =
      .ok ⟨v.storage, v.base, v.size, s.nextTag⟩ := by
    rw [State.validate_eq (hsize ▸ h.size_legal) hs.dlen hs.flags_eq, h.toNat_length, if_neg (by omega), if_neg (by omega),
      hsize]
    rfl
  have hr := ((s.withRegion v.storage v.base limit).regionOk_iff v.storage v.base limit).mpr
    ⟨hs.fits.lt_length, hl ▸ Nat.le_add_right _ _, hl ▸ hs.fits.2⟩
  exact ⟨_, _, exec_decode_of_validate hr hv, rfl, rfl, rfl, rfl, List.mem_append_right _ (List.mem_singleton_self _),
    hs.length_le, hs.size, hs.bytes⟩

end State.HoldsFrame

/-! ### ENCODE -/

/-- The descriptor that ENCODE of a payload of `n` bytes returns. -/
def State.encodeView (s : State) (n : Nat) : View := ⟨s.storages.length, 0, encodeSize n, s.nextTag⟩

/-- The state after ENCODE of the payload `p`. -/
def State.afterEncode (s : State) (p : List Byte) : State :=
  ((s.encodeStorage s.ports.id s.ports.flags p).addLive (s.encodeView p.length)).answer
    [.storage s.storages.length, .view (s.encodeView p.length)]

theorem exec_encode {s : State} {p : List Byte} (hp : s.encodePayload s.ports.src s.ports.offset s.ports.length = .ok p) :
    exec .encode s = .next (s.afterEncode p) := execEncode_ok hp

/-- Every byte of the new storage (R162). -/
theorem State.afterEncode_byteAt_self (s : State) {p : List Byte} {a : Nat} (ha : a < encodeSize p.length) :
    (s.afterEncode p).byteAt s.storages.length a =
      some ((frameBytes s.params.hostEndian s.ports.id s.ports.flags p).getD a 0) :=
  s.encodeStorage_byteAt s.ports.id s.ports.flags ha

theorem State.afterEncode_holdsFrame (s : State) {p : List Byte} (hp : p.length ≤ 64) :
    (s.afterEncode p).HoldsFrame (s.encodeView p.length) s.ports.id s.ports.flags p where
  live := List.mem_append_right _ (List.mem_singleton_self _)
  length_le := hp
  size := rfl
  bytes k hk := by
    rw [State.encodeView, Nat.zero_add]
    exact s.afterEncode_byteAt_self hk

theorem State.afterEncode_cap_of_ne (s : State) (p : List Byte) {h : Nat} (hh : h ≠ s.storages.length) :
    (s.afterEncode p).cap h = s.cap h := s.addStorage_cap_of_ne _ hh

theorem State.afterEncode_byteAt_of_ne (s : State) (p : List Byte) {h : Nat} (hh : h ≠ s.storages.length) (a : Nat) :
    (s.afterEncode p).byteAt h a = s.byteAt h a := s.addStorage_byteAt_of_ne _ hh a

/-- ENCODE's live region is in the new storage, so bytes of another storage meet the live regions they met before. -/
theorem State.afterEncode_meetsLive_of_ne (s : State) (p : List Byte) {h : Nat} (hh : h ≠ s.storages.length) (a n : Nat) :
    (s.afterEncode p).meetsLive h a n = s.meetsLive h a n := by
  have hnew : (s.encodeView p.length).meets h a n = false := by simp [View.meets, State.encodeView, hh.symm]
  simp [State.meetsLive, State.afterEncode, hnew]

/-- Settles O42: ENCODE's argument checks in their order, and byte by byte the new storage of `afterEncode_byteAt_self`. -/
theorem encodeChecksAndBuildsTheFrame : Obligations.EncodeChecksAndBuildsTheFrame := by
  unfold Obligations.EncodeChecksAndBuildsTheFrame
  refine ⟨rfl, fun s => ?_⟩
  simp only [gt_iff_lt, ← encodeSize_eq]
  split_ifs with hsrc hrange hlong
  · exact raises_encode (if_pos hsrc)
  · exact raises_encode ((if_neg hsrc).trans (if_pos hrange))
  · exact raises_encode ((if_neg hsrc).trans ((if_neg hrange).trans (if_pos hlong)))
  obtain ⟨p, hp⟩ := State.encodePayload_exists (Nat.not_le.mp hsrc) (Nat.not_lt.mp hrange) (Nat.not_lt.mp hlong)
  obtain ⟨-, -, hmax, hlen, hpayload⟩ := State.encodePayload_ok hp
  rw [← hlen] at hmax hpayload ⊢
  have hge := encodeSize_ge p.length
  have hbyte := fun k (hk : k < encodeSize p.length) => s.afterEncode_byteAt_self hk
  obtain ⟨hpad6, hpad7⟩ := frameBytes_padding s.params.hostEndian s.ports.id s.ports.flags p
  refine ⟨_, _, s.encodeView p.length, _, _, _, _, _, exec_encode hp, rfl, rfl, rfl, rfl, rfl, rfl, rfl, rfl, rfl, rfl,
    List.length_append, s.addStorage_cap_self _, hbyte 0 (by omega), hbyte 1 (by omega), hbyte 2 (by omega),
    hbyte 3 (by omega), frameBytes_rawId _ _ _ _, ?_, ?_, ?_, ?_, fun k hk => ?_, fun a ha hsize => ?_,
    fun h a hh => s.afterEncode_byteAt_of_ne p hh a, fun hs w hw => (hs.fits hw).lt_length.ne⟩
  · rw [hbyte 4 (by omega), frameBytes_dlen]
  · rw [hbyte 5 (by omega), frameBytes_flags]
  · rw [hbyte 6 (by omega), hpad6]
  · rw [hbyte 7 (by omega), hpad7]
  · rw [hpayload k hk, ← (s.afterEncode_holdsFrame hmax).payload hk, State.encodeView, Nat.zero_add]
  · rw [hbyte a hsize, frameBytes_after _ _ _ _ ha]

/-- Settles O44: the frame that ENCODE built is read back, copied and decoded as any frame that a live region holds, and DECODE's
second descriptor is one of the same frame. -/
theorem encodeThenReadGivesBackTheFrame : Obligations.EncodeThenReadGivesBackTheFrame := by
  unfold Obligations.EncodeThenReadGivesBackTheFrame
  intro s hsrc hrange hmax _ _
  simp only [← encodeSize_eq]
  obtain ⟨p, hp⟩ := State.encodePayload_exists hsrc hrange hmax
  obtain ⟨-, -, -, hlen, hpayload⟩ := State.encodePayload_ok hp
  rw [← hlen] at hmax hpayload ⊢
  have hexec := exec_encode hp
  have hframe := s.afterEncode_holdsFrame hmax
  obtain ⟨hid, hdlen, hflags, hsize⟩ := hframe.answers
  refine ⟨_, _, s.encodeView p.length, _, hexec, rfl, rfl, rfl, hid, hdlen, hflags, hsize, ?_, ?_⟩
  · intro d dpos dcap hw hd hclip hroom hmeets
    obtain ⟨u, he, hst, hres, hbytes⟩ := hframe.vCopyBuf (dcap := dcap) (exec_memWf hw hexec)
      (hd.trans_le (by simp [State.afterEncode])) hclip (by rwa [s.afterEncode_cap_of_ne p hd.ne])
      (by rwa [s.afterEncode_meetsLive_of_ne p hd.ne])
    exact ⟨u, he, hst, hres, fun k hk => (hbytes k hk).trans (hpayload k hk).symm⟩
  · obtain ⟨u, v2, he, hst, hres, rfl, hlive, hframe2⟩ := hframe.decode (limit := encodeSize p.length) (Nat.zero_add _).symm
    have hv : s.encodeView p.length ∈ u.live := hlive ▸ List.mem_append_left _ hframe.live
    have htag : (s.afterEncode p).nextTag ≠ (s.encodeView p.length).tag := Nat.succ_ne_self _
    exact ⟨u, _, he, hst, hres, fun heq => htag (congrArg View.tag heq), hv, hframe2.live, rfl, rfl, rfl, hframe2.answers⟩

end Sys2Proof.Machine
end

section
/-! PROOFS. The family of 43_value_semantics.md: EQUALS as the comparison of two regions and its laws (R180, R181), HASH as a function
of the span (R182, R183), and the text of RENDER (R185, R186). -/

namespace Sys2Proof.Machine

/-! ### Spans -/

/-- A byte of a span is the byte that stands there. -/
theorem State.byteAt_of_viewSpan {s : State} {v : View} {span : List Byte} (h : s.viewSpan v = .ok span) {k : Nat}
    (hk : k < v.size) : s.byteAt v.storage (v.base + k) = some (span.getD k 0) := by
  obtain ⟨hlen, hbytes⟩ := State.memRead_ok h
  rw [hbytes k hk, List.getElem?_eq_getElem (by omega), List.getD_eq_getElem _ _ (by omega)]

/-- The regions of two descriptors have one size and the same byte at every offset (R180). -/
def State.RegionsMatch (s : State) (v w : View) : Prop :=
  v.size = w.size ∧ ∀ k < v.size, s.byteAt v.storage (v.base + k) = s.byteAt w.storage (w.base + k)

namespace State.RegionsMatch

variable {s : State} {u v w : View}

theorem refl (s : State) (v : View) : s.RegionsMatch v v := ⟨rfl, fun _ _ => rfl⟩

theorem symm (h : s.RegionsMatch v w) : s.RegionsMatch w v := ⟨h.1.symm, fun k hk => (h.2 k (h.1 ▸ hk)).symm⟩

theorem trans (h : s.RegionsMatch u v) (h' : s.RegionsMatch v w) : s.RegionsMatch u w :=
  ⟨h.1.trans h'.1, fun k hk => (h.2 k hk).trans (h'.2 k (h.1 ▸ hk))⟩

end State.RegionsMatch

/-- Regions match exactly when their spans are the same list of bytes. -/
theorem State.span_eq_iff {s : State} {v w : View} {a b : List Byte} (ha : s.viewSpan v = .ok a) (hb : s.viewSpan w = .ok b) :
    a = b ↔ s.RegionsMatch v w := by
  obtain ⟨hlen, hbytes⟩ := State.memRead_ok ha
  obtain ⟨hlen', hbytes'⟩ := State.memRead_ok hb
  constructor
  · rintro rfl
    exact ⟨hlen.symm.trans hlen', fun k hk => (hbytes k hk).trans (hbytes' k (by omega)).symm⟩
  · rintro ⟨hsize, hmatch⟩
    refine List.ext_getElem? fun k => ?_
    by_cases hk : k < v.size
    · rw [← hbytes k hk, ← hbytes' k (hsize ▸ hk), hmatch k hk]
    · rw [List.getElem?_eq_none (by omega), List.getElem?_eq_none (by omega)]

/-- A byte that changes in one region and not in the other breaks a match (R181). -/
theorem State.RegionsMatch.not_of_changed {s s' : State} {v w : View} {k : Nat} (h : s.RegionsMatch v w) (hk : k < v.size)
    (hchanged : s'.byteAt v.storage (v.base + k) ≠ s.byteAt v.storage (v.base + k))
    (hkept : s'.byteAt w.storage (w.base + k) = s.byteAt w.storage (w.base + k)) : ¬ s'.RegionsMatch v w := by
  intro h'
  apply hchanged
  rw [h'.2 k hk, hkept, h.2 k hk]

/-! ### EQUALS -/

/-- EQUALS of two spans compares the lists: spans of different sizes are different lists (R180). -/
theorem State.viewEquals_eq {s : State} {v w : View} {a b : List Byte} (ha : s.viewSpan v = .ok a) (hb : s.viewSpan w = .ok b) :
    s.viewEquals v w = .ok [.bool (a == b)] := by
  unfold State.viewEquals
  split
  case isTrue hsize =>
    have hne : a ≠ b := fun he => hsize ((State.span_eq_iff ha hb).mp he).1
    rw [beq_false_of_ne hne]
    rfl
  case isFalse =>
    rw [ha, hb]
    rfl

/-- EQUALS answers exactly where both views are live, with the comparison's answer. -/
theorem answers_equals_iff (s : State) (parts : List Value) :
    Answers .equals s parts ↔
      s.ports.view ∈ s.live ∧ s.ports.view2 ∈ s.live ∧ s.viewEquals s.ports.view s.ports.view2 = .ok parts := by
  rw [answers_onView_iff (exec_equals s)]
  by_cases hw : s.ports.view2 ∈ s.live <;> simp [hw]

/-- On two live views EQUALS says whether their regions match (R180). -/
theorem answers_equals {s : State} (hs : s.LiveInv) (hv : s.ports.view ∈ s.live) (hw : s.ports.view2 ∈ s.live) :
    ∃ r, Answers .equals s [.bool r] ∧ (r = true ↔ s.RegionsMatch s.ports.view s.ports.view2) := by
  obtain ⟨a, ha, -⟩ := (hs.fits hv).span
  obtain ⟨b, hb, -⟩ := (hs.fits hw).span
  refine ⟨a == b, (answers_equals_iff s _).mpr ⟨hv, hw, State.viewEquals_eq ha hb⟩, ?_⟩
  rw [beq_iff_eq, State.span_eq_iff ha hb]

/-- Settles O45: the comparison is of the regions, and a dead view is refused as in O23. -/
theorem equalsComparesEveryByte : Obligations.EqualsComparesEveryByte := by
  unfold Obligations.EqualsComparesEveryByte
  refine ⟨rfl, fun s hdead => ?_, fun s => answers_equals⟩
  obtain ⟨-, hrefused, -⟩ := illFormedOperandsAreRefused .equals s
  obtain ⟨v, -, hv, hraises⟩ := hrefused rfl hdead
  exact ⟨v, hraises, hv⟩

/-- What EQUALS answers of two live views put on its ports. -/
theorem answers_equals_withViews_iff {s : State} (hs : s.LiveInv) {v w : View} (hv : v ∈ s.live) (hw : w ∈ s.live) (b : Bool) :
    Answers .equals (s.withViews v w) [.bool b] ↔ (b = true ↔ s.RegionsMatch v w) := by
  obtain ⟨r, hr, hmatch⟩ := answers_equals (s := s.withViews v w) hs hv hw
  have hmatch : r = true ↔ s.RegionsMatch v w := hmatch
  rw [hr.iff_eq, ← hmatch, ← Bool.eq_iff_iff]
  simp

/-- Settles O46: the laws are those of matching regions. -/
theorem equalityLaws : Obligations.EqualityLaws := by
  unfold Obligations.EqualityLaws
  intro s hs
  refine ⟨fun v hv => ?_, fun v hv w hw b h => ?_, fun v hv w hw x hx h h' => ?_, ?_⟩
  · exact (answers_equals_withViews_iff hs hv hv true).mpr (iff_of_true rfl (.refl s v))
  · rw [answers_equals_withViews_iff hs hv hw] at h
    exact (answers_equals_withViews_iff hs hw hv b).mpr (h.trans ⟨.symm, .symm⟩)
  · rw [answers_equals_withViews_iff hs hv hw] at h
    rw [answers_equals_withViews_iff hs hw hx] at h'
    exact (answers_equals_withViews_iff hs hv hx true).mpr (iff_of_true rfl ((h.mp rfl).trans (h'.mp rfl)))
  · intro s' v hv w hw k hk hs' hlive hchanged hkept hout h
    have hmatch := ((answers_equals_withViews_iff hs hv hw true).mp h).mp rfl
    have hsize := hmatch.1
    have hbroken : ¬ s'.RegionsMatch v w :=
      hmatch.not_of_changed hk hchanged (hkept _ _ fun ⟨hh, ha⟩ => hout ⟨hh, by omega, by omega⟩)
    rw [← hlive] at hv hw
    exact ⟨(answers_equals_withViews_iff hs' hv hw false).mpr (iff_of_false Bool.false_ne_true hbroken),
      (answers_equals_withViews_iff hs' hw hv false).mpr (iff_of_false Bool.false_ne_true (mt .symm hbroken))⟩

/-! ### HASH -/

/-- HASH of a live view with a span answers the hash of that list of bytes (R182). -/
theorem answers_hash {s : State} {span : List Byte} (hv : s.ports.view ∈ s.live) (hspan : s.viewSpan s.ports.view = .ok span) :
    Answers .hash s [.word (Config.frameHash span)] :=
  answers_of_onView (exec_hash s) hv (by rw [hspan]; rfl)

/-- Settles O47: views that EQUALS finds equal have one span. -/
theorem hashIsAFunctionOfTheSpan : Obligations.HashIsAFunctionOfTheSpan := by
  unfold Obligations.HashIsAFunctionOfTheSpan
  refine ⟨rfl, fun s hv => raises_of_onView_of_notMem (exec_hash s) hv, fun s hs hv => ?_⟩
  obtain ⟨span, hspan, hlen, hbytes⟩ := (hs.fits hv).span
  refine ⟨⟨span, hlen, hbytes, answers_hash hv hspan⟩, fun h => ⟨_, answers_hash hv hspan, ?_⟩⟩
  obtain ⟨-, hw, hequal⟩ := (answers_equals_iff s _).mp h
  obtain ⟨span', hspan', -⟩ := (hs.fits hw).span
  obtain rfl : span = span' := by simpa [State.viewEquals_eq hspan hspan'] using hequal
  exact answers_hash (s := s.withView s.ports.view2) hw hspan'

/-! ### RENDER -/

section

variable {p : Params} {v : View} {span : List Byte}

/-- What an FD frame is rendered as, which R186 leaves to the configuration. -/
theorem renderFrame_of_fd (h : fdClass (span.getD 5 0) (span.getD 4 0) = true) :
    renderFrame p v span = oneLine (Config.renderFd v.storage v.base v.size span) := if_pos h

/-- A frame that is not FD-classified has the fixed text of R186 in its rendering. -/
theorem renderFrame_of_not_fd (h : fdClass (span.getD 5 0) (span.getD 4 0) = false) :
    renderFrame p v span =
      oneLine (Config.renderBefore v.storage v.base v.size span) ++
      frameText p (idNumeric p (spanRawId p.hostEndian span)) (span.getD 5 0) (span.getD 4 0)
        ((span.drop 8).take (span.getD 4 0).toNat) ++
      oneLine (Config.renderAfter v.storage v.base v.size span) := if_neg (Bool.eq_false_iff.mp h)

/-- Every rendering is one line (R186). -/
theorem newline_notMem_renderFrame : '\n' ∉ renderFrame p v span := by
  cases h : fdClass (span.getD 5 0) (span.getD 4 0) with
  | true =>
    rw [renderFrame_of_fd h]
    exact newline_notMem_oneLine _
  | false =>
    rw [renderFrame_of_not_fd h]
    simp [newline_notMem_oneLine, newline_notMem_frameText]

end

/-- A frame that is not FD-classified has at most 8 payload bytes (R130). -/
theorem dlen_le_of_fdClass_eq_false {flags dlen : Byte} (h : fdClass flags dlen = false) : dlen.toNat ≤ 8 := by
  rw [fdClass_eq_decide, decide_eq_false_iff_not] at h
  omega

section

variable {p : Params} {hex : Nat → List Char} {hexb : Byte → List Char}
  (hhex : ∀ n, hex n = (Nat.toDigits 16 n).map (fun c => if p.renderHexUpper then c.toUpper else c))
  (hhexb : ∀ b, hexb b = if p.renderBytePad ∧ b.toNat < 0x10 then '0' :: hex b.toNat else hex b.toNat)

include hhex

/-- A word's hexadecimal text, byte or identifier, is the one that R186 writes `hex`. -/
theorem hexText_toNat {w : Nat} (hw : w ≤ 32) (x : BitVec w) : hexText p x.toNat = hex x.toNat := by
  rw [hexText_eq p (x.isLt.trans_le (Nat.pow_le_pow_right (by omega) hw)), hhex]

include hhexb

/-- A payload byte's text is the one that R186 writes `hexb`. -/
theorem hexByteText_eq (b : Byte) : hexByteText p b = hexb b := by
  simp [hexByteText, hhexb, hexText_toNat hhex (by omega : 8 ≤ 32) b]

/-- The fixed text as R186 writes it. -/
theorem frameText_eq (id : Word) (flags dlen : Byte) (payload : List Byte) :
    frameText p id flags dlen payload =
      ['C', 'a', 'n', 'F', 'r', 'a', 'm', 'e', '(', 'I', 'D', '='] ++ hex id.toNat ++
      [',', ' ', 'F', 'L', 'A', 'G', 'S', '='] ++ hex flags.toNat ++
      [',', ' ', 'L', 'E', 'N', '='] ++ Nat.toDigits 10 dlen.toNat ++
      [',', ' ', 'D', 'A', 'T', 'A', '=', '['] ++ [',', ' '].intercalate (payload.map hexb) ++ [']', ')'] := by
  have hbytes : payload.map (hexByteText p) = payload.map hexb := List.map_congr_left fun b _ => hexByteText_eq hhex hhexb b
  rw [frameText, hexText_toNat hhex (by omega) id, hexText_toNat hhex (by omega) flags, decText_eq dlen.isLt, joinText_eq, hbytes]

end

/-- V_IS_FD answers the classification of the flags and data-length bytes (R130). -/
theorem answers_vIsFd {s : State} {dlen flags : Byte} (hv : s.ports.view ∈ s.live)
    (hd : s.byteAt s.ports.view.storage (s.ports.view.base + 4) = some dlen)
    (hf : s.byteAt s.ports.view.storage (s.ports.view.base + 5) = some flags) : Answers .vIsFd s [.bool (fdClass flags dlen)] :=
  answers_of_onView (exec_vIsFd s) hv (by rw [State.viewIsFd_eq hd hf]; rfl)

/-- V_ID answers the numeric id of a span's identifier word (R122). -/
theorem answers_vId_of_viewSpan {s : State} {span : List Byte} (hs : s.LiveInv) (hv : s.ports.view ∈ s.live)
    (hspan : s.viewSpan s.ports.view = .ok span) :
    Answers .vId s [.word (idNumeric s.params (spanRawId s.params.hostEndian span))] := by
  have hsize := (hs.fits hv).size_ge
  have hbyte {k : Nat} (hk : k < s.ports.view.size) := State.byteAt_of_viewSpan hspan hk
  have hraw : s.viewRawId s.ports.view = .ok (spanRawId s.params.hostEndian span) :=
    State.viewRawId_eq (hbyte (by omega)) (hbyte (by omega)) (hbyte (by omega)) (hbyte (by omega))
  exact answers_of_viewRawId hraw hv (exec_vId s)

/-- The payload bytes that RENDER lists are the first `n` of the region (R186). -/
theorem State.payload_of_viewSpan {s : State} {v : View} {span : List Byte} (hspan : s.viewSpan v = .ok span) {n : Nat}
    (hn : 8 + n ≤ v.size) :
    ((span.drop 8).take n).length = n ∧
      ∀ k < n, s.byteAt v.storage (v.base + 8 + k) = ((span.drop 8).take n)[k]? := by
  obtain ⟨hlen, hbytes⟩ := State.memRead_ok hspan
  refine ⟨by simp; omega, fun k hk => ?_⟩
  rw [Nat.add_assoc, hbytes _ (by omega), List.getElem?_take_of_lt hk, List.getElem?_drop]

/-- Settles O48: the text is built of the span, whose fields are what the accessors answer. -/
theorem renderObeysItsLaw : Obligations.RenderObeysItsLaw := by
  unfold Obligations.RenderObeysItsLaw
  intro s hex hexb hs hv hhex hhexb
  have hsize := (hs.fits hv).size_ge
  obtain ⟨span, hspan, -⟩ := (hs.fits hv).span
  have hd := State.byteAt_of_viewSpan hspan (k := 4) (by omega)
  have hf := State.byteAt_of_viewSpan hspan (k := 5) (by omega)
  refine ⟨renderFrame s.params s.ports.view span, _, _, _, answers_of_onView (exec_render s) hv (by rw [hspan]; rfl),
    newline_notMem_renderFrame, answers_vFlags hv hf, answers_vDlen hv hd, answers_vId_of_viewSpan hs hv hspan, ?_⟩
  intro hfd
  have hclass : fdClass (span.getD 5 0) (span.getD 4 0) = false := by
    simpa using answers_unique (answers_vIsFd hv hd hf) hfd
  have hlen := dlen_le_of_fdClass_eq_false hclass
  obtain ⟨hpayload, hbytes⟩ := State.payload_of_viewSpan hspan (n := (span.getD 4 0).toNat) (by omega)
  exact ⟨_, _, _, hpayload, hbytes, by rw [renderFrame_of_not_fd hclass, frameText_eq hhex hhexb]⟩

end Sys2Proof.Machine
end

section
/-! PROOFS. The family of 60_exceptions.md: failures are precise (R211), and the statuses that each operation can return (R208). -/

namespace Sys2Proof.Machine

/-! ### Precise failures -/

/-- Settles O20, by the inversion of `exec`: an answer's status is OK, and every failure is a `raise` from the state before. -/
theorem failuresArePrecise : Obligations.FailuresArePrecise := by
  unfold Obligations.FailuresArePrecise
  intro i s t h hstatus
  cases exec_effect h with
  | failed _ f =>
    refine ⟨by simp [State.Keeps], s.raise_result f, ?_⟩
    cases f with
    | error e => exact .inl ⟨e.code_lt, rfl, e, rfl⟩
    | fault e => exact .inr ⟨e.code_ge, e, rfl, rfl⟩
  | _ => exact absurd rfl hstatus

/-! ### The statuses of an operation -/

section

variable {i : Instr} {s t : State}

/-- An operation has one next state. -/
theorem exec_unique {t' : State} (h : exec i s = .next t) (h' : exec i s = .next t') : t = t' :=
  Host.Outcome.next.inj (h.symm.trans h')

theorem Answers.status {parts : List Value} (ha : Answers i s parts) (h : exec i s = .next t) : t.status = 0 := by
  obtain ⟨u, hu, hstatus, -⟩ := ha
  rw [exec_unique h hu, hstatus]

theorem Raises.status {code : BitVec 3} {f : Failure} (hr : Raises i s code f) (h : exec i s = .next t) : t.status = code := by
  obtain ⟨u, hu, hstatus, -⟩ := hr
  rw [exec_unique h hu, hstatus]

/-- A codec operation answers in every state (R100). -/
theorem status_of_codecOp (hi : i ∈ codecOps) (h : exec i s = .next t) : t.status = 0 := by
  obtain ⟨parts, ha, -⟩ := codecOperationsArePure i s s hi rfl rfl rfl rfl rfl rfl
  exact ha.status h

/-- An operation of format V answers on a live view, and refuses any other (R120). -/
theorem status_of_viewOp (hi : i ∈ viewOps) (hs : s.LiveInv) (h : exec i s = .next t) : t.status = 0 ∨ t.status = 7 := by
  by_cases hv : s.ports.view ∈ s.live
  · obtain ⟨parts, ha, -⟩ := viewsReadOnlyTheirOwnRegion i s s hi hs hs rfl rfl hv hv fun _ _ => rfl
    exact .inl (ha.status h)
  · exact .inr ((raises_illegalView (ops := viewOps) (by decide) s hv i hi).status h)

/-- EQUALS answers on two live views, and refuses any others (R180). -/
theorem status_of_equals (hs : s.LiveInv) (h : exec .equals s = .next t) : t.status = 0 ∨ t.status = 7 := by
  obtain ⟨-, hdead, hlive⟩ := equalsComparesEveryByte
  by_cases hviews : s.ports.view ∈ s.live ∧ s.ports.view2 ∈ s.live
  · obtain ⟨b, ha, -⟩ := hlive s hs hviews.1 hviews.2
    exact .inl (ha.status h)
  · obtain ⟨v, hr, -⟩ := hdead s (not_and_or.mp hviews)
    exact .inr (hr.status h)

/-- A payload copy ends by one of R140's checks or copies: in a region that fits, no read or write fails after them. -/
theorem status_of_copyOp (hi : i ∈ copyOps) (hs : s.LiveInv) (h : exec i s = .next t) :
    t.status = 0 ∨ t.status = 5 ∨ t.status = 6 ∨ t.status = 7 := by
  have he := exec_copy hi s
  by_cases hv : s.ports.view ∉ s.live
  · exact .inr (.inr (.inr ((raises_of_commit he (State.payloadCopy_illegalView hv _ _ _)).status h)))
  rw [not_not] at hv
  by_cases hdst : s.storages.length ≤ s.ports.dst
  · exact .inr (.inr (.inr ((raises_of_commit he (State.payloadCopy_illegalStorage hv hdst _ _)).status h)))
  rw [not_le] at hdst
  have hfits := hs.fits hv
  obtain ⟨flags, dlen, hf, hd⟩ := hfits.flagsDlen
  have hchecks := State.payloadCopy_eq (dpos := s.ports.dpos) (dcap := s.ports.dcap) hv hdst hd hf
  split_ifs at hchecks with hspan hcap hmeets
  · exact .inr (.inr (.inl ((raises_of_commit he hchecks).status h)))
  · exact .inr (.inl ((raises_of_commit he hchecks).status h))
  · exact .inr (.inr (.inl ((raises_of_commit he hchecks).status h)))
  · obtain ⟨bytes, st, -, -, -, hcopy⟩ := State.payloadCopy_passed hfits hv hdst hd hf hspan hcap hmeets
    rw [exec_unique h (he.trans (congrArg s.commit hcopy))]
    exact .inl rfl

/-- DECODE ends by one of R151's checks or makes its view live. -/
theorem status_of_decode (h : exec .decode s = .next t) :
    t.status = 0 ∨ t.status = 1 ∨ t.status = 2 ∨ t.status = 3 ∨ t.status = 7 := by
  obtain ⟨-, hdecode⟩ := decodeChecksInOrder
  obtain ⟨hill, hregion⟩ := hdecode s
  by_cases hr : ¬ (s.ports.s < s.storages.length ∧ s.ports.base ≤ s.ports.limit ∧ s.ports.limit ≤ s.cap s.ports.s)
  · simp [(hill hr).status h]
  obtain ⟨hhandle, hle, hcap⟩ := not_not.mp hr
  obtain ⟨hbad, hgood⟩ := hregion hhandle hle hcap
  by_cases hsize : s.ports.limit - s.ports.base ≠ 16 ∧ s.ports.limit - s.ports.base ≠ 72
  · simp [(hbad hsize).status h]
  obtain ⟨flags, dlen, -, -, hverdict⟩ := hgood (by omega)
  split_ifs at hverdict
  · simp [hverdict.status h]
  · simp [hverdict.status h]
  · obtain ⟨u, v, hu, hstatus, -⟩ := hverdict
    simp [exec_unique h hu, hstatus]

/-- ENCODE ends by one of its argument checks or builds its frame (R160, R164). -/
theorem status_of_encode (h : exec .encode s = .next t) :
    t.status = 0 ∨ t.status = 2 ∨ t.status = 4 ∨ t.status = 7 := by
  obtain ⟨-, hencode⟩ := encodeChecksAndBuildsTheFrame
  have hchecks := hencode s
  simp only [← encodeSize_eq] at hchecks
  split_ifs at hchecks
  · simp [hchecks.status h]
  · simp [hchecks.status h]
  · simp [hchecks.status h]
  · obtain ⟨u, -, -, -, -, -, -, -, hu, hstatus, -⟩ := hchecks
    simp [exec_unique h hu, hstatus]

end

/-- Settles O21, family by family. -/
theorem statusesByOperation : Obligations.StatusesByOperation := by
  unfold Obligations.StatusesByOperation
  intro i s t hs h
  refine ⟨fun hi => status_of_codecOp hi h, fun hi => status_of_viewOp hi hs h, fun hi => status_of_copyOp hi hs h, ?_, ?_, ?_⟩
  · rintro rfl
    exact status_of_decode h
  · rintro rfl
    exact status_of_encode h
  · rintro rfl
    exact status_of_equals hs h

end Sys2Proof.Machine
end

section
/-! PROOFS. The family of 70_reset_and_hazards.md: the state after reset (R230), and that no operation writes into a live region (R236). -/

namespace Sys2Proof.Machine

/-! ### Live regions -/

/-- Settles O17: by the inversion of `exec`, a copy that succeeds meets no live region, and every other operation leaves the old
storages' bytes alone. -/
theorem noOperationWritesALiveRegion : Obligations.NoOperationWritesALiveRegion :=
  fun _ _ _ hs h => exec_keepsLiveBytes hs h

/-! ### The state after reset -/

@[simp] theorem State.reset_live : State.reset.live = [] := rfl
@[simp] theorem State.reset_storages : State.reset.storages = [] := rfl
@[simp] theorem State.reset_fault : State.reset.fault = [] := rfl
@[simp] theorem State.reset_pc : State.reset.pc = 0 := rfl
@[simp] theorem State.reset_info : State.reset.info = none := rfl
@[simp] theorem State.reset_status : State.reset.status = 0 := rfl

/-- After reset the flags and masks have the values of R7's table; the `OPEN` parameters beside them stay opaque (log entry 4). -/
theorem defaultIds_reset : DefaultIds State.reset.params := ⟨rfl, rfl, rfl, rfl, rfl, rfl⟩

/-- Settles O4: the bookkeeping is what `State.reset` sets, and the constants are the definitions of `Config`. -/
theorem resetEmptiesTheBookkeeping : Obligations.ResetEmptiesTheBookkeeping := by
  unfold Obligations.ResetEmptiesTheBookkeeping
  refine ⟨State.reset_live, State.reset_fault, State.reset_storages, defaultIds_reset, State.reset_pc, ?_⟩
  decide

/-- With no live descriptor there is none that R25 speaks of. -/
theorem State.liveInv_of_live_eq_nil {s : State} (h : s.live = []) : s.LiveInv := by simp [State.LiveInv, h]

/-- With no storage there is none to be out of canonical form (log entry 2). -/
theorem State.memWf_of_storages_eq_nil {s : State} (h : s.storages = []) : s.MemWf := by simp [State.MemWf, h]

/-- With no live descriptor there is no tag to be out of order (log entry 3). -/
theorem State.tagsRise_of_live_eq_nil {s : State} (h : s.live = []) : s.TagsRise := by simp [State.TagsRise, h]

/-- Where nothing has been recorded, status 0 agrees with it (R12). -/
theorem State.interfaceOk_of_info_eq_none {s : State} (hi : s.info = none) (hs : s.status = 0) : s.interfaceOk = true := by
  simp [State.interfaceOk, hi, hs]

/-- Settles O5: the invariants speak of live descriptors and storages, of which there are none, and nothing is recorded. -/
theorem resetMeetsTheInvariants : Obligations.ResetMeetsTheInvariants :=
  ⟨State.liveInv_of_live_eq_nil State.reset_live, State.memWf_of_storages_eq_nil State.reset_storages,
    State.tagsRise_of_live_eq_nil State.reset_live, State.interfaceOk_of_info_eq_none State.reset_info State.reset_status⟩

end Sys2Proof.Machine
end
